-- ==== Sys2Proof/Word.lean ====
section
/-! DEFINITION. The machine's words: 32-bit registers and fields, 8-bit buffer bytes. -/

namespace Sys2Proof

/-- A 32-bit register, command word or binary32 field (00_scope.md R5, 10_state.md R22). -/
abbrev Word := BitVec 32

/-- A byte of the buffer, also an element of GF(2^8) (20_memory.md R60, 00_scope.md R9). -/
abbrev Byte := BitVec 8

end Sys2Proof
end

