-- ==== Sys2Proof/Config.lean ====
section
/-! DEFINITION. What a platform fixes (the OPEN parameters of 00_scope.md R5) and the free values the spec
leaves as draws. A free value is an opaque constant: no proof can see which value it is. -/

namespace Sys2Proof

/-- The OPEN parameters of 00_scope.md R5. They are fixed for one machine: `State.cfg` holds them, no step
changes them, and a statement over all states is a statement over all of them (log entry 1). -/
structure Params where
  /-- BUF_BYTES, the size of the buffer in bytes (20_memory.md R60). -/
  bufBytes : Nat
  /-- REG_BASE, the host address of the register window (10_state.md R22). -/
  regBase : Nat
  /-- BUF_BASE, the host address of the buffer window (20_memory.md R61). -/
  bufBase : Nat
  /-- GF_POLY, bit i the coefficient of x^i, degree 8 (43_ecc.md R180). -/
  gfPoly : BitVec 9
  /-- RS_PARITY, row j for parity shard j, column i for data shard i (43_ecc.md R181). -/
  rsParity : Vector (Vector Byte 10) 4
deriving DecidableEq, Repr

/-- The default GF_POLY, x^8 + x^4 + x^3 + x^2 + 1 (43_ecc.md R180). -/
def Config.defaultGfPoly : BitVec 9 := 0x11D#9

/-- The default RS_PARITY table (43_ecc.md R181). -/
def Config.defaultRsParity : Vector (Vector Byte 10) 4 :=
  #v[#v[0x81, 0x96, 0xAF, 0xB8, 0xD2, 0xC4, 0xFE, 0xE8, 0x03, 0x02],
     #v[0x96, 0x81, 0xB8, 0xAF, 0xC4, 0xD2, 0xE8, 0xFE, 0x02, 0x03],
     #v[0xBF, 0xD6, 0x62, 0x0A, 0x06, 0x6F, 0xDF, 0xB7, 0x05, 0x04],
     #v[0xD6, 0xBF, 0x0A, 0x62, 0x6F, 0x06, 0xB7, 0xDF, 0x04, 0x05]]

/-- The parameters `State.reset` carries: the whole 32-bit buffer address space and two adjacent host windows
(DESIGN CHOICE, unsafe for a claim about `State.reset` alone, log entry 1), and the spec's default code. -/
def Config.defaultParams : Params where
  bufBytes := 2 ^ 32
  regBase := 0
  bufBase := 64
  gfPoly := Config.defaultGfPoly
  rsParity := Config.defaultRsParity

/-- The byte at a buffer address that nothing has written since power-on: any value, fixed once drawn
(20_memory.md R73; log entry 2). -/
opaque Config.powerOnByte : Nat → Byte

/-- The k-th byte left unspecified by a reset that abandons a command (70_reset_and_hazards.md R230; log entry 3). -/
opaque Config.resetByte : Nat → Byte

/-- What the NoiseSource offers as its k-th answer, to a request with the given bound. `drawAt` keeps an offer
only where 10_state.md R45 allows it (log entry 4). -/
opaque Config.noiseSample : Nat → Word → Word

/-- The bits offered for the NaN that a perturbation computes with the k-th noise sample
(41_noise_crosstalk.md R152; log entry 5). -/
opaque Config.nanBits : Nat → Word

end Sys2Proof
end

