-- ==== Sys2Proof/Machine/State.lean ====
section
/-! DEFINITION. The machine's state: the registers of the window, the buffer, the other agents' state, the
reasons a step can stop, and the state after reset. -/

namespace Sys2Proof.Machine

/-- The fields of STATUS that have storage (10_state.md R24). Bits 3:2 and 31:9 have none: they read as 0
(`Status.word`). -/
structure Status where
  /-- Bit 0: 1 from issue until completion. -/
  busy : Bool
  /-- Bit 1: 1 from completion until the next issue. -/
  done : Bool
  /-- Bits 7:4: the completion code (60_exceptions.md R200). -/
  err : BitVec 4
  /-- Bit 8: the VOBF result (42_probe.md R171). -/
  result : Bool
deriving DecidableEq, Repr

/-- The buffer's written bytes, as (address, byte) pairs with addresses strictly rising (`Memory.wf`). An
address that is not listed has not been written since power-on (log entry 2). -/
abbrev Memory := List Host.Cell

/-- The agents that take steps (10_state.md R20); the NoiseSource only answers the block. -/
inductive Agent where
  | host
  | block
deriving DecidableEq, Repr

/-- One operation of the host on the block, at host addresses (20_memory.md R61, 10_state.md R22,
30_encoding.md R96, 70_reset_and_hazards.md R230). -/
inductive HostOp where
  /-- Write the `width` low bytes of `value` at host address `addr`. -/
  | write (addr width value : Nat)
  /-- Read `width` bytes at host address `addr`. -/
  | read (addr width : Nat)
  /-- Read STATUS until BUSY reads 0 (WAIT). -/
  | wait
  /-- Assert the block's reset input (70_reset_and_hazards.md R230). That the host asserts it, in its program order,
  is a DESIGN CHOICE: the spec names no agent for it (log entry 18). -/
  | reset
deriving DecidableEq, Repr

/-- The state of the block, its host and its NoiseSource. -/
structure State where
  /-- CMD, offset 0x00 (10_state.md R23). While BUSY = 1 it is the pending command (R46). -/
  cmd : Word
  /-- STATUS, offset 0x04 (R24). -/
  status : Status
  /-- SRC_ADDR, offset 0x08 (R25). -/
  srcAddr : Word
  /-- SRC_LEN, offset 0x0C (R26). -/
  srcLen : Word
  /-- SRC2_ADDR, offset 0x10 (R27). -/
  src2Addr : Word
  /-- SRC2_LEN, offset 0x14 (R28). -/
  src2Len : Word
  /-- DST_ADDR, offset 0x18 (R29). -/
  dstAddr : Word
  /-- DST_LEN, offset 0x1C, read-only to the host (R30). -/
  dstLen : Word
  /-- PARAM, offset 0x20, a binary32 pattern (R31). -/
  param : Word
  /-- GEOM_W, offset 0x24 (R32). -/
  geomW : Word
  /-- GEOM_H, offset 0x28 (R33). -/
  geomH : Word
  /-- BUF (20_memory.md R60). -/
  mem : Memory
  /-- The NoiseSource's own state: how many samples it has answered (10_state.md R45, R46; log entry 4). -/
  noiseDraws : Nat
  /-- The model's own: how many bytes resets have left unspecified (70_reset_and_hazards.md R230; log entry 3). -/
  resetDraws : Nat
  /-- The OPEN parameters (00_scope.md R5); no step changes them (log entry 1). -/
  cfg : Params
  /-- The host's remaining operations, in program order (20_memory.md R74; log entry 6). -/
  prog : List HostOp
  /-- Which agent takes the coming steps (20_memory.md R74; log entry 6). -/
  sched : List Agent
  /-- What the host's reads have returned, newest first (30_encoding.md R96; log entry 6). -/
  reads : List Nat
  /-- A command was issued and the host has not since read STATUS with BUSY = 0 (70_reset_and_hazards.md R235;
  log entry 7). -/
  unsynced : Bool
deriving DecidableEq, Repr

/-- Why the machine stops with a fault. -/
inductive Fault where
  /-- FAULT_BUF_HAZARD (60_exceptions.md R213, 70_reset_and_hazards.md R235): raised by a host access to the
  buffer window between an issue and the host's read of BUSY = 0. Safe: the hardware goes on with a result the
  spec does not give. -/
  | bufHazard
deriving DecidableEq, Repr

/-- Why the model gives a host operation or a command no meaning. -/
inductive Refusal where
  /-- A command with no meaning yet, by its mnemonic. Raised by no arm of `exec`: every command has its
  meaning. Safe. -/
  | notModelled (mnemonic : String)
  /-- REFUSE_REG_ACCESS (60_exceptions.md R213, 20_memory.md R66): raised by a host access to the register
  window that is not a 32-bit access at an offset that is a multiple of 4. Safe. -/
  | regAccess
  /-- A host access outside the register window and the buffer window, or of width 0 (20_memory.md R61,
  93_implementation_defined.md U8): a platform matter, raised by the host's step. Safe. -/
  | hostWindow
deriving DecidableEq, Repr

/-- What a step or a command's meaning answers. -/
abbrev Out := Host.Outcome State Fault Refusal

/-- STATUS after reset: idle, no completed command, ERR = 0 (10_state.md R24). -/
def Status.idle : Status := { busy := false, done := false, err := 0, result := false }

/-- The machine right after power-on reset (70_reset_and_hazards.md R230, 10_state.md R22): every register 0,
STATUS idle, no byte of the buffer written. The OPEN parameters and the other agents' fields have the values
that log entries 1, 3, 4 and 6 name. -/
def State.reset : State where
  cmd := 0
  status := Status.idle
  srcAddr := 0
  srcLen := 0
  src2Addr := 0
  src2Len := 0
  dstAddr := 0
  dstLen := 0
  param := 0
  geomW := 0
  geomH := 0
  mem := []
  noiseDraws := 0
  resetDraws := 0
  cfg := Config.defaultParams
  prog := []
  sched := []
  reads := []
  unsynced := false

end Sys2Proof.Machine
end

