-- ==== Sys2Proof/Machine/Flags.lean ====
section
/-! DEFINITION. STATUS: its 32-bit view, the completion codes, and its set and clear rules
(10_state.md R24, R47; 60_exceptions.md R200). -/

namespace Sys2Proof.Machine

/-- The completion codes (60_exceptions.md R200). Codes 7-15 are reserved and never produced. -/
inductive Code where
  /-- 0, OK. -/
  | ok
  /-- 1, ILLEGAL_CMD: a reserved command word (R201). -/
  | illegalCmd
  /-- 2, BAD_PARAM: NOISE with an amplitude outside its domain (R202). -/
  | badParam
  /-- 3, ECC_LENGTH: ECCREC of a length that is no multiple of 14 (R204). -/
  | eccLength
  /-- 4, RANGE: a region of the command is not in range (R203). -/
  | range
  /-- 5, OVERLAP: the destination region overlaps a source region (R205). -/
  | overlap
  /-- 6, ECC_INTEGRITY: ECCREC whose Verify is false (R206). -/
  | eccIntegrity
deriving DecidableEq, Repr

/-- The value of a code in STATUS.ERR (60_exceptions.md R200). -/
def Code.bits : Code → BitVec 4
  | .ok => 0
  | .illegalCmd => 1
  | .badParam => 2
  | .eccLength => 3
  | .range => 4
  | .overlap => 5
  | .eccIntegrity => 6

/-- STATUS as the host reads it: BUSY bit 0, DONE bit 1, ERR bits 7:4, RESULT bit 8, the rest 0
(10_state.md R24, R34). -/
def Status.word (st : Status) : Word :=
  0#23 ++ BitVec.ofBool st.result ++ st.err ++ 0#2 ++ BitVec.ofBool st.done ++ BitVec.ofBool st.busy

/-- STATUS at issue: BUSY set, DONE, ERR and RESULT cleared (10_state.md R47). -/
def Status.issued : Status := { busy := true, done := false, err := 0, result := false }

/-- STATUS at completion with a code: BUSY cleared, DONE set, ERR the code, RESULT as it is (10_state.md R47). -/
def Status.completed (st : Status) (c : Code) : Status :=
  { busy := false, done := true, err := c.bits, result := st.result }

end Sys2Proof.Machine
end

