-- ==== Sys2Proof/Machine/Float.lean ====
section
/-! DEFINITION. Binary32 as 00_scope.md R8 defines it: the fields of a pattern, its exact value, rounding to
nearest with ties to the even fraction, `+f`, `×f` and `minNum`.

Every finite binary32 value is a whole multiple of 2^-149, so `units` holds exact values as integers of that
unit and nothing is lost. A computed NaN has no pattern of its own (00_scope.md R5, a draw): `fadd` and `fmul`
answer `none` for it. -/

namespace Sys2Proof.Machine

/-- u[31], true when the sign is negative. -/
def f32Sign (u : Word) : Bool := u.getLsbD 31

/-- u[30:23], the exponent field. -/
def f32Exp (u : Word) : Nat := u.toNat / 2 ^ 23 % 256

/-- u[22:0], the fraction field. -/
def f32Frac (u : Word) : Nat := u.toNat % 2 ^ 23

/-- Finite: the exponent field is not 0xFF (00_scope.md R8). -/
def isFinite (u : Word) : Bool := f32Exp u != 255

/-- Infinite: the exponent field is 0xFF and the fraction is 0 (00_scope.md R8). -/
def isInf (u : Word) : Bool := f32Exp u == 255 && f32Frac u == 0

/-- NaN: the exponent field is 0xFF and the fraction is not 0 (00_scope.md R8). -/
def isNaN (u : Word) : Bool := f32Exp u == 255 && f32Frac u != 0

/-- |val(u)| in units of 2^-149 for a finite u (00_scope.md R8). Of an infinity it gives 2^277, above every
finite value, which is what `f32Less` needs of it. -/
def f32Mag (u : Word) : Nat :=
  if f32Exp u = 0 then f32Frac u else (2 ^ 23 + f32Frac u) * 2 ^ (f32Exp u - 1)

/-- val(u) in units of 2^-149 for a finite u (00_scope.md R8). Both zeros give 0. -/
def f32Units (u : Word) : Int := if f32Sign u then -(f32Mag u : Int) else (f32Mag u : Int)

/-- The exponent step of the rounding: how many low bits of the whole part of num/den do not fit in 24. -/
def roundShift (num den : Nat) : Nat := Nat.log2 (num / den) + 1 - 24

/-- num/den divided by the step 2^roundShift and rounded to nearest, ties to even. -/
def roundQuotient (num den : Nat) : Nat :=
  let step := den * 2 ^ roundShift num den
  let q := num / step
  let r := num % step
  if step < 2 * r || (step == 2 * r && q % 2 == 1) then q + 1 else q

/-- The magnitude pattern (bits 30:0) of the binary32 value nearest to num/den units of 2^-149, for den > 0:
0x7F800000, the infinity, on overflow (00_scope.md R8). A quotient below 2^23 is its own pattern (subnormal or
zero); one in [2^23, 2^24] with step 2^e encodes as e·2^23 plus itself, which also carries into the next
exponent. -/
def roundMagnitude (num den : Nat) : Nat :=
  min (roundShift num den * 2 ^ 23 + roundQuotient num den) 0x7F800000

/-- The pattern with a sign and a magnitude pattern. -/
def f32OfParts (neg : Bool) (magnitude : Nat) : Word :=
  BitVec.ofNat 32 ((if neg then 2 ^ 31 else 0) + magnitude)

/-- `fl(r)` of r = ±(num/den) units of 2^-149 (00_scope.md R8). A result of zero keeps the sign it is given, which R8
fixes for an addition alone (log entries 9 and 17). -/
def fl (neg : Bool) (num den : Nat) : Word := f32OfParts neg (roundMagnitude num den)

/-- `x +f y` (00_scope.md R8): `none` is a NaN. An exact zero sum is +0, as R8 says of every addition
(DEDUCED, log entry 8). -/
def fadd (x y : Word) : Option Word :=
  if isNaN x || isNaN y then none
  else if isInf x then
    if isInf y && f32Sign x != f32Sign y then none else some x
  else if isInf y then some y
  else
    let t := f32Units x + f32Units y
    some (fl (decide (t < 0)) t.natAbs 1)

/-- `x ×f y` (00_scope.md R8): `none` is a NaN. The exact product of two finite values is a whole multiple of
2^-298. A zero product has the exclusive or of the signs (PRESUMED, the IEEE-754 rule; log entry 9). -/
def fmul (x y : Word) : Option Word :=
  let neg := f32Sign x != f32Sign y
  if isNaN x || isNaN y then none
  else if isInf x || isInf y then
    if (isFinite x && f32Mag x == 0) || (isFinite y && f32Mag y == 0) then none
    else some (f32OfParts neg 0x7F800000)
  else some (fl neg (f32Mag x * f32Mag y) (2 ^ 149))

/-- `+f` on results: a NaN operand, computed or given, makes a NaN. -/
def faddResult (x y : Option Word) : Option Word := x.bind fun a => y.bind fun b => fadd a b

/-- The order of two values that are not NaN, infinities included. -/
def f32Less (x y : Word) : Bool := decide (f32Units x < f32Units y)

/-- `minNum(x, y)` (00_scope.md R8), the first operand a computed result whose NaN is `none`. Of two equal
values it answers the first. -/
def minNum (x : Option Word) (y : Word) : Word :=
  match x with
  | none => y
  | some a =>
    if isNaN a then y
    else if isNaN y then a
    else if f32Less y a then y else a

/-- `fl` of the decimal number ±digits/10^scale, the meaning of a float operand in assembler text
(30_encoding.md R96). A negative decimal whose value is or rounds to zero, such as -0.0, gives 0x80000000: R8's `fl` is
a function of a real and gives that zero no sign (DESIGN CHOICE, log entry 17). -/
def f32OfDecimal (neg : Bool) (digits scale : Nat) : Word := fl neg (digits * 2 ^ 149) (10 ^ scale)

end Sys2Proof.Machine
end

