-- ==== Sys2Proof/Syntax.lean ====
section
/-! DEFINITION. The command word's fields and the nine commands of the opcode map. -/

namespace Sys2Proof

/-- The one format, CMD32, as its three fields (30_encoding.md R90). -/
structure Cmd32 where
  /-- Bits 7:0, the operation code. -/
  op : BitVec 8
  /-- Bit 8, the surface-on-failure flag. -/
  surface : Bool
  /-- Bits 31:9, reserved, must be 0. -/
  rsv : BitVec 23
deriving DecidableEq, Repr

/-- The commands of the opcode map (30_encoding.md R91), one constructor per row of spec/opcode_table.json.
Commands have no immediate fields (R94): the only operand in the word is ECCREC's S bit. -/
inductive Instr where
  /-- ENC, 0x01: bytes to voxel records (40_codec.md R129). -/
  | enc
  /-- DEC, 0x02: voxel records to bytes, no noise (40_codec.md R130). -/
  | dec
  /-- DECN, 0x03: voxel records to bytes with decode noise (40_codec.md R131). -/
  | decn
  /-- NOISE, 0x04: perturb every field of a voxel sequence (41_noise_crosstalk.md R150). -/
  | noise
  /-- XTALK, 0x05: leak intensity between lattice neighbours (41_noise_crosstalk.md R153). -/
  | xtalk
  /-- RDNP, 0x06: decode with polarization discarded (42_probe.md R170). -/
  | rdnp
  /-- VOBF, 0x07: compare the probe's bytes with the original bytes (42_probe.md R171). -/
  | vobf
  /-- ECCADD, 0x08: add Reed-Solomon parity shards (43_ecc.md R184). -/
  | eccadd
  /-- ECCREC, 0x09: verify and strip parity; S = 1 surfaces the data when Verify fails (43_ecc.md R185). -/
  | eccrec (surface : Bool)
deriving DecidableEq, Repr

end Sys2Proof
end

