-- ==== Sys2Proof/WellFormed.lean ====
section
/-! DEFINITION. When the fields of a command word are legal (30_encoding.md R91, R93). -/

namespace Sys2Proof

/-- R91 condition (1): OP is one of 0x01 .. 0x09. -/
def Cmd32.opDefined (c : Cmd32) : Bool := decide (0x01#8 ≤ c.op) && decide (c.op ≤ 0x09#8)

/-- R91 condition (2): the reserved bits 31:9 are 0. -/
def Cmd32.rsvZero (c : Cmd32) : Bool := c.rsv == 0#23

/-- R91 condition (3): bit 8 is 0 or OP is ECCREC's. -/
def Cmd32.surfaceAllowed (c : Cmd32) : Bool := !c.surface || c.op == 0x09#8

/-- A legal command word (30_encoding.md R91); every other one is reserved (R93). -/
def Cmd32.legal (c : Cmd32) : Bool := c.opDefined && c.rsvZero && c.surfaceAllowed

/-- The operation code of a command (30_encoding.md R91). -/
def Instr.op : Instr → BitVec 8
  | .enc => 0x01
  | .dec => 0x02
  | .decn => 0x03
  | .noise => 0x04
  | .xtalk => 0x05
  | .rdnp => 0x06
  | .vobf => 0x07
  | .eccadd => 0x08
  | .eccrec _ => 0x09

/-- The S bit of a command: 0 but for ECCREC (30_encoding.md R91). -/
def Instr.surface : Instr → Bool
  | .enc | .dec | .decn | .noise | .xtalk | .rdnp | .vobf | .eccadd => false
  | .eccrec sb => sb

/-- The fields of a command's word. -/
def Instr.fields (i : Instr) : Cmd32 := { op := i.op, surface := i.surface, rsv := 0 }

/-- A command is well formed when its word's fields are legal. -/
abbrev Instr.WellFormed (i : Instr) : Prop := i.fields.legal = true

end Sys2Proof
end

