-- ==== Sys2Proof/Decode.lean ====
section
/-! DEFINITION. Decoding a command word and encoding a command (30_encoding.md R90, R91). -/

namespace Sys2Proof

/-- Why a command word is reserved (30_encoding.md R93). Every one completes with ILLEGAL_CMD (R92). -/
inductive DecodeError where
  /-- A bit of 31:9 is set. -/
  | reservedBits
  /-- Bit 8 is set and OP is not ECCREC's. -/
  | surfaceNotAllowed
  /-- OP is 0x00 or above 0x09. -/
  | reservedOp
deriving DecidableEq, Repr

/-- The three fields of a command word (30_encoding.md R90). -/
def splitWord (w : Word) : Cmd32 where
  op := w.extractLsb' 0 8
  surface := w.getLsbD 8
  rsv := w.extractLsb' 9 23

/-- The command word with the given fields (30_encoding.md R90). -/
def joinWord (c : Cmd32) : Word := c.rsv ++ BitVec.ofBool c.surface ++ c.op

/-- The row of the opcode map that an operation code selects (30_encoding.md R91). -/
def decodeOp (op : BitVec 8) (surface : Bool) : Option Instr :=
  match op with
  | 0x01#8 => some .enc
  | 0x02#8 => some .dec
  | 0x03#8 => some .decn
  | 0x04#8 => some .noise
  | 0x05#8 => some .xtalk
  | 0x06#8 => some .rdnp
  | 0x07#8 => some .vobf
  | 0x08#8 => some .eccadd
  | 0x09#8 => some (.eccrec surface)
  | _ => none

/-- The command a word selects, or why the word is reserved (30_encoding.md R91, R93). Total on every word. -/
def decode (w : Word) : Except DecodeError Instr :=
  let c := splitWord w
  if !c.rsvZero then .error .reservedBits
  else if !c.surfaceAllowed then .error .surfaceNotAllowed
  else
    match decodeOp c.op c.surface with
    | some i => .ok i
    | none => .error .reservedOp

/-- The word of a command (30_encoding.md R91). -/
def encode (i : Instr) : Word := joinWord i.fields

/-- A row of the opcode map in its match and mask form (30_encoding.md R91). -/
structure OpcodeRow where
  mnemonic : String
  mask : Word
  pattern : Word
deriving DecidableEq, Repr

/-- The opcode map as match/mask pairs (30_encoding.md R91, spec/opcode_table.json). -/
def opcodeRows : List OpcodeRow :=
  [⟨"ENC", 0xFFFFFFFF, 0x00000001⟩, ⟨"DEC", 0xFFFFFFFF, 0x00000002⟩, ⟨"DECN", 0xFFFFFFFF, 0x00000003⟩,
   ⟨"NOISE", 0xFFFFFFFF, 0x00000004⟩, ⟨"XTALK", 0xFFFFFFFF, 0x00000005⟩, ⟨"RDNP", 0xFFFFFFFF, 0x00000006⟩,
   ⟨"VOBF", 0xFFFFFFFF, 0x00000007⟩, ⟨"ECCADD", 0xFFFFFFFF, 0x00000008⟩, ⟨"ECCREC", 0xFFFFFEFF, 0x00000009⟩]

/-- Whether a word matches a row. -/
def OpcodeRow.selects (r : OpcodeRow) (w : Word) : Bool := w &&& r.mask == r.pattern

/-- The row of the opcode map a command stands for, by its mnemonic there. -/
def Instr.mnemonic : Instr → String
  | .enc => "ENC"
  | .dec => "DEC"
  | .decn => "DECN"
  | .noise => "NOISE"
  | .xtalk => "XTALK"
  | .rdnp => "RDNP"
  | .vobf => "VOBF"
  | .eccadd => "ECCADD"
  | .eccrec _ => "ECCREC"

/-- The command of a word given as a number whose low `nbits` bits are its bits. A command word is one 32-bit
word (30_encoding.md R90), so a number with a bit set at 32 or above is no command word. -/
def decodeTableWord (nbits w : Nat) : Option Instr :=
  let bits := w % 2 ^ nbits
  if bits < 2 ^ 32 then
    match decode (BitVec.ofNat 32 bits) with
    | .ok i => some i
    | .error _ => none
  else none

end Sys2Proof
end

