-- ==== Sys2Proof/Machine/Memory.lean ====
section
/-! DEFINITION. The buffer memory BUF and its byte order (20_memory.md R60-R65, R73; 00_scope.md R7). -/

namespace Sys2Proof.Machine

/-- The canonical form: addresses strictly rising. A listed address holds a written byte; an unlisted one holds
no written byte, so no entry says the same as an unlisted address (log entry 2). -/
abbrev Memory.wf (m : Memory) : Prop := m.Pairwise (fun p q => p.1 < q.1)

/-- The byte last written at an address, if one was. -/
def Memory.find? : Memory → Nat → Option Byte
  | [], _ => none
  | (k, b) :: m, a => if k = a then some b else Memory.find? m a

/-- BUF[a]: the byte last written there or, where none was, the power-on byte, a free value (20_memory.md R73). -/
def Memory.byteAt (m : Memory) (a : Nat) : Byte := (Memory.find? m a).getD (Config.powerOnByte a)

/-- Write one byte, keeping the canonical form. -/
def Memory.put : Memory → Nat → Byte → Memory
  | [], a, b => [(a, b)]
  | (k, c) :: m, a, b =>
    if a < k then (a, b) :: (k, c) :: m
    else if a = k then (a, b) :: m
    else (k, c) :: Memory.put m a b

/-- `BufRead(a, n)`: the bytes BUF[a], ..., BUF[a+n-1] (00_scope.md R7). -/
def Memory.read (m : Memory) (a n : Nat) : List Byte := (List.range n).map fun i => Memory.byteAt m (a + i)

/-- `BufWrite(a, n, s)` with n = len(s): store a byte sequence from address a on (00_scope.md R7). -/
def Memory.write (m : Memory) (a : Nat) : List Byte → Memory
  | [] => m
  | b :: bs => Memory.write (Memory.put m a b) (a + 1) bs

/-- The `n` low bytes of `v`, least significant first (20_memory.md R63). -/
def bytesLE (n v : Nat) : List Byte := (List.range n).map fun i => BitVec.ofNat 8 (v / 2 ^ (8 * i))

/-- The little-endian value of a byte sequence, the sum of byte i times 2^(8i) (00_scope.md R7). -/
def valueLE : List Byte → Nat
  | [] => 0
  | b :: bs => b.toNat + 256 * valueLE bs

/-- `MemRead(a, n)`: the little-endian unsigned value of n bytes (00_scope.md R7). -/
def Memory.readLE (m : Memory) (a n : Nat) : Nat := valueLE (Memory.read m a n)

/-- `MemWrite(a, n, v)`: store the n low bytes of v little-endian (00_scope.md R7). -/
def Memory.writeLE (m : Memory) (a n v : Nat) : Memory := Memory.write m a (bytesLE n v)

/-- A voxel value: four binary32 patterns, any of them legal (10_state.md R44). -/
structure Voxel where
  intensity : Word
  polarization : Word
  phase : Word
  wavelength : Word
deriving DecidableEq, Repr

/-- `VoxRead(a)`: the 16-byte record at byte address a, as bit patterns (20_memory.md R64). -/
def Memory.voxRead (m : Memory) (a : Nat) : Voxel where
  intensity := BitVec.ofNat 32 (Memory.readLE m a 4)
  polarization := BitVec.ofNat 32 (Memory.readLE m (a + 4) 4)
  phase := BitVec.ofNat 32 (Memory.readLE m (a + 8) 4)
  wavelength := BitVec.ofNat 32 (Memory.readLE m (a + 12) 4)

/-- `VoxWrite(a, v)`: the four fields, little-endian, with no padding (20_memory.md R65). -/
def Memory.voxWrite (m : Memory) (a : Nat) (v : Voxel) : Memory :=
  Memory.writeLE
    (Memory.writeLE
      (Memory.writeLE (Memory.writeLE m a 4 v.intensity.toNat) (a + 4) 4 v.polarization.toNat)
      (a + 8) 4 v.phase.toNat)
    (a + 12) 4 v.wavelength.toNat

/-- The records of n voxels at address a: voxel i at a + 16·i (20_memory.md R64). -/
def Memory.voxels (m : Memory) (a n : Nat) : List Voxel :=
  (List.range n).map fun i => Memory.voxRead m (a + 16 * i)

/-- Write voxel i of a sequence at a + 16·i (20_memory.md R64, R65). -/
def Memory.voxWriteAll (m : Memory) (a : Nat) : List Voxel → Memory
  | [] => m
  | v :: vs => Memory.voxWriteAll (Memory.voxWrite m a v) (a + 16) vs

end Sys2Proof.Machine
end

