-- ==== Sys2Proof/Machine/Operands.lean ====
section
/-! DEFINITION. The operands of the commands: the registers they read (30_encoding.md R94, R95), the regions
they name (20_memory.md R67), and when a region is in range (R68) or overlaps another (R69). -/

namespace Sys2Proof.Machine

/-- A buffer region: its start and its extent in bytes, in unbounded arithmetic (20_memory.md R67). -/
structure Region where
  start : Nat
  extent : Nat
deriving DecidableEq, Repr

/-- reg[SRC_ADDR] as an operand: unsigned, no scaling (30_encoding.md R95). -/
def State.srcAt (s : State) : Nat := s.srcAddr.toNat

/-- reg[SRC_LEN] as an operand, a count of bytes or of voxel records (10_state.md R26). -/
def State.srcCount (s : State) : Nat := s.srcLen.toNat

/-- reg[SRC2_ADDR] as an operand (10_state.md R27). -/
def State.src2At (s : State) : Nat := s.src2Addr.toNat

/-- reg[SRC2_LEN] as an operand, a count of bytes (10_state.md R28). -/
def State.src2Count (s : State) : Nat := s.src2Len.toNat

/-- reg[DST_ADDR] as an operand (10_state.md R29). -/
def State.dstAt (s : State) : Nat := s.dstAddr.toNat

/-- reg[GEOM_W] as an operand (10_state.md R32). -/
def State.width (s : State) : Nat := s.geomW.toNat

/-- reg[GEOM_H] as an operand (10_state.md R33). -/
def State.height (s : State) : Nat := s.geomH.toNat

/-- The shard size S of ECCADD, ceil(n / 10) (43_ecc.md R184). -/
def addShardSize (n : Nat) : Nat := (n + 9) / 10

/-- The shard size S of ECCREC, n div 14 (43_ecc.md R185). -/
def recShardSize (n : Nat) : Nat := n / 14

/-- The source regions of a command (20_memory.md R67). -/
def sources (i : Instr) (s : State) : List Region :=
  match i with
  | .enc => [⟨s.srcAt, s.srcCount⟩]
  | .dec => [⟨s.srcAt, 16 * s.srcCount⟩]
  | .decn => [⟨s.srcAt, 16 * s.srcCount⟩]
  | .noise => [⟨s.srcAt, 16 * s.srcCount⟩]
  | .xtalk => [⟨s.srcAt, 16 * s.srcCount⟩]
  | .rdnp => [⟨s.srcAt, 16 * s.srcCount⟩]
  | .vobf => [⟨s.srcAt, 16 * s.srcCount⟩, ⟨s.src2At, s.src2Count⟩]
  | .eccadd => [⟨s.srcAt, s.srcCount⟩]
  | .eccrec _ => [⟨s.srcAt, s.srcCount⟩]

/-- The destination region of a command, where it has one (20_memory.md R67). ECCREC has one only when its
length is a multiple of 14; VOBF has none. -/
def destination (i : Instr) (s : State) : Option Region :=
  match i with
  | .enc => some ⟨s.dstAt, 16 * s.srcCount⟩
  | .dec => some ⟨s.dstAt, s.srcCount⟩
  | .decn => some ⟨s.dstAt, s.srcCount⟩
  | .noise => some ⟨s.dstAt, 16 * s.srcCount⟩
  | .xtalk => some ⟨s.dstAt, 16 * s.srcCount⟩
  | .rdnp => some ⟨s.dstAt, s.srcCount⟩
  | .vobf => none
  | .eccadd => some ⟨s.dstAt, 14 * addShardSize s.srcCount⟩
  | .eccrec _ => if s.srcCount % 14 = 0 then some ⟨s.dstAt, 10 * recShardSize s.srcCount⟩ else none

/-- A region is in range iff its extent is 0 or it ends within BUF, with no wrap-around (20_memory.md R68). -/
def inRange (bufBytes : Nat) (r : Region) : Bool :=
  decide (r.extent = 0) || decide (r.start + r.extent ≤ bufBytes)

/-- Two regions overlap iff both are non-empty and they share a byte (20_memory.md R69). -/
def overlaps (r q : Region) : Bool :=
  decide (0 < r.extent) && decide (0 < q.extent) && decide (r.start < q.start + q.extent) &&
    decide (q.start < r.start + r.extent)

/-- Whether every region of the command, sources and destination together, is in range (60_exceptions.md R203, R207). -/
def allInRange (i : Instr) (s : State) : Bool :=
  (sources i s).all (inRange s.cfg.bufBytes) && (destination i s).all (inRange s.cfg.bufBytes)

/-- Whether the command's destination overlaps one of its sources (60_exceptions.md R205). -/
def destinationOverlaps (i : Instr) (s : State) : Bool :=
  (destination i s).any fun d => (sources i s).any (overlaps d)

/-- The command pending in CMD, or why its word is reserved (10_state.md R46). -/
def State.pending (s : State) : Except DecodeError Instr := decode s.cmd

end Sys2Proof.Machine
end

