-- ==== Sys2Proof/Machine/Ops.lean ====
section
/-! DEFINITION. The operations every command and every host step is built from: issue and completion (the
block's counterpart of taking a trap, 60_exceptions.md R209, and of returning from one, R210), the common
region checks, the NoiseSource's answers, the register window, and the reset input. -/

namespace Sys2Proof.Machine

/-- The issue actions of a CMD write of v, one host step (10_state.md R23, R47). -/
def State.issue (s : State) (v : Word) : State :=
  { s with cmd := v, status := Status.issued, dstLen := 0, unsynced := true }

/-- `complete(code)`: the completion actions (10_state.md R47, 60_exceptions.md R209). DST_LEN and RESULT stay as
the command's rule left them. -/
def State.complete (s : State) (c : Code) : State := { s with status := s.status.completed c }

/-- `reg[DST_LEN] <- n` (10_state.md R30). -/
def State.setDstLen (s : State) (n : Nat) : State := { s with dstLen := BitVec.ofNat 32 n }

/-- `reg[STATUS].RESULT <- b` (42_probe.md R171). -/
def State.setResult (s : State) (b : Bool) : State := { s with status := { s.status with result := b } }

/-- The buffer after a command's output. -/
def State.setMem (s : State) (m : Memory) : State := { s with mem := m }

/-- The NoiseSource has answered n more requests (10_state.md R45). -/
def State.takeDraws (s : State) (n : Nat) : State := { s with noiseDraws := s.noiseDraws + n }

/-- The checks every command makes on its regions, in the order of 60_exceptions.md R207: RANGE over all of
them (R203), then OVERLAP (R205). -/
def regionError (i : Instr) (s : State) : Option Code :=
  if !allInRange i s then some .range
  else if destinationOverlaps i s then some .overlap
  else none

/-- Complete with the command's region error and no other effect (60_exceptions.md R208), or go on to `ok`. -/
def State.guardRegions (s : State) (i : Instr) (ok : State) : State :=
  match regionError i s with
  | some c => s.complete c
  | none => ok

/-- Write the command's output, set DST_LEN to the count of its elements and complete with a code
(10_state.md R30). -/
def State.finish (s : State) (m : Memory) (count : Nat) (c : Code) : State :=
  ((s.setMem m).setDstLen count).complete c

/-- A sample the NoiseSource may give for the bound B: finite and with -val(B) ≤ val(n) ≤ val(B)
(10_state.md R45). -/
def allowedSample (b n : Word) : Bool :=
  isFinite n && decide (-f32Units b ≤ f32Units n) && decide (f32Units n ≤ f32Units b)

/-- `Draw(B)` as the NoiseSource's k-th answer (00_scope.md R7, 10_state.md R45): the free value
`Config.noiseSample` wherever R45 allows it, so every allowed answer is possible and no other (log entry 4). -/
def drawAt (k : Nat) (b : Word) : Word :=
  if allowedSample b (Config.noiseSample k b) then Config.noiseSample k b else 0

/-- A NaN pattern, any of them, for the NaN computed with the k-th noise sample (41_noise_crosstalk.md R152;
log entry 5). -/
def nanAt (k : Nat) : Word := if isNaN (Config.nanBits k) then Config.nanBits k else 0x7FC00000

/-- `u +f Draw(B)` with the k-th answer (40_codec.md R131, 41_noise_crosstalk.md R150). -/
def noisyField (b : Word) (k : Nat) (u : Word) : Word := (fadd u (drawAt k b)).getD (nanAt k)

/-- One bound per channel. -/
structure Bounds where
  intensity : Word
  polarization : Word
  phase : Word
  wavelength : Word
deriving DecidableEq, Repr

/-- A voxel with every field perturbed, its four draws in the order I, P, H, W from the k-th on
(40_codec.md R131, 41_noise_crosstalk.md R150). -/
def noisyVoxel (bs : Bounds) (k : Nat) (v : Voxel) : Voxel where
  intensity := noisyField bs.intensity k v.intensity
  polarization := noisyField bs.polarization (k + 1) v.polarization
  phase := noisyField bs.phase (k + 2) v.phase
  wavelength := noisyField bs.wavelength (k + 3) v.wavelength

/-- A voxel sequence perturbed in ascending order, the first draw being the k-th (40_codec.md R131,
41_noise_crosstalk.md R150). -/
def noisyVoxels (bs : Bounds) (k : Nat) : List Voxel → List Voxel
  | [] => []
  | v :: vs => noisyVoxel bs k v :: noisyVoxels bs (k + 4) vs

/-- A host read of the register at a window offset (10_state.md R22, R34). Offsets with no register read as 0. -/
def State.regRead (s : State) (off : Nat) : Word :=
  if off = 0x00 then s.cmd
  else if off = 0x04 then s.status.word
  else if off = 0x08 then s.srcAddr
  else if off = 0x0C then s.srcLen
  else if off = 0x10 then s.src2Addr
  else if off = 0x14 then s.src2Len
  else if off = 0x18 then s.dstAddr
  else if off = 0x1C then s.dstLen
  else if off = 0x20 then s.param
  else if off = 0x24 then s.geomW
  else if off = 0x28 then s.geomH
  else 0

/-- A host write to the register at a window offset of an idle block (10_state.md R22): STATUS, DST_LEN and the
reserved offsets ignore it (R24, R30, R34), CMD issues (R23). -/
def State.regWriteIdle (s : State) (off : Nat) (v : Word) : State :=
  if off = 0x00 then s.issue v
  else if off = 0x08 then { s with srcAddr := v }
  else if off = 0x0C then { s with srcLen := v }
  else if off = 0x10 then { s with src2Addr := v }
  else if off = 0x14 then { s with src2Len := v }
  else if off = 0x18 then { s with dstAddr := v }
  else if off = 0x20 then { s with param := v }
  else if off = 0x24 then { s with geomW := v }
  else if off = 0x28 then { s with geomH := v }
  else s

/-- A host write to the register window: ignored while BUSY = 1, CMD included (10_state.md R35). -/
def State.regWrite (s : State) (off : Nat) (v : Word) : State :=
  if s.status.busy then s else s.regWriteIdle off v

/-- How many bytes of a region lie in the buffer. -/
def Region.bytesInBuf (r : Region) (bufBytes : Nat) : Nat := min (r.start + r.extent) bufBytes - r.start

/-- The destination region of the command a reset abandons: that of the pending command, where one is pending
and its word is legal (70_reset_and_hazards.md R230, 20_memory.md R67). -/
def State.abandoned (s : State) : Option Region :=
  if s.status.busy then
    match s.pending with
    | .ok i => destination i s
    | .error _ => none
  else none

/-- The buffer and the counter of free bytes after the abandoned destination's bytes have become unspecified
(70_reset_and_hazards.md R230; log entry 3). -/
def State.forgetAbandoned (s : State) : State :=
  match s.abandoned with
  | none => s
  | some r =>
    let n := r.bytesInBuf s.cfg.bufBytes
    { s with
      mem := Memory.write s.mem r.start ((List.range n).map fun i => Config.resetByte (s.resetDraws + i))
      resetDraws := s.resetDraws + n }

/-- Asserting the reset input (70_reset_and_hazards.md R230): every register takes its reset value, a pending
command is abandoned and its destination bytes become unspecified, every other byte keeps its value. The
NoiseSource, the host and the parameters are not the block's and stay (DEDUCED, log entry 10). -/
def State.resetInput (s : State) : State :=
  { s.forgetAbandoned with
    cmd := 0
    status := Status.idle
    srcAddr := 0
    srcLen := 0
    src2Addr := 0
    src2Len := 0
    dstAddr := 0
    dstLen := 0
    param := 0
    geomW := 0
    geomH := 0
    unsynced := false }

end Sys2Proof.Machine
end

