-- ==== Sys2Proof/Machine/Rom.lean ====
section
/-! DEFINITION. The constant ROM: level LUTs, periods, noise bounds, the saturation ceiling and the shard counts
(10_state.md R37-R43). Reset does not affect it (70_reset_and_hazards.md R230). -/

namespace Sys2Proof.Machine

/-- The four channels of a voxel (00_scope.md R10). -/
inductive Channel where
  | intensity
  | polarization
  | phase
  | wavelength
deriving DecidableEq, Repr

/-- A LUT row of four entries, by level index. -/
def romRow (e0 e1 e2 e3 : Word) (k : BitVec 2) : Word :=
  if k = 0 then e0 else if k = 1 then e1 else if k = 2 then e2 else e3

/-- `LUT_c[k]`, the binary32 nominal level of index k (10_state.md R37, R38, R39, R40). -/
def lut : Channel → BitVec 2 → Word
  | .intensity => romRow 0x3E800000 0x3F000000 0x3F400000 0x3F800000
  | .polarization => romRow 0x00000000 0x3F490FDB 0x3FC90FDB 0x4016CBE4
  | .phase => romRow 0x00000000 0x3FC90FDB 0x40490FDB 0x4096CBE4
  | .wavelength => romRow 0x44050000 0x44228000 0x43E10000 0x44480000

/-- PERIOD_P, the period of the polarization metric (10_state.md R41). -/
def periodP : Word := 0x40490FDB

/-- PERIOD_H, the period of the phase metric (10_state.md R41). -/
def periodH : Word := 0x40C90FDB

/-- NB_I, the decode-noise bound of intensity (10_state.md R42). -/
def nbI : Word := 0x3D4CCCCD

/-- NB_P, the decode-noise bound of polarization (10_state.md R42). -/
def nbP : Word := 0x3DA3D70A

/-- NB_H, the decode-noise bound of phase (10_state.md R42). -/
def nbH : Word := 0x3DCCCCCD

/-- NB_W, the decode-noise bound of wavelength (10_state.md R42). -/
def nbW : Word := 0x41200000

/-- SAT, the saturation ceiling 1.5 (10_state.md R42). -/
def sat : Word := 0x3FC00000

/-- The factor 100 of the wavelength noise bound (41_noise_crosstalk.md R150). -/
def f32Hundred : Word := 0x42C80000

/-- DATA_SHARDS (10_state.md R43). -/
def dataShards : Nat := 10

/-- PARITY_SHARDS (10_state.md R43). -/
def parityShards : Nat := 4

/-- TOTAL_SHARDS (10_state.md R43). -/
def totalShards : Nat := 14

end Sys2Proof.Machine
end

