-- ==== Sys2Proof/Machine/Channel.lean ====
section
/-! DEFINITION. The channel models: NOISE and XTALK (41_noise_crosstalk.md). -/

namespace Sys2Proof.Machine

/-- val(A) > 0 for a finite amplitude. -/
def positiveAmplitude (a : Word) : Bool := decide (0 < f32Units a)

/-- BW, fl(100·A), the wavelength bound of a finite positive amplitude (41_noise_crosstalk.md R150). -/
def wavelengthBound (a : Word) : Option Word := fmul f32Hundred a

/-- BAD_PARAM (60_exceptions.md R202): the amplitude is NaN or infinite, or positive with fl(100·A) infinite. -/
def badAmplitude (a : Word) : Bool :=
  !isFinite a || (positiveAmplitude a && (wavelengthBound a).any isInf)

/-- The bounds of one voxel's draws for a positive amplitude: A, A, A, BW (41_noise_crosstalk.md R150). -/
def amplitudeBounds (a bw : Word) : Bounds := ⟨a, a, a, bw⟩

/-- NOISE past its checks: a bit-exact copy with no draw for val(A) ≤ 0 (41_noise_crosstalk.md R151), else every
voxel perturbed with four draws (R150). -/
def noiseOk (s : State) : State :=
  let vs := Memory.voxels s.mem s.srcAt s.srcCount
  match positiveAmplitude s.param, wavelengthBound s.param with
  | true, some bw =>
    (s.takeDraws (4 * s.srcCount)).finish
      (Memory.voxWriteAll s.mem s.dstAt (noisyVoxels (amplitudeBounds s.param bw) s.noiseDraws vs)) s.srcCount .ok
  | _, _ => s.finish (Memory.voxWriteAll s.mem s.dstAt vs) s.srcCount .ok

/-- NOISE (41_noise_crosstalk.md R150): BAD_PARAM, then RANGE, then OVERLAP. -/
def execNoise (s : State) : Out :=
  .next (if badAmplitude s.param then s.complete .badParam else s.guardRegions .noise (noiseOk s))

/-- A cell's coordinates in the lattice (41_noise_crosstalk.md R154). -/
structure Cell where
  x : Int
  y : Int
  z : Int
deriving DecidableEq, Repr

/-- Cell(i): x varies fastest (41_noise_crosstalk.md R154). -/
def cellOf (wd ht i : Nat) : Cell := ⟨(i % wd : Nat), (i / wd % ht : Nat), (i / (wd * ht) : Nat)⟩

/-- The flat index of a cell, X + Wd·Y + Wd·Ht·Z (41_noise_crosstalk.md R153, R154). -/
def cellIndex (wd ht : Nat) (c : Cell) : Int := c.x + wd * c.y + wd * ht * c.z

/-- The depth of the lattice, ceil(n / (Wd·Ht)), exact (41_noise_crosstalk.md R154, R156). -/
def latticeDepth (wd ht n : Nat) : Nat := (n + wd * ht - 1) / (wd * ht)

/-- Whether a cell exists (41_noise_crosstalk.md R154). -/
def cellExists (wd ht n : Nat) (c : Cell) : Bool :=
  decide (0 ≤ c.x) && decide (c.x < wd) && decide (0 ≤ c.y) && decide (c.y < ht) &&
    decide (0 ≤ c.z) && decide (c.z < latticeDepth wd ht n) && decide (cellIndex wd ht c < n)

/-- The six axis-aligned cells around a cell, in the order of 41_noise_crosstalk.md R155. -/
def sixAround (c : Cell) : List Cell :=
  [⟨c.x - 1, c.y, c.z⟩, ⟨c.x + 1, c.y, c.z⟩, ⟨c.x, c.y - 1, c.z⟩,
   ⟨c.x, c.y + 1, c.z⟩, ⟨c.x, c.y, c.z - 1⟩, ⟨c.x, c.y, c.z + 1⟩]

/-- Neighbours: the existing ones of the six, as flat indices, in order (41_noise_crosstalk.md R155). -/
def neighbours (wd ht n i : Nat) : List Nat :=
  ((sixAround (cellOf wd ht i)).filter (cellExists wd ht n)).map fun c => (cellIndex wd ht c).toNat

/-- The intensity of voxel j of a sequence. -/
def intensityAt (vs : List Voxel) (j : Nat) : Word := ((vs[j]?).map Voxel.intensity).getD 0

/-- The leak into cell i: from +0.0, each product rounded, added in order, no fused multiply-add
(41_noise_crosstalk.md R153, R155). `none` is a NaN. -/
def leakInto (k : Word) (wd ht : Nat) (vs : List Voxel) (i : Nat) : Option Word :=
  (neighbours wd ht vs.length i).foldl
    (fun leak j => faddResult leak (fmul k (intensityAt vs j))) (some 0)

/-- A voxel with the leak added once to its own intensity and clamped to 1.5; a NaN sum gives 1.5
(41_noise_crosstalk.md R153, R156). -/
def leakedVoxel (k : Word) (wd ht : Nat) (vs : List Voxel) (i : Nat) (v : Voxel) : Voxel :=
  { v with intensity := minNum (faddResult (some v.intensity) (leakInto k wd ht vs i)) sat }

/-- XTALK on a sequence: every cell from the original values (41_noise_crosstalk.md R153, R156), and a bit-exact
copy for a degenerate geometry (R157). -/
def crosstalk (k : Word) (wd ht : Nat) (vs : List Voxel) : List Voxel :=
  if wd = 0 ∨ ht = 0 then vs
  else vs.mapIdx fun i v => leakedVoxel k wd ht vs i v

/-- XTALK (41_noise_crosstalk.md R153): RANGE, then OVERLAP; every factor and geometry is accepted. -/
def execXtalk (s : State) : Out :=
  .next (s.guardRegions .xtalk
    (s.finish
      (Memory.voxWriteAll s.mem s.dstAt
        (crosstalk s.param s.width s.height (Memory.voxels s.mem s.srcAt s.srcCount)))
      s.srcCount .ok))

end Sys2Proof.Machine
end

