-- ==== Sys2Proof/Machine/Codec.lean ====
section
/-! DEFINITION. The quantization codec: EncodeByte, nearest-level classification, DecodeVoxel, and the commands
ENC, DEC and DECN (40_codec.md). -/

namespace Sys2Proof.Machine

/-- EncodeByte (40_codec.md R120): bits 1:0 intensity, 3:2 polarization, 5:4 phase, 7:6 wavelength. -/
def encodeByte (b : Byte) : Voxel where
  intensity := lut .intensity (b.extractLsb' 0 2)
  polarization := lut .polarization (b.extractLsb' 2 2)
  phase := lut .phase (b.extractLsb' 4 2)
  wavelength := lut .wavelength (b.extractLsb' 6 2)

/-- dist_lin (40_codec.md R121), exact, in units of 2^-149. -/
def distLin (x l : Int) : Int := |x - l|

/-- dist_circ with period t > 0 (40_codec.md R121), exact, in units of 2^-149: `Int` remainder by a positive
number is the non-negative one. -/
def distCirc (x l t : Int) : Int :=
  let d := (x - l) % t
  min d (t - d)

/-- The metric of a channel between two values (40_codec.md R121). -/
def fieldDist (c : Channel) (x l : Int) : Int :=
  match c with
  | .intensity => distLin x l
  | .polarization => distCirc x l (f32Units periodP)
  | .phase => distCirc x l (f32Units periodH)
  | .wavelength => distLin x l

/-- The distance of a value to level k of a channel. -/
def levelDist (c : Channel) (x : Int) (k : BitVec 2) : Int := fieldDist c x (f32Units (lut c k))

/-- One comparison of Classify: level k replaces the best so far only when strictly nearer (40_codec.md R122). -/
def classifyStep (c : Channel) (x : Int) (best k : BitVec 2) : BitVec 2 :=
  if levelDist c x k < levelDist c x best then k else best

/-- Classify (40_codec.md R122): the nearest level, ties to the lowest index, 0 for a NaN or an infinity. -/
def classify (c : Channel) (u : Word) : BitVec 2 :=
  if !isFinite u then 0
  else [1#2, 2#2, 3#2].foldl (classifyStep c (f32Units u)) 0#2

/-- DecodeVoxel (40_codec.md R127). -/
def decodeVoxel (v : Voxel) : Byte :=
  classify .wavelength v.wavelength ++ classify .phase v.phase ++ classify .polarization v.polarization ++
    classify .intensity v.intensity

/-- ENC (40_codec.md R129). -/
def execEnc (s : State) : Out :=
  .next (s.guardRegions .enc
    (s.finish
      (Memory.voxWriteAll s.mem s.dstAt ((Memory.read s.mem s.srcAt s.srcCount).map encodeByte))
      s.srcCount .ok))

/-- DEC (40_codec.md R130). -/
def execDec (s : State) : Out :=
  .next (s.guardRegions .dec
    (s.finish
      (Memory.write s.mem s.dstAt ((Memory.voxels s.mem s.srcAt s.srcCount).map decodeVoxel))
      s.srcCount .ok))

/-- The decode-noise bounds NB_I, NB_P, NB_H, NB_W (10_state.md R42). -/
def decodeBounds : Bounds := ⟨nbI, nbP, nbH, nbW⟩

/-- DECN (40_codec.md R131): 4·n draws, and the perturbed voxels stay internal. -/
def execDecn (s : State) : Out :=
  .next (s.guardRegions .decn
    ((s.takeDraws (4 * s.srcCount)).finish
      (Memory.write s.mem s.dstAt
        ((noisyVoxels decodeBounds s.noiseDraws (Memory.voxels s.mem s.srcAt s.srcCount)).map decodeVoxel))
      s.srcCount .ok))

end Sys2Proof.Machine
end

