-- ==== Sys2Proof/Machine/Ecc.lean ====
section
/-! DEFINITION. The erasure-coding layer: GF(2^8), the parity function, Verify, ECCADD and ECCREC (43_ecc.md). -/

namespace Sys2Proof.Machine

/-- The carry-less product of two bytes (43_ecc.md R180). -/
def clmul (a b : Byte) : BitVec 16 :=
  (List.range 8).foldl (fun acc i => if b.getLsbD i then acc ^^^ (a.zeroExtend 16 <<< i) else acc) 0

/-- One step of the reduction: clear the coefficient of x^(8+i) with GF_POLY · x^i. -/
def gfReduceStep (poly : BitVec 9) (p : BitVec 16) (i : Nat) : BitVec 16 :=
  if p.getLsbD (8 + i) then p ^^^ (poly.zeroExtend 16 <<< i) else p

/-- The remainder modulo GF_POLY of a product of two bytes (43_ecc.md R180). -/
def gfReduce (poly : BitVec 9) (p : BitVec 16) : Byte :=
  ([7, 6, 5, 4, 3, 2, 1, 0].foldl (gfReduceStep poly) p).truncate 8

/-- a ⊗ b (43_ecc.md R180). -/
def gfMul (poly : BitVec 9) (a b : Byte) : Byte := gfReduce poly (clmul a b)

/-- Powers in GF(2^8). -/
def gfPow (poly : BitVec 9) (a : Byte) : Nat → Byte
  | 0 => 1
  | n + 1 => gfMul poly (gfPow poly a n) a

/-- x^(2^k) in GF(2)[x]/(GF_POLY). -/
def gfSquares (poly : BitVec 9) : Nat → Byte
  | 0 => 2
  | k + 1 => gfMul poly (gfSquares poly k) (gfSquares poly k)

/-- The product of x^(2^k) over a list of exponents k. -/
def gfSquaresProduct (poly : BitVec 9) (ks : List Nat) : Byte :=
  ks.foldl (fun acc k => gfMul poly acc (gfSquares poly k)) 1

/-- GF_POLY has degree 8 and is primitive: x has order 255 (43_ecc.md R180). x^255 is 1, and x^85, x^51 and x^15
are not, the maximal proper divisors of 255 being 85 = 64+16+4+1, 51 = 32+16+2+1 and 15 = 8+4+2+1. -/
def primitivePoly (poly : BitVec 9) : Bool :=
  poly.getLsbD 8 && gfSquaresProduct poly [0, 1, 2, 3, 4, 5, 6, 7] == 1 &&
    gfSquaresProduct poly [0, 2, 4, 6] != 1 && gfSquaresProduct poly [0, 1, 4, 5] != 1 &&
    gfSquaresProduct poly [0, 1, 2, 3] != 1

/-- RS_PARITY[j][i], 0 outside the matrix (43_ecc.md R181). -/
def rsEntry (p : Params) (j i : Nat) : Byte := ((p.rsParity[j]?).bind fun row => row[i]?).getD 0

/-- `n` consecutive shards of S bytes (43_ecc.md R184, R185). -/
def shards (size n : Nat) (bytes : List Byte) : List (List Byte) :=
  (List.range n).map fun i => (bytes.drop (i * size)).take size

/-- par_j[t], the XOR over i of RS_PARITY[j][i] ⊗ data_i[t] (43_ecc.md R182). -/
def parityByte (p : Params) (data : List (List Byte)) (j t : Nat) : Byte :=
  (List.range dataShards).foldl
    (fun acc i => acc ^^^ gfMul p.gfPoly (rsEntry p j i) ((data.getD i []).getD t 0)) 0

/-- Parity(data, S): the four parity shards (43_ecc.md R182). -/
def parity (p : Params) (data : List (List Byte)) (size : Nat) : List (List Byte) :=
  (List.range parityShards).map fun j => (List.range size).map fun t => parityByte p data j t

/-- Verify(data, par, S) (43_ecc.md R183). -/
def verify (p : Params) (data par : List (List Byte)) (size : Nat) : Bool := parity p data size == par

/-- The padded input of ECCADD: trailing zero bytes up to 10·S (43_ecc.md R184). -/
def padded (bytes : List Byte) : List Byte :=
  bytes ++ List.replicate (dataShards * addShardSize bytes.length - bytes.length) 0

/-- The protected bytes: the padded data and the four parity shards (43_ecc.md R184). -/
def protect (p : Params) (bytes : List Byte) : List Byte :=
  let size := addShardSize bytes.length
  let pad := padded bytes
  pad ++ (parity p (shards size dataShards pad) size).flatten

/-- Whether a protected sequence of 14·S bytes passes the integrity check (43_ecc.md R183, R185). -/
def intact (p : Params) (size : Nat) (bytes : List Byte) : Bool :=
  verify p (shards size dataShards bytes) (shards size parityShards (bytes.drop (dataShards * size))) size

/-- ECCADD (43_ecc.md R184). -/
def execEccadd (s : State) : Out :=
  .next (s.guardRegions .eccadd
    (s.finish
      (Memory.write s.mem s.dstAt (protect s.cfg (Memory.read s.mem s.srcAt s.srcCount)))
      (totalShards * addShardSize s.srcCount) .ok))

/-- ECCREC past its length and region checks (43_ecc.md R185, 60_exceptions.md R206): the unstripped data is
written when the check passes, or when it fails and S = 1; it is never corrected. -/
def eccrecOk (surface : Bool) (s : State) : State :=
  let size := recShardSize s.srcCount
  let bytes := Memory.read s.mem s.srcAt s.srcCount
  let out := Memory.write s.mem s.dstAt (bytes.take (dataShards * size))
  if intact s.cfg size bytes then s.finish out (dataShards * size) .ok
  else if surface then s.finish out (dataShards * size) .eccIntegrity
  else s.complete .eccIntegrity

/-- ECCREC (43_ecc.md R185): ECC_LENGTH, then RANGE, then OVERLAP, then ECC_INTEGRITY. -/
def execEccrec (surface : Bool) (s : State) : Out :=
  .next (if s.srcCount % totalShards ≠ 0 then s.complete .eccLength
    else s.guardRegions (.eccrec surface) (eccrecOk surface s))

end Sys2Proof.Machine
end

