-- ==== Sys2Proof/Machine/Probe.lean ====
section
/-! DEFINITION. The polarization-discard probe: RDNP and VOBF (42_probe.md). -/

namespace Sys2Proof.Machine

/-- The byte an unauthorized reader decodes: polarization forced to level 0, no noise (42_probe.md R170). -/
def probeVoxel (v : Voxel) : Byte := decodeVoxel { v with polarization := lut .polarization 0 }

/-- RDNP (42_probe.md R170). -/
def execRdnp (s : State) : Out :=
  .next (s.guardRegions .rdnp
    (s.finish
      (Memory.write s.mem s.dstAt ((Memory.voxels s.mem s.srcAt s.srcCount).map probeVoxel))
      s.srcCount .ok))

/-- The boolean of VOBF: the lengths differ or some byte does (42_probe.md R171). -/
def probeDiffers (s : State) : Bool :=
  s.srcCount != s.src2Count ||
    (Memory.voxels s.mem s.srcAt s.srcCount).map probeVoxel != Memory.read s.mem s.src2At s.src2Count

/-- VOBF (42_probe.md R171): RESULT carries the boolean, nothing is written to BUF, DST_LEN stays. -/
def execVobf (s : State) : Out :=
  .next (s.guardRegions .vobf ((s.setResult (probeDiffers s)).complete .ok))

end Sys2Proof.Machine
end

