-- ==== Sys2Proof/Machine/Dispatch.lean ====
section
/-! DEFINITION. The completion step of each command (30_encoding.md R91, 60_exceptions.md R209), one arm per command. -/

namespace Sys2Proof.Machine

def exec (i : Instr) (s : State) : Host.Outcome State Fault Refusal :=
  match i with
  | .enc => Sys2Proof.Machine.execEnc s
  | .dec => Sys2Proof.Machine.execDec s
  | .decn => Sys2Proof.Machine.execDecn s
  | .noise => Sys2Proof.Machine.execNoise s
  | .xtalk => Sys2Proof.Machine.execXtalk s
  | .rdnp => Sys2Proof.Machine.execRdnp s
  | .vobf => Sys2Proof.Machine.execVobf s
  | .eccadd => Sys2Proof.Machine.execEccadd s
  | .eccrec surface => Sys2Proof.Machine.execEccrec surface s

end Sys2Proof.Machine
end

