-- ==== Sys2Proof/Machine/HostAgent.lean ====
section
/-! DEFINITION. The host's steps: accesses at host addresses, WAIT and the reset input; and whose turn it is
(10_state.md R20-R22, R35, R36; 20_memory.md R61, R66, R74; 60_exceptions.md R213; 70_reset_and_hazards.md R235). -/

namespace Sys2Proof.Machine

/-- What a host access reaches. -/
inductive Target where
  /-- The register at a window offset: an aligned 32-bit access (20_memory.md R66). -/
  | register (off : Nat)
  /-- The buffer from a buffer address on, all of the access inside BUF (20_memory.md R61). -/
  | buffer (a : Nat)
  /-- The register window, by an access that is not an aligned 32-bit one (60_exceptions.md R213). -/
  | badRegister
  /-- Neither window (93_implementation_defined.md U8). -/
  | outside
deriving DecidableEq, Repr

/-- The bytes of the register window (10_state.md R22). -/
def windowBytes : Nat := 64

/-- Decode a host access by address and width. An access that touches the register window is a register
access; of two overlapping windows the register window is taken (DESIGN CHOICE, log entry 11). -/
def targetOf (p : Params) (addr width : Nat) : Target :=
  if width = 0 then .outside
  else if addr < p.regBase + windowBytes ∧ p.regBase < addr + width then
    if width = 4 ∧ p.regBase ≤ addr ∧ (addr - p.regBase) % 4 = 0 then .register (addr - p.regBase)
    else .badRegister
  else if p.bufBase ≤ addr ∧ addr + width ≤ p.bufBase + p.bufBytes then .buffer (addr - p.bufBase)
  else .outside

/-- The host notes what a read returned (30_encoding.md R96). -/
def State.noteRead (s : State) (v : Nat) : State := { s with reads := v :: s.reads }

/-- A host read of a register (10_state.md R36): no side effect on the block. Reading STATUS with BUSY = 0 is the
synchronisation of 20_memory.md R75 and 70_reset_and_hazards.md R235. -/
def State.hostRegRead (s : State) (off : Nat) : State :=
  { s.noteRead (s.regRead off).toNat with
    unsynced := s.unsynced && !(off == 0x04 && !s.status.busy) }

/-- A host write at a host address (10_state.md R23, R35; 20_memory.md R61, R63). -/
def hostWrite (addr width value : Nat) (s : State) : Out :=
  match targetOf s.cfg addr width with
  | .register off => .next (s.regWrite off (BitVec.ofNat 32 value))
  | .buffer a =>
    if s.status.busy || s.unsynced then .fault .bufHazard
    else .next (s.setMem (Memory.writeLE s.mem a width value))
  | .badRegister => .refused .regAccess
  | .outside => .refused .hostWindow

/-- A host read at a host address (10_state.md R36; 20_memory.md R61, R63). -/
def hostRead (addr width : Nat) (s : State) : Out :=
  match targetOf s.cfg addr width with
  | .register off => .next (s.hostRegRead off)
  | .buffer a =>
    if s.status.busy || s.unsynced then .fault .bufHazard
    else .next (s.noteRead (Memory.readLE s.mem a width))
  | .badRegister => .refused .regAccess
  | .outside => .refused .hostWindow

/-- What remains of the host's program. -/
def State.setProg (s : State) (ops : List HostOp) : State := { s with prog := ops }

/-- One host step (10_state.md R20). `prog` is what remains of the host's operations after this one; a WAIT that
reads BUSY = 1 stays to read again (30_encoding.md R96). The reset input is a host operation (log entry 18). -/
def hostOp (op : HostOp) (rest : List HostOp) (s : State) : Out :=
  match op with
  | .write addr width value => hostWrite addr width value (s.setProg rest)
  | .read addr width => hostRead addr width (s.setProg rest)
  | .wait => .next ((s.setProg (if s.status.busy then .wait :: rest else rest)).hostRegRead 0x04)
  | .reset => .next (s.setProg rest).resetInput

/-- The host's turn: its next operation, or nothing when its program is at an end (70_reset_and_hazards.md R231:
the block waits for a CMD write). -/
def hostTurn (s : State) : Out :=
  match s.prog with
  | [] => .next s
  | op :: rest => hostOp op rest s

/-- Whose turn it is: as `sched` says; with nothing scheduled a pending command completes before the host goes
on (20_memory.md R74, 70_reset_and_hazards.md R237; log entry 6). -/
def State.turn (s : State) : Agent :=
  match s.sched with
  | a :: _ => a
  | [] => if s.status.busy then .block else .host

/-- The state in which the agent whose turn it is acts. -/
def State.takeTurn (s : State) : State := { s with sched := s.sched.tail }

/-- The completion of an illegal command word (30_encoding.md R92, 60_exceptions.md R201). -/
def illegalCommand (s : State) : Out := .next (s.complete .illegalCmd)

end Sys2Proof.Machine
end

