-- ==== Sys2Proof/Machine/Step.lean ====
section
/-! DEFINITION. One step of the machine: one host step or one completion step (10_state.md R20, 20_memory.md R74). -/

namespace Sys2Proof.Machine

/-- The block's turn: the completion step, enabled iff BUSY = 1 (60_exceptions.md R209). A block that is not
busy does nothing. -/
def blockTurn (s : State) : Out :=
  if s.status.busy then
    match s.pending with
    | .ok i => exec i s
    | .error _ => illegalCommand s
  else .next s

/-- One step: the agent whose turn it is acts. -/
def step (s : State) : Host.Outcome State Fault Refusal :=
  match s.turn with
  | .host => hostTurn s.takeTurn
  | .block => blockTurn s.takeTurn

/-- The state in which the command word w, given by its low `nbits` bits, is pending and the block has the next
turn: what a host write of w to CMD leaves (10_state.md R23, R47; log entry 12). -/
def State.withFetchWord (s : State) (nbits w : Nat) : State :=
  { s.issue (BitVec.ofNat 32 (w % 2 ^ nbits)) with sched := .block :: s.sched }

end Sys2Proof.Machine
end

