-- ==== Sys2Proof/Machine/Assembler.lean ====
section
/-! DEFINITION. The host assembler: the primitive operations and the pseudo-instructions as lists of host
operations (30_encoding.md R96, R97). -/

namespace Sys2Proof.Machine

/-- The register names of the assembler (30_encoding.md R96). -/
inductive Reg where
  | CMD | STATUS | SRC_ADDR | SRC_LEN | SRC2_ADDR | SRC2_LEN | DST_ADDR | DST_LEN | PARAM | GEOM_W | GEOM_H
deriving DecidableEq, Repr

/-- The window offset of a register (10_state.md R22). -/
def Reg.offset : Reg → Nat
  | .CMD => 0x00
  | .STATUS => 0x04
  | .SRC_ADDR => 0x08
  | .SRC_LEN => 0x0C
  | .SRC2_ADDR => 0x10
  | .SRC2_LEN => 0x14
  | .DST_ADDR => 0x18
  | .DST_LEN => 0x1C
  | .PARAM => 0x20
  | .GEOM_W => 0x24
  | .GEOM_H => 0x28

/-- A line of a host program (30_encoding.md R96, R97). -/
inductive Line where
  /-- `WR <REG>, <v>` -/
  | wr (r : Reg) (v : Word)
  /-- `RD <REG>` -/
  | rd (r : Reg)
  /-- `WAIT` -/
  | wait
  /-- `BW <a>, <b0>, <b1>, ...` -/
  | bw (a : Nat) (bytes : List Byte)
  /-- `BR <a>, <n>` -/
  | br (a n : Nat)
  /-- `ENC d, s, n` -/
  | enc (d s n : Word)
  /-- `DEC d, s, n` -/
  | dec (d s n : Word)
  /-- `DECN d, s, n` -/
  | decn (d s n : Word)
  /-- `NOISE d, s, n, a` -/
  | noise (d s n a : Word)
  /-- `XTALK d, s, n, w, h, k` -/
  | xtalk (d s n w h k : Word)
  /-- `RDNP d, s, n` -/
  | rdnp (d s n : Word)
  /-- `VOBF s, n, s2, m` -/
  | vobf (s n s2 m : Word)
  /-- `ECCADD d, s, n` -/
  | eccadd (d s n : Word)
  /-- `ECCREC d, s, n`, and `ECCREC.S d, s, n` with the flag set -/
  | eccrec (surface : Bool) (d s n : Word)
deriving DecidableEq, Repr

/-- The host write of a register (30_encoding.md R96). -/
def writeReg (p : Params) (r : Reg) (v : Word) : HostOp := .write (p.regBase + r.offset) 4 v.toNat

/-- The host read of a register (30_encoding.md R96). -/
def readReg (p : Params) (r : Reg) : HostOp := .read (p.regBase + r.offset) 4

/-- Host byte writes from a buffer address on (30_encoding.md R96). -/
def writeBytes (p : Params) : Nat → List Byte → List HostOp
  | _, [] => []
  | a, b :: bs => .write (p.bufBase + a) 1 b.toNat :: writeBytes p (a + 1) bs

/-- The register writes that set up one input and one output (30_encoding.md R97). -/
def setUp (p : Params) (d s n : Word) : List HostOp :=
  [writeReg p .SRC_ADDR s, writeReg p .SRC_LEN n, writeReg p .DST_ADDR d]

/-- The CMD write and the WAIT that end an expansion (30_encoding.md R97). -/
def run (p : Params) (i : Instr) : List HostOp := [writeReg p .CMD (encode i), .wait]

/-- The expansion of a line (30_encoding.md R96, R97). -/
def expand (p : Params) : Line → List HostOp
  | .wr r v => [writeReg p r v]
  | .rd r => [readReg p r]
  | .wait => [.wait]
  | .bw a bytes => writeBytes p a bytes
  | .br a n => [.read (p.bufBase + a) n]
  | .enc d s n => setUp p d s n ++ run p .enc
  | .dec d s n => setUp p d s n ++ run p .dec
  | .decn d s n => setUp p d s n ++ run p .decn
  | .noise d s n a => setUp p d s n ++ [writeReg p .PARAM a] ++ run p .noise
  | .xtalk d s n w h k =>
    setUp p d s n ++ [writeReg p .GEOM_W w, writeReg p .GEOM_H h, writeReg p .PARAM k] ++ run p .xtalk
  | .rdnp d s n => setUp p d s n ++ run p .rdnp
  | .vobf s n s2 m =>
    [writeReg p .SRC_ADDR s, writeReg p .SRC_LEN n, writeReg p .SRC2_ADDR s2, writeReg p .SRC2_LEN m] ++ run p .vobf
  | .eccadd d s n => setUp p d s n ++ run p .eccadd
  | .eccrec surface d s n => setUp p d s n ++ run p (.eccrec surface)

/-- A host program (30_encoding.md R96). -/
def assemble (p : Params) (lines : List Line) : List HostOp := lines.flatMap (expand p)

end Sys2Proof.Machine
end

