-- ==== Sys2Proof/Safety.lean ====
section
/-! DEFINITION. What holds of every state of a run, and what counts as a safe step. -/

namespace Sys2Proof

open Sys2Proof.Machine

/-- The OPEN parameters are ones the spec admits: BUF_BYTES at most 2^32 (20_memory.md R60) and GF_POLY a
primitive polynomial of degree 8 (43_ecc.md R180). -/
abbrev Params.Admitted (p : Params) : Prop := p.bufBytes ≤ 2 ^ 32 ∧ primitivePoly p.gfPoly = true

/-- The rules that tie STATUS and DST_LEN together: BUSY and DONE are never both 1 (10_state.md R24); ERR is at
most 6 (60_exceptions.md R200); with no completed command ERR, RESULT and DST_LEN are 0 (10_state.md R24, R30,
R47); RESULT and DST_LEN are 0 after an error, but for DST_LEN after ECC_INTEGRITY (60_exceptions.md R208). -/
abbrev StatusRules (st : Status) (dstLen : Word) : Prop :=
  ¬ (st.busy = true ∧ st.done = true) ∧ st.err ≤ 6#4 ∧
  (st.done = false → st.err = 0#4 ∧ st.result = false ∧ dstLen = 0#32) ∧
  (st.err ≠ 0#4 → st.result = false) ∧
  (st.err ≠ 0#4 → st.err ≠ 6#4 → dstLen = 0#32)

/-- The invariant of the machine: the buffer keeps its canonical form and lists only addresses of BUF, STATUS
keeps its rules, and a pending command is one the host has yet to see complete. -/
abbrev Inv (s : State) : Prop :=
  Memory.wf s.mem ∧ (∀ c ∈ s.mem, c.1 < s.cfg.bufBytes) ∧ s.cfg.bufBytes ≤ 2 ^ 32 ∧
  StatusRules s.status s.dstLen ∧ (s.status.busy = true → s.unsynced = true)

/-- k steps, stopping at the first fault or refusal: what the host's run of `Sys2Proof.core` does. -/
def runSteps : Nat → State → Out
  | 0, s => .next s
  | k + 1, s =>
    match step s with
    | .next t => runSteps k t
    | .fault f => .fault f
    | .refused r => .refused r

/-- A step is safe when it is no fault: the host has not touched the buffer of a running command
(60_exceptions.md R213). -/
def SafeStep (o : Out) : Prop := ∀ f, o ≠ .fault f

end Sys2Proof
end

