-- ==== Sys2Proof/Certificates/Slice0/Obligations.lean ====
section
/-! DEFINITION. The statements about the model, from the numbered rules of spec/. The definitions of
`Sys2Proof.Spec` only abbreviate what several statements say. -/

open Sys2Proof Sys2Proof.Machine

namespace Sys2Proof.Spec

/-- A region of e bytes at address a is in range (20_memory.md R68). -/
abbrev Fits (s : State) (a e : Nat) : Prop := e = 0 ∨ a + e ≤ s.cfg.bufBytes

/-- Two regions do not overlap (20_memory.md R69). -/
abbrev Apart (a e b f : Nat) : Prop := e = 0 ∨ f = 0 ∨ a + e ≤ b ∨ b + f ≤ a

/-- Every byte outside the region of e bytes at a reads as before. -/
abbrev SameOutside (m m' : Memory) (a e : Nat) : Prop :=
  ∀ x, x < a ∨ a + e ≤ x → Memory.byteAt m' x = Memory.byteAt m x

/-- STATUS after a completion that leaves RESULT as it is (10_state.md R47). -/
def completed (s : State) (err : BitVec 4) : Status :=
  { busy := false, done := true, err := err, result := s.status.result }

/-- reg[SRC_LEN] as a count. -/
abbrev count (s : State) : Nat := s.srcLen.toNat

/-- reg[SRC_ADDR] as an address. -/
abbrev src (s : State) : Nat := s.srcAddr.toNat

/-- reg[DST_ADDR] as an address. -/
abbrev dst (s : State) : Nat := s.dstAddr.toNat

/-- Both regions of a one-input command fit, and its output overlaps its input nowhere. -/
abbrev Regions (s : State) (inBytes outBytes : Nat) : Prop :=
  Fits s (src s) inBytes ∧ Fits s (dst s) outBytes ∧ Apart (dst s) outBytes (src s) inBytes

/-- The sum of a field and SOME sample that 10_state.md R45 allows for the bound: the rounded sum, or any NaN. -/
def NoisySum (b u out : Word) : Prop :=
  ∃ n : Word, isFinite n = true ∧ -f32Units b ≤ f32Units n ∧ f32Units n ≤ f32Units b ∧
    (fadd u n = some out ∨ (fadd u n = none ∧ isNaN out = true))

/-- A voxel perturbed field by field. -/
def NoisyVoxel (bs : Bounds) (v out : Voxel) : Prop :=
  NoisySum bs.intensity v.intensity out.intensity ∧ NoisySum bs.polarization v.polarization out.polarization ∧
  NoisySum bs.phase v.phase out.phase ∧ NoisySum bs.wavelength v.wavelength out.wavelength

/-- par_j[t] from the ten data bytes of column t (43_ecc.md R182). -/
def paritySum (p : Params) (j : Nat) (column : Nat → Byte) : Byte :=
  (List.range 10).foldl (fun acc i => acc ^^^ gfMul p.gfPoly (rsEntry p j i) (column i)) 0

/-- The 14·S bytes at a hold the parity of their data shards (43_ecc.md R183). -/
def Intact (p : Params) (m : Memory) (a size : Nat) : Prop :=
  ∀ j t, j < 4 → t < size →
    Memory.byteAt m (a + (10 + j) * size + t) =
      paritySum p j (fun i => Memory.byteAt m (a + i * size + t))

/-- The amplitude is outside NOISE's domain (60_exceptions.md R202). -/
def BadAmplitude (a : Word) : Prop :=
  isNaN a = true ∨ isInf a = true ∨ (0 < f32Units a ∧ ∃ r, fmul 0x42C80000 a = some r ∧ isInf r = true)

/-- Some region of the command is out of range (60_exceptions.md R203). -/
def OutOfRange (i : Instr) (s : State) : Prop :=
  ∃ r ∈ sources i s ++ (destination i s).toList, ¬ Fits s r.start r.extent

/-- The command's destination overlaps a source (60_exceptions.md R205). -/
def Overlapping (i : Instr) (s : State) : Prop :=
  ∃ d ∈ destination i s, ∃ r ∈ sources i s, ¬ Apart d.start d.extent r.start r.extent

/-- ECCREC of a length that is no multiple of 14 (60_exceptions.md R204). -/
def BadLength (i : Instr) (s : State) : Prop := (∃ sb, i = .eccrec sb) ∧ count s % 14 ≠ 0

/-- ECCREC of a sequence that fails Verify (60_exceptions.md R206). -/
def NotIntact (i : Instr) (s : State) : Prop :=
  (∃ sb, i = .eccrec sb) ∧ ¬ Intact s.cfg s.mem (src s) (count s / 14)

/-- The host's next turn performs `op`, and `rest` remains. -/
abbrev HostDoes (s : State) (op : HostOp) (rest : List HostOp) : Prop := s.turn = .host ∧ s.prog = op :: rest

/-- The block has the next turn with the command i pending. -/
abbrev BlockRuns (s : State) (i : Instr) : Prop :=
  s.turn = .block ∧ s.status.busy = true ∧ decode s.cmd = .ok i

/-- A host access that touches no byte of the register window. -/
abbrev OffWindow (p : Params) (addr width : Nat) : Prop := addr + width ≤ p.regBase ∨ p.regBase + 64 ≤ addr

/-- u is the binary32 value nearest to the exact num/den in units of 2^-149, with ties to the even fraction, and an
infinity from half a step above the largest finite value on (00_scope.md R8). The sign of a zero is left open. -/
def Rounded (num : Int) (den : Nat) (u : Word) : Prop :=
  isNaN u = false ∧
  (isInf u = true ↔ (2 ^ 25 - 1) * 2 ^ 252 * den ≤ num.natAbs) ∧
  (f32Units u ≠ 0 → f32Sign u = decide (num < 0)) ∧
  (isFinite u = true → ∀ w : Word, isFinite w = true → f32Units w ≠ f32Units u →
    |num - f32Units u * den| < |num - f32Units w * den| ∨
    (|num - f32Units u * den| = |num - f32Units w * den| ∧ u.toNat % 2 = 0))

/-- From s, k steps issue the command i with the operands of `ready`, complete it, and perform the WAIT. -/
def LineRuns (s ready : State) (i : Instr) (k : Nat) (rest : List HostOp) : Prop :=
  ∃ t : State,
    exec i { ready with
      cmd := encode i, status := ⟨true, false, 0, false⟩, dstLen := 0, unsynced := true,
      prog := .wait :: rest } = .next t ∧
    runSteps k s = .next { t with prog := rest, reads := t.status.word.toNat :: t.reads, unsynced := false }

/-- An intensity that is no NaN and at most 1.5 (41_noise_crosstalk.md R158). -/
def Saturated (u : Word) : Prop := isNaN u = false ∧ f32Units u ≤ f32Units 0x3FC00000

end Sys2Proof.Spec

open Sys2Proof.Spec

/-! ### Decoding (30_encoding.md) -/

/-- R91: a word is a command iff OP is 0x01 .. 0x09, bits 31:9 are 0, and bit 8 is 0 or OP is 0x09; it is then the
command of the one row of the opcode map that its match/mask pair selects, with S its bit 8. -/
def Obligations.DecodeFollowsOpcodeMap : Prop :=
  ∀ w : Word,
    ((∃ i, decode w = .ok i) ↔
      1 ≤ w.toNat % 256 ∧ w.toNat % 256 ≤ 9 ∧ w.toNat / 512 = 0 ∧
        (w.toNat / 256 % 2 = 0 ∨ w.toNat % 256 = 9)) ∧
    ∀ i, decode w = .ok i →
      i.op.toNat = w.toNat % 256 ∧ i.surface = w.getLsbD 8 ∧
      (∃ r ∈ opcodeRows, r.mnemonic = i.mnemonic ∧ r.selects w = true) ∧
      ∀ r ∈ opcodeRows, r.selects w = true → r.mnemonic = i.mnemonic

/-- Decoding and encoding agree in both directions on every command, and the host's word form agrees with both. -/
def Obligations.DecodeEncodeAgree : Prop :=
  (∀ i : Instr, i.WellFormed ∧ decode (encode i) = .ok i ∧ decodeTableWord 32 (encode i).toNat = some i) ∧
  (∀ (w : Word) (i : Instr), decode w = .ok i → encode i = w) ∧
  (∀ (w : Word) (i : Instr), decodeTableWord 32 w.toNat = some i ↔ w = encode i)

/-- Words written out from 30_encoding.md R91 and 95_test_vectors.md L2.6 decode as the spec says. The name under which
a reserved word is rejected is the model's choice, log entry 14. -/
def Obligations.SampleWordsDecode : Prop :=
  decode 0x00000001 = .ok .enc ∧ decode 0x00000002 = .ok .dec ∧ decode 0x00000003 = .ok .decn ∧
  decode 0x00000004 = .ok .noise ∧ decode 0x00000005 = .ok .xtalk ∧ decode 0x00000006 = .ok .rdnp ∧
  decode 0x00000007 = .ok .vobf ∧ decode 0x00000008 = .ok .eccadd ∧ decode 0x00000009 = .ok (.eccrec false) ∧
  decode 0x00000109 = .ok (.eccrec true) ∧ decode 0x00000000 = .error .reservedOp ∧
  decode 0x0000000A = .error .reservedOp ∧ decode 0x00000101 = .error .surfaceNotAllowed ∧
  decode 0x80000001 = .error .reservedBits

/-! ### Reset, the invariant and steps -/

/-- After reset every offset of the register window reads 0 and the block is idle (10_state.md R22, R230, Z1, Z4).
That no byte of BUF is listed is the model's form of "every byte is unspecified", log entry 2. -/
def Obligations.ResetRegistersReadZero : Prop :=
  (∀ k < 16, State.reset.regRead (4 * k) = 0) ∧ State.reset.status = ⟨false, false, 0, false⟩ ∧
  ∀ a, Memory.find? State.reset.mem a = none

/-- The state after reset meets the invariant, and its parameters are ones the spec admits. Their values are the
model's choice, log entry 1. -/
def Obligations.ResetMeetsInvariant : Prop := Inv State.reset ∧ State.reset.cfg.Admitted

/-- Every step keeps the invariant, from every state that meets it, reachable or not. -/
def Obligations.StepKeepsInvariant : Prop := ∀ s t : State, Inv s → step s = .next t → Inv t

/-- No step changes the OPEN parameters (00_scope.md R5). -/
def Obligations.StepKeepsParameters : Prop := ∀ s t : State, step s = .next t → t.cfg = s.cfg

/-- The block's turn on a pending legal word is exactly the meaning of the command it decodes to, in the state
with that turn taken off the schedule (60_exceptions.md R209; the schedule is the model's, log entry 6). -/
def Obligations.StepRunsPendingCommand : Prop :=
  ∀ (s : State) (i : Instr), BlockRuns s i → step s = exec i { s with sched := s.sched.tail }

/-- R92: an illegal word written to CMD is accepted and becomes pending like any other, and the block's turn on a
pending illegal word completes it with ILLEGAL_CMD and changes nothing else, whatever BUF holds and whichever agents
move next (the schedule is the model's, log entry 6): no byte of BUF, no draw; RESULT and DST_LEN stay as the issue
left them, which is 0. -/
def Obligations.IllegalWordCompletes : Prop :=
  (∀ (s : State) (v : Word) (rest : List HostOp),
    HostDoes s (.write s.cfg.regBase 4 v.toNat) rest → s.status.busy = false → (∀ i, decode v ≠ .ok i) →
    step s = .next { s with
      cmd := v, status := ⟨true, false, 0, false⟩, dstLen := 0, unsynced := true,
      prog := rest, sched := s.sched.tail }) ∧
  (∀ s : State, s.turn = .block → s.status.busy = true → (∀ i, decode s.cmd ≠ .ok i) →
    step s = .next { s with status := ⟨false, true, 1, s.status.result⟩, sched := s.sched.tail } ∧
    (StatusRules s.status s.dstLen →
      step s = .next { s with status := ⟨false, true, 1, false⟩, dstLen := 0, sched := s.sched.tail }))

/-- Everything that changes STATUS or DST_LEN: an issue by a CMD write to an idle block, a completion, or reset
(10_state.md R47). -/
def Obligations.StatusChangesOnlyAtIssueCompletionReset : Prop :=
  ∀ s t : State, step s = .next t →
    (t.status = s.status ∧ t.dstLen = s.dstLen) ∨
    (∃ v rest, HostDoes s (.write s.cfg.regBase 4 v) rest ∧ s.status.busy = false ∧
      t.status = ⟨true, false, 0, false⟩ ∧ t.dstLen = 0 ∧ t.cmd = BitVec.ofNat 32 v) ∨
    (s.turn = .block ∧ s.status.busy = true ∧ t.status.busy = false ∧ t.status.done = true) ∨
    (∃ rest, HostDoes s .reset rest ∧ t.status = ⟨false, false, 0, false⟩ ∧ t.dstLen = 0)

/-- While a command stays pending its word and its operand registers do not change (10_state.md R35, 20_memory.md
R77). -/
def Obligations.OperandsFixedWhilePending : Prop :=
  ∀ s t : State, s.status.busy = true → step s = .next t → t.status.busy = true →
    t.cmd = s.cmd ∧ t.srcAddr = s.srcAddr ∧ t.srcLen = s.srcLen ∧ t.src2Addr = s.src2Addr ∧
    t.src2Len = s.src2Len ∧ t.dstAddr = s.dstAddr ∧ t.dstLen = s.dstLen ∧ t.param = s.param ∧
    t.geomW = s.geomW ∧ t.geomH = s.geomH ∧ t.mem = s.mem ∧ t.noiseDraws = s.noiseDraws

/-- A pending command does not stay pending: after at most one step more than the schedule is long the block is
idle, or the host has stopped the run (with host operations left it may be a reset that made the block idle); and with
no host operation left it is the completion that comes (70_reset_and_hazards.md R237; that the schedule is finite is the
model's form of weak fairness, log entry 6). -/
def Obligations.PendingCommandCompletes : Prop :=
  ∀ s : State, s.status.busy = true →
    (∃ k ≤ s.sched.length + 1, ∀ t, runSteps k s = .next t → t.status.busy = false) ∧
    (s.prog = [] →
      ∃ k ≤ s.sched.length + 1, ∃ t : State, runSteps k s = .next t ∧ t.status.busy = false ∧ t.status.done = true)

/-! ### The host's accesses -/

/-- A CMD write to an idle block issues the command: CMD takes the word, BUSY is set, DONE, ERR, RESULT and DST_LEN
are cleared, nothing else of the block changes (10_state.md R23, R47). -/
def Obligations.CmdWriteIssues : Prop :=
  ∀ (s : State) (v : Word) (rest : List HostOp),
    HostDoes s (.write s.cfg.regBase 4 v.toNat) rest → s.status.busy = false →
    step s = .next { s with
      cmd := v, status := ⟨true, false, 0, false⟩, dstLen := 0, unsynced := true,
      prog := rest, sched := s.sched.tail }

/-- R35: while BUSY = 1 a host write to any register changes nothing, CMD included, and a host read returns the
register's current value. -/
def Obligations.RegisterWritesIgnoredWhileBusy : Prop :=
  ∀ (s : State) (off : Nat) (rest : List HostOp), s.status.busy = true → off < 64 → off % 4 = 0 →
    (∀ v, HostDoes s (.write (s.cfg.regBase + off) 4 v) rest →
      step s = .next { s with prog := rest, sched := s.sched.tail }) ∧
    (HostDoes s (.read (s.cfg.regBase + off) 4) rest →
      step s = .next { s with
        prog := rest, sched := s.sched.tail, reads := (s.regRead off).toNat :: s.reads })

/-- R36: a host read of any register changes nothing but what the host knows: the value read, and, when it is
STATUS with BUSY = 0, that the host is synchronised (log entry 7). -/
def Obligations.RegisterReadsHaveNoSideEffects : Prop :=
  ∀ (s : State) (off : Nat) (rest : List HostOp), off < 64 → off % 4 = 0 →
    HostDoes s (.read (s.cfg.regBase + off) 4) rest →
    step s = .next { s with
      prog := rest, sched := s.sched.tail, reads := (s.regRead off).toNat :: s.reads,
      unsynced := s.unsynced && !(off == 0x04 && !s.status.busy) }

/-- Each operand register of an idle block reads back the word the host wrote, and no other register changes
(10_state.md R25-R29, R31-R33). -/
def Obligations.OperandRegistersHoldWrites : Prop :=
  ∀ (s : State) (off : Nat) (v : Word) (rest : List HostOp),
    off ∈ [0x08, 0x0C, 0x10, 0x14, 0x18, 0x20, 0x24, 0x28] → s.status.busy = false →
    HostDoes s (.write (s.cfg.regBase + off) 4 v.toNat) rest →
    ∃ t, step s = .next t ∧ t.regRead off = v ∧ (∀ off', off' ≠ off → t.regRead off' = s.regRead off') ∧
      t.mem = s.mem ∧ t.noiseDraws = s.noiseDraws ∧ t.unsynced = s.unsynced

/-- STATUS, DST_LEN and the reserved offsets ignore host writes (10_state.md R24, R30, R34). -/
def Obligations.ReadOnlyRegistersIgnoreWrites : Prop :=
  ∀ (s : State) (off v : Nat) (rest : List HostOp),
    off ∈ [0x04, 0x1C, 0x2C, 0x30, 0x34, 0x38, 0x3C] →
    HostDoes s (.write (s.cfg.regBase + off) 4 v) rest →
    step s = .next { s with prog := rest, sched := s.sched.tail }

/-- R34: the reserved offsets read as 0 and ignore writes, and the reserved bits 3:2 and 31:9 of STATUS read as 0. -/
def Obligations.ReservedOffsetsAndBitsReadZero : Prop :=
  ∀ (s : State) (off : Nat), off ∈ [0x2C, 0x30, 0x34, 0x38, 0x3C] →
    s.regRead off = 0 ∧ (∀ v, s.regWrite off v = s) ∧ s.regRead 0x04 &&& 0xFFFFFE0C#32 = 0

/-- A host access to the buffer window while a command runs, or before the host has read BUSY = 0 since the issue,
is the fault FAULT_BUF_HAZARD (60_exceptions.md R213, 70_reset_and_hazards.md R235). R213 names only BUSY = 1; that
the fault lasts until the host has read BUSY = 0 is the model's reading of R235, log entry 7. -/
def Obligations.BufferAccessHazardFaults : Prop :=
  ∀ (s : State) (a width value : Nat) (rest : List HostOp),
    0 < width → a + width ≤ s.cfg.bufBytes → OffWindow s.cfg (s.cfg.bufBase + a) width →
    (s.status.busy = true ∨ s.unsynced = true) →
    (HostDoes s (.write (s.cfg.bufBase + a) width value) rest ∨ HostDoes s (.read (s.cfg.bufBase + a) width) rest) →
    step s = .fault .bufHazard

/-- A host access that touches the register window and is no 32-bit access at an offset that is a multiple of 4 is
refused (20_memory.md R66, 60_exceptions.md R213), and one outside both windows is refused (20_memory.md R61). That
an access straddling the register window counts as one to it is the model's choice, log entry 11. -/
def Obligations.OtherAccessesRefused : Prop :=
  ∀ (s : State) (addr width value : Nat) (rest : List HostOp), 0 < width →
    (HostDoes s (.write addr width value) rest ∨ HostDoes s (.read addr width) rest) →
    ((¬ OffWindow s.cfg addr width → ¬ (∃ off, width = 4 ∧ addr = s.cfg.regBase + off ∧ off % 4 = 0) →
        step s = .refused .regAccess) ∧
     (OffWindow s.cfg addr width → (addr < s.cfg.bufBase ∨ s.cfg.bufBase + s.cfg.bufBytes < addr + width) →
        step s = .refused .hostWindow))

/-- With no command outstanding a host write stores its value little-endian into the buffer and a host read of the
same bytes returns it (20_memory.md R61, R63); every other byte and all of the block's registers stay. -/
def Obligations.HostBufferWriteThenReadReturnsValue : Prop :=
  ∀ (s : State) (a width value : Nat) (rest : List HostOp),
    0 < width → a + width ≤ s.cfg.bufBytes → OffWindow s.cfg (s.cfg.bufBase + a) width →
    s.status.busy = false → s.unsynced = false → s.sched = [] →
    s.prog = .write (s.cfg.bufBase + a) width value :: .read (s.cfg.bufBase + a) width :: rest →
    ∃ m : Memory,
      runSteps 2 s = .next { s with mem := m, prog := rest, reads := value % 256 ^ width :: s.reads } ∧
      (∀ j, j < width → Memory.byteAt m (a + j) = BitVec.ofNat 8 (value / 256 ^ j)) ∧
      SameOutside s.mem m a width

/-- The reset input clears every register, abandons a pending command, keeps the parameters and the NoiseSource, and
keeps every byte of BUF outside the abandoned command's destination (70_reset_and_hazards.md R230). The model's own
readings: which bytes an abandoned command frees (log entry 3), that reset ends the buffer hazard (log entry 7), that
the NoiseSource and the host are not reset (log entry 10), and that the host asserts the input (log entry 18). -/
def Obligations.ResetInputEffect : Prop :=
  ∀ (s : State) (rest : List HostOp), HostDoes s .reset rest →
    ∃ t, step s = .next t ∧ (∀ off, t.regRead off = 0) ∧ t.status = ⟨false, false, 0, false⟩ ∧ t.cfg = s.cfg ∧
      t.noiseDraws = s.noiseDraws ∧ t.prog = rest ∧ t.unsynced = false ∧
      (s.status.busy = false → t.mem = s.mem) ∧
      (∀ e, decode s.cmd = .error e → t.mem = s.mem) ∧
      (∀ i, decode s.cmd = .ok i → destination i s = none → t.mem = s.mem) ∧
      (∀ i d, decode s.cmd = .ok i → destination i s = some d → SameOutside s.mem t.mem d.start d.extent)

/-- The expansion of an assembler line runs its command (30_encoding.md R97): from an idle block, the operand writes,
the CMD write, the completion and the WAIT end in the command's own next state with exactly the named registers
written, synchronised. A WAIT that reads BUSY = 1 reads again; one that reads BUSY = 0 ends (R96). That the pending
command completes before the host's next operation is the model's default turn, log entry 6. -/
def Obligations.AssembledLineRunsItsCommand : Prop :=
  (∀ (s : State) (d a n : Word) (l : Line) (i : Instr) (rest : List HostOp),
    (l, i) ∈ [(Line.enc d a n, Instr.enc), (.dec d a n, .dec), (.decn d a n, .decn), (.rdnp d a n, .rdnp),
      (.eccadd d a n, .eccadd), (.eccrec false d a n, .eccrec false), (.eccrec true d a n, .eccrec true)] →
    s.status.busy = false → s.sched = [] → s.prog = expand s.cfg l ++ rest →
    LineRuns s { s with srcAddr := a, srcLen := n, dstAddr := d } i 6 rest) ∧
  (∀ (s : State) (d a n p : Word) (rest : List HostOp),
    s.status.busy = false → s.sched = [] → s.prog = expand s.cfg (.noise d a n p) ++ rest →
    LineRuns s { s with srcAddr := a, srcLen := n, dstAddr := d, param := p } .noise 7 rest) ∧
  (∀ (s : State) (d a n w h k : Word) (rest : List HostOp),
    s.status.busy = false → s.sched = [] → s.prog = expand s.cfg (.xtalk d a n w h k) ++ rest →
    LineRuns s { s with srcAddr := a, srcLen := n, dstAddr := d, geomW := w, geomH := h, param := k } .xtalk 9
      rest) ∧
  (∀ (s : State) (a n b m : Word) (rest : List HostOp),
    s.status.busy = false → s.sched = [] → s.prog = expand s.cfg (.vobf a n b m) ++ rest →
    LineRuns s { s with srcAddr := a, srcLen := n, src2Addr := b, src2Len := m } .vobf 7 rest) ∧
  (∀ (s : State) (rest : List HostOp), HostDoes s .wait rest →
    (s.status.busy = true →
      step s = .next { s with sched := s.sched.tail, reads := s.status.word.toNat :: s.reads }) ∧
    (s.status.busy = false →
      step s = .next { s with
        sched := s.sched.tail, prog := rest, reads := s.status.word.toNat :: s.reads, unsynced := false }))

/-! ### The commands complete with the results the rules give -/

/-- ENC: record i of the output encodes byte i of the input; DST_LEN = n; nothing else changes (40_codec.md R129). -/
def Obligations.EncWritesEncodedRecords : Prop :=
  ∀ s : State, Regions s (count s) (16 * count s) →
    ∃ m : Memory,
      exec .enc s = .next { s with mem := m, dstLen := s.srcLen, status := completed s 0 } ∧
      (∀ i, i < count s →
        Memory.voxRead m (dst s + 16 * i) = encodeByte (Memory.byteAt s.mem (src s + i))) ∧
      SameOutside s.mem m (dst s) (16 * count s)

/-- DEC: byte i of the output decodes record i of the input; DST_LEN = n; nothing else changes (40_codec.md R130). -/
def Obligations.DecWritesDecodedBytes : Prop :=
  ∀ s : State, Regions s (16 * count s) (count s) →
    ∃ m : Memory,
      exec .dec s = .next { s with mem := m, dstLen := s.srcLen, status := completed s 0 } ∧
      (∀ i, i < count s →
        Memory.byteAt m (dst s + i) = decodeVoxel (Memory.voxRead s.mem (src s + 16 * i))) ∧
      SameOutside s.mem m (dst s) (count s)

/-- DECN: byte i decodes record i perturbed by samples within NB_I, NB_P, NB_H, NB_W; 4·n draws; the input records
are not written (40_codec.md R131). It holds for every value of the free samples (log entry 4). -/
def Obligations.DecnDecodesPerturbedRecords : Prop :=
  ∀ s : State, Regions s (16 * count s) (count s) →
    ∃ m : Memory,
      exec .decn s = .next { s with
        mem := m, dstLen := s.srcLen, status := completed s 0, noiseDraws := s.noiseDraws + 4 * count s } ∧
      (∀ i, i < count s → ∃ v,
        NoisyVoxel ⟨0x3D4CCCCD, 0x3DA3D70A, 0x3DCCCCCD, 0x41200000⟩ (Memory.voxRead s.mem (src s + 16 * i)) v ∧
        Memory.byteAt m (dst s + i) = decodeVoxel v) ∧
      SameOutside s.mem m (dst s) (count s)

/-- NOISE with a positive amplitude in its domain: record i of the output is record i of the input with every field
perturbed by samples within A, A, A and fl(100·A); 4·n draws (41_noise_crosstalk.md R150). It holds for every value
of the free samples and of the free NaN patterns (log entries 4 and 5). -/
def Obligations.NoiseWritesPerturbedRecords : Prop :=
  ∀ (s : State) (bw : Word), isFinite s.param = true → 0 < f32Units s.param →
    fmul 0x42C80000 s.param = some bw → isInf bw = false →
    Regions s (16 * count s) (16 * count s) →
    ∃ m : Memory,
      exec .noise s = .next { s with
        mem := m, dstLen := s.srcLen, status := completed s 0, noiseDraws := s.noiseDraws + 4 * count s } ∧
      (∀ i, i < count s →
        NoisyVoxel ⟨s.param, s.param, s.param, bw⟩ (Memory.voxRead s.mem (src s + 16 * i))
          (Memory.voxRead m (dst s + 16 * i))) ∧
      SameOutside s.mem m (dst s) (16 * count s)

/-- R151: NOISE with val(A) ≤ 0, which -0.0 and every negative finite amplitude meet, copies its input bit for bit
and makes no draw. -/
def Obligations.NoiseOfNonPositiveAmplitudeCopies : Prop :=
  (∀ s : State, isFinite s.param = true → f32Units s.param ≤ 0 → Regions s (16 * count s) (16 * count s) →
    ∃ m : Memory,
      exec .noise s = .next { s with mem := m, dstLen := s.srcLen, status := completed s 0 } ∧
      (∀ x, x < 16 * count s → Memory.byteAt m (dst s + x) = Memory.byteAt s.mem (src s + x)) ∧
      SameOutside s.mem m (dst s) (16 * count s)) ∧
  (∀ u : Word, isFinite u = true → (u = 0x80000000 ∨ f32Sign u = true) → f32Units u ≤ 0)

/-- XTALK with a lattice: each output intensity is minNum(I +f leak, 1.5) with the leak summed over the neighbours'
ORIGINAL intensities in order; the other fields are copied (41_noise_crosstalk.md R153, R155, R156). -/
def Obligations.XtalkLeaksIntensity : Prop :=
  ∀ s : State, s.geomW ≠ 0 → s.geomH ≠ 0 → Regions s (16 * count s) (16 * count s) →
    ∃ m : Memory,
      exec .xtalk s = .next { s with mem := m, dstLen := s.srcLen, status := completed s 0 } ∧
      (∀ i, i < count s →
        Memory.voxRead m (dst s + 16 * i) =
          { Memory.voxRead s.mem (src s + 16 * i) with
            intensity := minNum
              (faddResult (some (Memory.voxRead s.mem (src s + 16 * i)).intensity)
                ((neighbours s.geomW.toNat s.geomH.toNat (count s) i).foldl
                  (fun leak j => faddResult leak (fmul s.param (Memory.voxRead s.mem (src s + 16 * j)).intensity))
                  (some 0)))
              0x3FC00000 }) ∧
      SameOutside s.mem m (dst s) (16 * count s)

/-- R157: with GEOM_W = 0 or GEOM_H = 0 XTALK writes a bit-exact copy and completes OK, with no clamp. -/
def Obligations.XtalkDegenerateGeometryCopies : Prop :=
  ∀ s : State, (s.geomW = 0 ∨ s.geomH = 0) → Regions s (16 * count s) (16 * count s) →
    ∃ m : Memory,
      exec .xtalk s = .next { s with mem := m, dstLen := s.srcLen, status := completed s 0 } ∧
      (∀ x, x < 16 * count s → Memory.byteAt m (dst s + x) = Memory.byteAt s.mem (src s + x)) ∧
      SameOutside s.mem m (dst s) (16 * count s)

/-- RDNP: byte i of the output is what DEC gives with the polarization bits cleared, AND 0xF3 (42_probe.md R170). -/
def Obligations.RdnpDiscardsPolarization : Prop :=
  ∀ s : State, Regions s (16 * count s) (count s) →
    ∃ m : Memory,
      exec .rdnp s = .next { s with mem := m, dstLen := s.srcLen, status := completed s 0 } ∧
      (∀ i, i < count s →
        Memory.byteAt m (dst s + i) = decodeVoxel (Memory.voxRead s.mem (src s + 16 * i)) &&& 0xF3#8) ∧
      SameOutside s.mem m (dst s) (count s)

/-- VOBF: RESULT is 1 iff the lengths differ or some probe byte differs from the original; no byte of BUF, no DST_LEN
and no other register changes, and the two sources may overlap (42_probe.md R171). -/
def Obligations.VobfSetsResult : Prop :=
  ∀ s : State, Fits s (src s) (16 * count s) → Fits s s.src2Addr.toNat s.src2Len.toNat →
    ∃ differs : Bool,
      exec .vobf s = .next { s with status := ⟨false, true, 0, differs⟩ } ∧
      (differs = true ↔ count s ≠ s.src2Len.toNat ∨
        ∃ i, i < count s ∧
          decodeVoxel (Memory.voxRead s.mem (src s + 16 * i)) &&& 0xF3#8 ≠
            Memory.byteAt s.mem (s.src2Addr.toNat + i))

/-- ECCADD: the output is the data, zero bytes up to 10·S, and the four parity shards of S bytes (43_ecc.md R184,
R182), for every GF_POLY and RS_PARITY. -/
def Obligations.EccaddWritesSystematicCode : Prop :=
  ∀ s : State, Regions s (count s) (14 * ((count s + 9) / 10)) →
    ∃ m : Memory,
      exec .eccadd s = .next { s with
        mem := m, dstLen := BitVec.ofNat 32 (14 * ((count s + 9) / 10)), status := completed s 0 } ∧
      (∀ x, x < count s → Memory.byteAt m (dst s + x) = Memory.byteAt s.mem (src s + x)) ∧
      (∀ x, count s ≤ x → x < 10 * ((count s + 9) / 10) → Memory.byteAt m (dst s + x) = 0) ∧
      Intact s.cfg m (dst s) ((count s + 9) / 10) ∧
      SameOutside s.mem m (dst s) (14 * ((count s + 9) / 10))

/-- ECCREC of an intact sequence: the data shards are written, DST_LEN = 10·S, OK, whatever the S bit
(43_ecc.md R185). -/
def Obligations.EccrecAcceptsIntactSequence : Prop :=
  ∀ (s : State) (surface : Bool), count s % 14 = 0 → Regions s (count s) (10 * (count s / 14)) →
    Intact s.cfg s.mem (src s) (count s / 14) →
    ∃ m : Memory,
      exec (.eccrec surface) s = .next { s with
        mem := m, dstLen := BitVec.ofNat 32 (10 * (count s / 14)), status := completed s 0 } ∧
      (∀ x, x < 10 * (count s / 14) → Memory.byteAt m (dst s + x) = Memory.byteAt s.mem (src s + x)) ∧
      SameOutside s.mem m (dst s) (10 * (count s / 14))

/-- R206: when Verify is false ECCREC completes with ECC_INTEGRITY; with CMD[8] = 0 nothing is written, with
CMD[8] = 1 the unstripped data portion is written, uncorrected, and DST_LEN = 10·S. -/
def Obligations.EccrecIntegrityFailure : Prop :=
  ∀ s : State, count s % 14 = 0 → Regions s (count s) (10 * (count s / 14)) →
    ¬ Intact s.cfg s.mem (src s) (count s / 14) →
    exec (.eccrec false) s = .next { s with status := completed s 6 } ∧
    ∃ m : Memory,
      exec (.eccrec true) s = .next { s with
        mem := m, dstLen := BitVec.ofNat 32 (10 * (count s / 14)), status := completed s 6 } ∧
      (∀ x, x < 10 * (count s / 14) → Memory.byteAt m (dst s + x) = Memory.byteAt s.mem (src s + x)) ∧
      SameOutside s.mem m (dst s) (10 * (count s / 14))

/-- R204: ECCREC of a length that is no multiple of 14 completes with ECC_LENGTH and writes nothing. -/
def Obligations.EccrecLengthError : Prop :=
  ∀ (s : State) (surface : Bool), count s % 14 ≠ 0 →
    exec (.eccrec surface) s = .next { s with status := completed s 3 }

/-! ### Codes, priority and frames of all commands -/

/-- R207: the completion reports one code, the first that applies in the order ILLEGAL_CMD, BAD_PARAM, ECC_LENGTH,
RANGE, OVERLAP, ECC_INTEGRITY, RANGE over all regions together; and no code but ECC_INTEGRITY depends on the
buffer's contents. -/
def Obligations.CodesFollowPriority : Prop :=
  ∀ s t : State, s.turn = .block → s.status.busy = true → step s = .next t →
    (t.status.err = 1 ↔ ∀ i, decode s.cmd ≠ .ok i) ∧
    (∀ i, decode s.cmd = .ok i →
      (t.status.err = 2 ↔ i = .noise ∧ BadAmplitude s.param) ∧
      (t.status.err = 3 ↔ BadLength i s) ∧
      (t.status.err = 4 ↔ ¬ (i = .noise ∧ BadAmplitude s.param) ∧ ¬ BadLength i s ∧ OutOfRange i s) ∧
      (t.status.err = 5 ↔ ¬ (i = .noise ∧ BadAmplitude s.param) ∧ ¬ BadLength i s ∧ ¬ OutOfRange i s ∧
        Overlapping i s) ∧
      (t.status.err = 6 ↔ ¬ BadLength i s ∧ ¬ OutOfRange i s ∧ ¬ Overlapping i s ∧ NotIntact i s) ∧
      t.status.err ≤ 6) ∧
    (∀ (m : Memory) (t' : State), step { s with mem := m } = .next t' →
      ∀ c ∈ [1#4, 2#4, 3#4, 4#4, 5#4], t'.status.err = c ↔ t.status.err = c)

/-- R202: BAD_PARAM is raised by NOISE alone, exactly for an amplitude that is NaN or infinite, or positive with
fl(100·A) infinite; XTALK accepts every factor. -/
def Obligations.BadParamOnlyFromNoise : Prop :=
  ∀ (i : Instr) (s t : State), exec i s = .next t →
    (t.status.err = 2 ↔
      i = .noise ∧ (isNaN s.param = true ∨ isInf s.param = true ∨
        (0 < f32Units s.param ∧ ∃ r, fmul 0x42C80000 s.param = some r ∧ isInf r = true)))

/-- R208: a completion with any code but OK changes STATUS alone: no byte of BUF, no draw, DST_LEN = 0 and
RESULT = 0; the one exception is ECC_INTEGRITY with CMD[8] = 1. The premise is what issue leaves (R47). -/
def Obligations.ErrorsHaveNoOtherEffect : Prop :=
  ∀ s t : State, s.turn = .block → s.status.busy = true → StatusRules s.status s.dstLen → step s = .next t →
    t.status.err ≠ 0 → ¬ (t.status.err = 6 ∧ s.cmd.getLsbD 8 = true) →
    t = { s with status := ⟨false, true, t.status.err, false⟩, dstLen := 0, sched := s.sched.tail }

/-- Every command completes, changes only STATUS, DST_LEN, the NoiseSource's count and BUF, and writes no byte of BUF
outside its destination region (20_memory.md R62, 60_exceptions.md R209). -/
def Obligations.CommandFrame : Prop :=
  ∀ (i : Instr) (s : State), ∃ t : State, exec i s = .next t ∧
    t = { s with mem := t.mem, status := t.status, dstLen := t.dstLen, noiseDraws := t.noiseDraws } ∧
    t.status.busy = false ∧ t.status.done = true ∧
    (destination i s = none → t.mem = s.mem) ∧
    (∀ d, destination i s = some d → SameOutside s.mem t.mem d.start d.extent) ∧
    (t.noiseDraws = s.noiseDraws ∨
      ((i = .decn ∨ i = .noise) ∧ t.status.err = 0 ∧ t.noiseDraws = s.noiseDraws + 4 * count s))

/-- A command reads only its source regions: two buffers that agree there give the same STATUS, DST_LEN, draws and
output bytes (20_memory.md R62, R70). -/
def Obligations.CommandReadsOnlySources : Prop :=
  ∀ (i : Instr) (s t t' : State) (m : Memory),
    (∀ r ∈ sources i s, ∀ x, r.start ≤ x → x < r.start + r.extent →
      Memory.byteAt m x = Memory.byteAt s.mem x) →
    exec i s = .next t → exec i { s with mem := m } = .next t' →
    t'.status = t.status ∧ t'.dstLen = t.dstLen ∧ t'.noiseDraws = t.noiseDraws ∧
    ∀ d, destination i s = some d → t.status.err = 0 ∨ (t.status.err = 6 ∧ i = .eccrec true) →
      ∀ x, d.start ≤ x → x < d.start + d.extent → Memory.byteAt t'.mem x = Memory.byteAt t.mem x

/-- R133: for every successful DEC, DECN or ENC, DST_LEN = SRC_LEN. -/
def Obligations.CodecLengthLaw : Prop :=
  ∀ (i : Instr) (s t : State), i = .enc ∨ i = .dec ∨ i = .decn → exec i s = .next t → t.status.err = 0 →
    t.dstLen = s.srcLen

/-! ### The codec's laws (40_codec.md) -/

/-- EncodeByte takes each field from its table by its two bits (R120 with the tables of 10_state.md R37-R40). -/
def Obligations.EncodeByteFollowsTables : Prop :=
  ∀ b : Byte,
    some (encodeByte b).intensity =
      [0x3E800000#32, 0x3F000000#32, 0x3F400000#32, 0x3F800000#32][b.toNat % 4]? ∧
    some (encodeByte b).polarization =
      [0x00000000#32, 0x3F490FDB#32, 0x3FC90FDB#32, 0x4016CBE4#32][b.toNat / 4 % 4]? ∧
    some (encodeByte b).phase =
      [0x00000000#32, 0x3FC90FDB#32, 0x40490FDB#32, 0x4096CBE4#32][b.toNat / 16 % 4]? ∧
    some (encodeByte b).wavelength =
      [0x44050000#32, 0x44228000#32, 0x43E10000#32, 0x44480000#32][b.toNat / 64]?

/-- R127: the decoded byte is (W << 6) | (H << 4) | (P << 2) | I of the four classifications. -/
def Obligations.DecodeVoxelAssemblesByte : Prop :=
  ∀ v : Voxel,
    (decodeVoxel v).toNat =
      64 * (classify .wavelength v.wavelength).toNat + 16 * (classify .phase v.phase).toNat +
        4 * (classify .polarization v.polarization).toNat + (classify .intensity v.intensity).toNat

/-- R123: the intensity decision regions, ties at 0.375, 0.625 and 0.875 to the lower index, and the thresholds'
patterns. Values are in units of 2^-149. A NaN or an infinity classifies to 0
(the first line of R122). -/
def Obligations.IntensityDecisionRegions : Prop :=
  (∀ u : Word, isFinite u = false → classify .intensity u = 0) ∧
  (∀ u : Word, isFinite u = true →
    classify .intensity u =
      if 8 * f32Units u ≤ 3 * 2 ^ 149 then 0
      else if 8 * f32Units u ≤ 5 * 2 ^ 149 then 1
      else if 8 * f32Units u ≤ 7 * 2 ^ 149 then 2 else 3) ∧
  8 * f32Units 0x3EC00000 = 3 * 2 ^ 149 ∧ 8 * f32Units 0x3F200000 = 5 * 2 ^ 149 ∧
  8 * f32Units 0x3F600000 = 7 * 2 ^ 149

/-- R124: the wavelength decision regions of the unsorted palette, ties at 491 and 591 to 0 and at 725 to 1, and the
thresholds' patterns. A NaN or an infinity classifies to 0
(the first line of R122). -/
def Obligations.WavelengthDecisionRegions : Prop :=
  (∀ u : Word, isFinite u = false → classify .wavelength u = 0) ∧
  (∀ u : Word, isFinite u = true →
    classify .wavelength u =
      if f32Units u < 491 * 2 ^ 149 then 2
      else if f32Units u ≤ 591 * 2 ^ 149 then 0
      else if f32Units u ≤ 725 * 2 ^ 149 then 1 else 3) ∧
  f32Units 0x43F58000 = 491 * 2 ^ 149 ∧ f32Units 0x4413C000 = 591 * 2 ^ 149 ∧
  f32Units 0x44354000 = 725 * 2 ^ 149

/-- R125: the polarization decision regions of r = val(u) mod PERIOD_P, with the tie at TP30 to 0. A NaN or an infinity classifies to 0
(the first line of R122). -/
def Obligations.PolarizationDecisionRegions : Prop :=
  (∀ u : Word, isFinite u = false → classify .polarization u = 0) ∧
  (∀ (u : Word) (r : Int), isFinite u = true → r = f32Units u % f32Units 0x40490FDB →
    0 ≤ r ∧ r < 13176795 * 2 ^ 127 ∧
    classify .polarization u =
      if r ≤ 13176795 * 2 ^ 124 ∨ 23059391 * 2 ^ 126 ≤ r then 0
      else if r ≤ 39530385 * 2 ^ 124 then 1
      else if r ≤ 32941987 * 2 ^ 125 then 2 else 3) ∧
  f32Units 0x3EC90FDB = 13176795 * 2 ^ 124 ∧
  2 * (13176795 * 2 ^ 124) = f32Units (lut .polarization 1) ∧
  2 * (23059391 * 2 ^ 126) = f32Units (lut .polarization 3) + f32Units 0x40490FDB

/-- R126: the phase decision regions of r = val(u) mod PERIOD_H. A NaN or an infinity classifies to 0
(the first line of R122). -/
def Obligations.PhaseDecisionRegions : Prop :=
  (∀ u : Word, isFinite u = false → classify .phase u = 0) ∧
  (∀ (u : Word) (r : Int), isFinite u = true → r = f32Units u % f32Units 0x40C90FDB →
    0 ≤ r ∧ r < 13176795 * 2 ^ 128 ∧
    classify .phase u =
      if r ≤ 13176795 * 2 ^ 125 ∨ 23059391 * 2 ^ 127 ≤ r then 0
      else if r ≤ 39530385 * 2 ^ 125 then 1
      else if r ≤ 32941987 * 2 ^ 126 then 2 else 3) ∧
  f32Units 0x3F490FDB = 13176795 * 2 ^ 125

/-- R128: decoding an encoded byte gives it back; each level is at distance 0 from itself and at a positive distance
from every other level of its channel. -/
def Obligations.CodecRoundTrip : Prop :=
  (∀ b : Byte, decodeVoxel (encodeByte b) = b) ∧
  ∀ (c : Channel) (k j : BitVec 2),
    levelDist c (f32Units (lut c k)) k = 0 ∧ (j ≠ k → 0 < levelDist c (f32Units (lut c k)) j)

/-- ENC and then DEC of its output return the input bytes, in every buffer where both fit (95_test_vectors.md L1
item 1, 40_codec.md R128). -/
def Obligations.EncThenDecReturnsInput : Prop :=
  ∀ (s t : State) (d : Word), exec .enc s = .next t → t.status.err = 0 →
    Fits t d.toNat (count s) → Apart d.toNat (count s) (dst s) (16 * count s) →
    ∃ u : State,
      exec .dec { t with srcAddr := s.dstAddr, srcLen := t.dstLen, dstAddr := d } = .next u ∧
      u.status.err = 0 ∧ u.dstLen = s.srcLen ∧
      ∀ i, i < count s → Memory.byteAt u.mem (d.toNat + i) = Memory.byteAt s.mem (src s + i)

/-- R132: the voxel of every byte, perturbed by any four samples within the decode-noise bounds, decodes to the byte,
so DECN of encoded records writes what DEC writes, under every draw; each bound is below its channel's margin, and
the rounding moves a field by at most 2^-15. -/
def Obligations.DecodeNoiseTolerance : Prop :=
  (∀ (b : Byte) (v : Voxel),
    NoisyVoxel ⟨0x3D4CCCCD, 0x3DA3D70A, 0x3DCCCCCD, 0x41200000⟩ (encodeByte b) v → decodeVoxel v = b) ∧
  (∀ s t u : State, exec .dec s = .next t → exec .decn s = .next u → t.status.err = 0 →
    (∀ i, i < count s → ∃ b, Memory.voxRead s.mem (src s + 16 * i) = encodeByte b) →
    u.status.err = 0 ∧ ∀ x, Memory.byteAt u.mem x = Memory.byteAt t.mem x) ∧
  (8 * f32Units 0x3D4CCCCD < 2 ^ 149 ∧ f32Units 0x3DA3D70A < 13176795 * 2 ^ 124 ∧
    f32Units 0x3DCCCCCD < 13176795 * 2 ^ 125 ∧ f32Units 0x41200000 < 41 * 2 ^ 149) ∧
  (∀ (c : Channel) (k : BitVec 2) (n r : Word), isFinite n = true →
    -f32Units 0x41200000 ≤ f32Units n → f32Units n ≤ f32Units 0x41200000 → fadd (lut c k) n = some r →
    |f32Units r - (f32Units (lut c k) + f32Units n)| ≤ 2 ^ 134)

/-! ### Crosstalk, probe and erasure coding -/

/-- The neighbours of cell i in flat terms and in the order -x, +x, -y, +y, -z, +z: no step over a row or plane edge,
and none past the populated length (41_noise_crosstalk.md R154, R155). -/
def Obligations.NeighboursInOrder : Prop :=
  ∀ wd ht n i : Nat, 0 < wd → 0 < ht → i < n →
    neighbours wd ht n i =
      (if 0 < i % wd then [i - 1] else []) ++
      (if i % wd + 1 < wd ∧ i + 1 < n then [i + 1] else []) ++
      (if 0 < i / wd % ht then [i - wd] else []) ++
      (if i / wd % ht + 1 < ht ∧ i + wd < n then [i + wd] else []) ++
      (if wd * ht ≤ i then [i - wd * ht] else []) ++
      (if i + wd * ht < n then [i + wd * ht] else [])

/-- R158: after a successful XTALK with a lattice every output intensity is no NaN and at most 1.5; with degenerate
geometry that holds of the output iff it held of the input. -/
def Obligations.XtalkSaturationLaw : Prop :=
  ∀ s t : State, exec .xtalk s = .next t → t.status.err = 0 →
    (s.geomW ≠ 0 ∧ s.geomH ≠ 0 →
      ∀ i, i < count s → Saturated (Memory.voxRead t.mem (dst s + 16 * i)).intensity) ∧
    (s.geomW = 0 ∨ s.geomH = 0 →
      ((∀ i, i < count s → Saturated (Memory.voxRead t.mem (dst s + 16 * i)).intensity) ↔
        ∀ i, i < count s → Saturated (Memory.voxRead s.mem (src s + 16 * i)).intensity))

/-- R172: on the records of a byte sequence and that sequence, VOBF sets RESULT iff some byte has polarization bits
that are not 0; so it does when two bytes have different ones, and also when all have the same non-zero ones. -/
def Obligations.ProbeLaw : Prop :=
  ∀ s : State, Fits s (src s) (16 * count s) → Fits s s.src2Addr.toNat s.src2Len.toNat →
    s.src2Len = s.srcLen →
    (∀ i, i < count s →
      Memory.voxRead s.mem (src s + 16 * i) = encodeByte (Memory.byteAt s.mem (s.src2Addr.toNat + i))) →
    ∃ t : State, exec .vobf s = .next t ∧ t.status.err = 0 ∧
      (t.status.result = true ↔
        ∃ i, i < count s ∧ (Memory.byteAt s.mem (s.src2Addr.toNat + i)).extractLsb' 2 2 ≠ 0) ∧
      (∀ i j, i < count s → j < count s →
        (Memory.byteAt s.mem (s.src2Addr.toNat + i)).extractLsb' 2 2 ≠
          (Memory.byteAt s.mem (s.src2Addr.toNat + j)).extractLsb' 2 2 → t.status.result = true) ∧
      (∀ k, k ≠ 0 → 0 < count s →
        (∀ i, i < count s → (Memory.byteAt s.mem (s.src2Addr.toNat + i)).extractLsb' 2 2 = k) →
        t.status.result = true)

/-- R186: ECCREC of ECCADD's output completes OK and returns the input followed by zero bytes up to a multiple of
10, for every GF_POLY and RS_PARITY. -/
def Obligations.EccRoundTrip : Prop :=
  ∀ (s t : State) (d : Word) (surface : Bool), s.cfg.bufBytes ≤ 2 ^ 32 →
    exec .eccadd s = .next t → t.status.err = 0 →
    Fits t d.toNat (10 * ((count s + 9) / 10)) →
    Apart d.toNat (10 * ((count s + 9) / 10)) (dst s) (14 * ((count s + 9) / 10)) →
    ∃ u : State,
      exec (.eccrec surface) { t with srcAddr := s.dstAddr, srcLen := t.dstLen, dstAddr := d } = .next u ∧
      u.status.err = 0 ∧ u.dstLen.toNat = 10 * ((count s + 9) / 10) ∧
      (∀ x, x < count s → Memory.byteAt u.mem (d.toNat + x) = Memory.byteAt s.mem (src s + x)) ∧
      (∀ x, count s ≤ x → x < 10 * ((count s + 9) / 10) → Memory.byteAt u.mem (d.toNat + x) = 0)

/-- With the default GF_POLY and RS_PARITY, changing between 1 and 4 bytes of one byte column of an intact sequence
makes the integrity check fail (43_ecc.md R187). -/
def Obligations.DefaultCodeDetectsFourErrors : Prop :=
  ∀ (p : Params) (size column : Nat) (bytes bytes' : List Byte),
    p.gfPoly = Config.defaultGfPoly → p.rsParity = Config.defaultRsParity → column < size →
    bytes.length = 14 * size → bytes'.length = 14 * size → intact p size bytes = true →
    (∀ x, bytes.getD x 0 ≠ bytes'.getD x 0 → x % size = column) →
    1 ≤ ((List.range (14 * size)).filter fun x => bytes.getD x 0 != bytes'.getD x 0).length →
    ((List.range (14 * size)).filter fun x => bytes.getD x 0 != bytes'.getD x 0).length ≤ 4 →
    intact p size bytes' = false

/-- ⊗ is the multiplication of the ring GF(2)[x]/(GF_POLY) for every GF_POLY of degree 8: it distributes over ⊕ in
both arguments, is commutative and associative, has the unit 1, and multiplies by x as the polynomial says, which
together determine every product; and the check values of the default hold (43_ecc.md R180). -/
def Obligations.GfMultiplication : Prop :=
  (∀ (poly : BitVec 9) (a b c : Byte), poly.getLsbD 8 = true →
    gfMul poly (a ^^^ b) c = gfMul poly a c ^^^ gfMul poly b c ∧
    gfMul poly a (b ^^^ c) = gfMul poly a b ^^^ gfMul poly a c ∧
    gfMul poly a b = gfMul poly b a ∧ gfMul poly (gfMul poly a b) c = gfMul poly a (gfMul poly b c) ∧
    gfMul poly 1 a = a ∧
    gfMul poly 2 a = (a <<< 1) ^^^ (if a.getLsbD 7 then poly.truncate 8 else 0)) ∧
  gfMul 0x11D 0x02 0x80 = 0x1D ∧ gfMul 0x11D 0x53 0xCA = 0x8F ∧ gfMul 0x11D 0x03 0x07 = 0x09 ∧
  gfMul 0x11D 0xFF 0xFF = 0xE2 ∧ gfMul 0x11D 0x02 0x8E = 0x01

/-- The default RS_PARITY is rows 10 .. 13 of V · (rows 0 .. 9 of V)^-1 for the Vandermonde matrix V[r][c] = r^c
(43_ecc.md R181): multiplied by the top of V it gives the bottom of V. -/
def Obligations.DefaultParityFromVandermonde : Prop :=
  ∀ j < 4, ∀ c < 10,
    (List.range 10).foldl
      (fun acc i => acc ^^^ gfMul 0x11D (rsEntry Config.defaultParams j i) (gfPow 0x11D (BitVec.ofNat 8 i) c)) 0 =
    gfPow 0x11D (BitVec.ofNat 8 (10 + j)) c

/-! ### Binary32 (00_scope.md R8) -/

/-- Every rounding is to nearest, ties to even, with overflow to infinity from half a step above the largest finite
value on (00_scope.md R8): the magnitude pattern of num/den; `fl`, which joins it with the sign; and `+f` and `×f`,
which round the exact sum and the exact product of two finite values. The sign of a zero that `fl` or `×f` gives is
the model's choice, log entries 9 and 17. -/
def Obligations.RoundingIsNearestTiesToEven : Prop :=
  (∀ num den : Nat, 0 < den →
      roundMagnitude num den ≤ 0x7F800000 ∧
      (roundMagnitude num den = 0x7F800000 ↔ (2 ^ 25 - 1) * 2 ^ 252 * den ≤ num) ∧
      (roundMagnitude num den < 0x7F800000 →
        ∀ w : Nat, w < 0x7F800000 → w ≠ roundMagnitude num den →
          |(num : Int) - f32Mag (BitVec.ofNat 32 (roundMagnitude num den)) * den| <
            |(num : Int) - f32Mag (BitVec.ofNat 32 w) * den| ∨
          (|(num : Int) - f32Mag (BitVec.ofNat 32 (roundMagnitude num den)) * den| =
            |(num : Int) - f32Mag (BitVec.ofNat 32 w) * den| ∧ roundMagnitude num den % 2 = 0))) ∧
  (∀ (neg : Bool) (num den : Nat), 0 < den →
    f32Sign (fl neg num den) = neg ∧ (fl neg num den).toNat % 2 ^ 31 = roundMagnitude num den ∧
    Rounded (if neg then -(num : Int) else num) den (fl neg num den)) ∧
  (∀ x y : Word, isFinite x = true → isFinite y = true →
    (∃ r, fadd x y = some r ∧ Rounded (f32Units x + f32Units y) 1 r) ∧
    (∃ r, fmul x y = some r ∧ Rounded (f32Units x * f32Units y) (2 ^ 149) r ∧
      f32Sign r = (f32Sign x != f32Sign y)))

/-- `+f`, `×f` and `minNum` on special values, and the lesser of two others (00_scope.md R8, 41_noise_crosstalk.md
R152, R156): a NaN operand, computed or given, gives a NaN; an infinity plus a finite value stays; opposite infinities
give a NaN; an infinity times zero gives a NaN and times anything else an infinity with the exclusive or of the signs;
an exact zero sum is +0, also of two negative zeros, which is the model's reading of R8, log entry 8. `minNum` gives
the other operand for a NaN, else one of the two, with the lesser value. -/
def Obligations.SpecialValueArithmetic : Prop :=
  ∀ x y : Word,
    (isNaN x = true → fadd x y = none ∧ fadd y x = none ∧ fmul x y = none ∧ fmul y x = none) ∧
    (isInf x = true → isFinite y = true → fadd x y = some x ∧ fadd y x = some x) ∧
    (isInf x = true → isInf y = true → f32Sign x ≠ f32Sign y → fadd x y = none) ∧
    (isInf x = true → isInf y = true → f32Sign x = f32Sign y → fadd x y = some x) ∧
    (isInf x = true → isFinite y = true → f32Units y = 0 → fmul x y = none ∧ fmul y x = none) ∧
    (isInf x = true → isNaN y = false → f32Units y ≠ 0 →
      ∃ r, fmul x y = some r ∧ fmul y x = some r ∧ isInf r = true ∧ f32Sign r = (f32Sign x != f32Sign y)) ∧
    (isFinite x = true → isFinite y = true → f32Units x + f32Units y = 0 → fadd x y = some 0) ∧
    (faddResult none (some y) = none ∧ faddResult (some x) none = none ∧
      faddResult (some x) (some y) = fadd x y) ∧
    (minNum none y = y ∧ (isNaN x = true → minNum (some x) y = y) ∧
      (isNaN x = false → isNaN y = true → minNum (some x) y = x) ∧
      (isNaN x = false → isNaN y = false →
        (minNum (some x) y = x ∨ minNum (some x) y = y) ∧
        f32Units (minNum (some x) y) = min (f32Units x) (f32Units y)))
end

