-- ==== Sys2Proof/Laws/Memory.lean ====
section
/-! SUPPORT. The laws of the buffer memory: what a read after a write gives, that nothing else changes, and that
every operation keeps the canonical form and the address bound. -/

namespace Sys2Proof.Machine

theorem Memory.find_put_same (m : Memory) (a : Nat) (b : Byte) : Memory.find? (Memory.put m a b) a = some b := by
  induction m with
  | nil => simp [Memory.put, Memory.find?]
  | cons p m ih =>
    obtain ⟨k, c⟩ := p
    unfold Memory.put
    split
    · simp [Memory.find?]
    · split
      · simp [Memory.find?]
      · simp only [Memory.find?]
        rw [if_neg (by omega), ih]

theorem Memory.find_put_other (m : Memory) (a x : Nat) (b : Byte) (h : x ≠ a) :
    Memory.find? (Memory.put m a b) x = Memory.find? m x := by
  induction m with
  | nil => simp [Memory.put, Memory.find?, Ne.symm h]
  | cons p m ih =>
    obtain ⟨k, c⟩ := p
    unfold Memory.put
    split
    · simp [Memory.find?, Ne.symm h]
    · split
      · simp only [Memory.find?]
        rw [if_neg (Ne.symm h), if_neg (by omega)]
      · simp only [Memory.find?, ih]

theorem Memory.byteAt_put_same (m : Memory) (a : Nat) (b : Byte) : Memory.byteAt (Memory.put m a b) a = b := by
  simp [Memory.byteAt, Memory.find_put_same]

theorem Memory.byteAt_put_other (m : Memory) (a x : Nat) (b : Byte) (h : x ≠ a) :
    Memory.byteAt (Memory.put m a b) x = Memory.byteAt m x := by
  simp [Memory.byteAt, Memory.find_put_other m a x b h]

/-- What is listed after a write was listed before or is the byte written. -/
theorem Memory.mem_put (m : Memory) (a : Nat) (b : Byte) (c : Host.Cell) (h : c ∈ Memory.put m a b) :
    c = (a, b) ∨ c ∈ m := by
  induction m with
  | nil => simpa [Memory.put] using h
  | cons p m ih =>
    obtain ⟨k, d⟩ := p
    unfold Memory.put at h
    split at h
    · simpa using h
    · split at h
      · rcases List.mem_cons.1 h with h | h
        · exact .inl h
        · exact .inr (List.mem_cons_of_mem _ h)
      · rcases List.mem_cons.1 h with h | h
        · exact .inr (h ▸ List.mem_cons_self)
        · exact (ih h).imp id (List.mem_cons_of_mem _)

/-- One byte's write keeps the canonical form. -/
theorem Memory.put_wf (m : Memory) (a : Nat) (b : Byte) (h : Memory.wf m) : Memory.wf (Memory.put m a b) := by
  induction m with
  | nil => simp [Memory.put, Memory.wf]
  | cons p m ih =>
    obtain ⟨k, d⟩ := p
    obtain ⟨hk, hm⟩ := List.pairwise_cons.1 h
    unfold Memory.put
    split
    · refine List.pairwise_cons.2 ⟨fun c hc => ?_, h⟩
      rcases List.mem_cons.1 hc with rfl | hc
      · assumption
      · exact Nat.lt_trans ‹a < k› (hk c hc)
    · split
      · subst ‹a = k›
        exact List.pairwise_cons.2 ⟨hk, hm⟩
      · refine List.pairwise_cons.2 ⟨fun c hc => ?_, ih hm⟩
        rcases Memory.mem_put m a b c hc with rfl | hc
        · simp only
          omega
        · exact hk c hc

/-- Every byte sequence's write keeps the canonical form. -/
theorem Memory.write_wf (m : Memory) (a : Nat) (bs : List Byte) (h : Memory.wf m) :
    Memory.wf (Memory.write m a bs) := by
  induction bs generalizing m a with
  | nil => exact h
  | cons b bs ih => exact ih _ _ (Memory.put_wf m a b h)

/-- Every listed address lies below a bound. -/
abbrev Memory.Below (m : Memory) (n : Nat) : Prop := ∀ c ∈ m, c.1 < n

theorem Memory.put_below (m : Memory) (a n : Nat) (b : Byte) (h : Memory.Below m n) (ha : a < n) :
    Memory.Below (Memory.put m a b) n := by
  intro c hc
  rcases Memory.mem_put m a b c hc with rfl | hc
  · exact ha
  · exact h c hc

theorem Memory.write_below (m : Memory) (a n : Nat) (bs : List Byte) (h : Memory.Below m n)
    (ha : bs = [] ∨ a + bs.length ≤ n) : Memory.Below (Memory.write m a bs) n := by
  induction bs generalizing m a with
  | nil => exact h
  | cons b bs ih =>
    have ha' : a + (bs.length + 1) ≤ n := by simpa using ha
    exact ih _ _ (Memory.put_below m a n b h (by omega)) (.inr (by omega))

/-- A byte outside the written region reads as before. -/
theorem Memory.byteAt_write_outside (m : Memory) (a x : Nat) (bs : List Byte) (h : x < a ∨ a + bs.length ≤ x) :
    Memory.byteAt (Memory.write m a bs) x = Memory.byteAt m x := by
  induction bs generalizing m a with
  | nil => rfl
  | cons b bs ih =>
    simp only [List.length_cons] at h
    rw [Memory.write, ih _ _ (by omega), Memory.byteAt_put_other _ _ _ _ (by omega)]

/-- A byte of the written region reads as written. -/
theorem Memory.byteAt_write_inside (m : Memory) (a i : Nat) (bs : List Byte) (h : i < bs.length) :
    Memory.byteAt (Memory.write m a bs) (a + i) = bs[i] := by
  induction bs generalizing m a i with
  | nil => simp at h
  | cons b bs ih =>
    rw [Memory.write]
    cases i with
    | zero => rw [Memory.byteAt_write_outside _ _ _ _ (by omega)]; exact Memory.byteAt_put_same m a b
    | succ i =>
      have := ih (Memory.put m a b) (a + 1) i (by simpa using h)
      rw [show a + (i + 1) = a + 1 + i by omega, this]
      rfl

/-- Writing two sequences one after the other is writing their concatenation. -/
theorem Memory.write_append (m : Memory) (a : Nat) (bs cs : List Byte) :
    Memory.write m a (bs ++ cs) = Memory.write (Memory.write m a bs) (a + bs.length) cs := by
  induction bs generalizing m a with
  | nil => rfl
  | cons b bs ih =>
    simp only [List.cons_append, Memory.write, List.length_cons]
    rw [ih, show a + 1 + bs.length = a + (bs.length + 1) by omega]

@[simp] theorem Memory.read_length (m : Memory) (a n : Nat) : (Memory.read m a n).length = n := by
  simp [Memory.read]

theorem Memory.read_getElem (m : Memory) (a n i : Nat) (h : i < (Memory.read m a n).length) :
    (Memory.read m a n)[i] = Memory.byteAt m (a + i) := by
  simp [Memory.read]

/-- Reads depend only on the bytes read. -/
theorem Memory.read_congr (m m' : Memory) (a n : Nat)
    (h : ∀ i, i < n → Memory.byteAt m (a + i) = Memory.byteAt m' (a + i)) :
    Memory.read m a n = Memory.read m' a n := by
  apply List.map_congr_left
  intro i hi
  exact h i (List.mem_range.1 hi)

/-- Reading back a written sequence gives it. -/
theorem Memory.read_write (m : Memory) (a : Nat) (bs : List Byte) :
    Memory.read (Memory.write m a bs) a bs.length = bs := by
  apply List.ext_getElem
  · simp
  · intro i h₁ h₂
    rw [Memory.read_getElem, Memory.byteAt_write_inside]

@[simp] theorem bytesLE_length (n v : Nat) : (bytesLE n v).length = n := by simp [bytesLE]

theorem bytesLE_getElem (n v i : Nat) (h : i < (bytesLE n v).length) :
    (bytesLE n v)[i] = BitVec.ofNat 8 (v / 2 ^ (8 * i)) := by
  simp [bytesLE]

theorem bytesLE_succ (n v : Nat) : bytesLE (n + 1) v = BitVec.ofNat 8 v :: bytesLE n (v / 256) := by
  simp only [bytesLE, List.range_succ_eq_map, List.map_cons, List.map_map, Nat.mul_zero, Nat.pow_zero, Nat.div_one]
  congr 1
  apply List.map_congr_left
  intro i _
  simp only [Function.comp_apply, Nat.succ_eq_add_one, Nat.div_div_eq_div_mul]
  rw [show 8 * (i + 1) = 8 + 8 * i by omega, Nat.pow_add]

/-- The little-endian value of the n low bytes of v is v modulo 2^(8n) (20_memory.md R63). -/
theorem valueLE_bytesLE (n v : Nat) : valueLE (bytesLE n v) = v % 2 ^ (8 * n) := by
  induction n generalizing v with
  | zero => simp [bytesLE, valueLE, Nat.mod_one]
  | succ n ih =>
    rw [bytesLE_succ, valueLE, ih, BitVec.toNat_ofNat, show 8 * (n + 1) = 8 + 8 * n by omega, Nat.pow_add]
    exact (Nat.mod_mul).symm

theorem valueLE_lt (bs : List Byte) : valueLE bs < 2 ^ (8 * bs.length) := by
  induction bs with
  | nil => simp [valueLE]
  | cons b bs ih =>
    have := b.isLt
    rw [valueLE, List.length_cons, show 8 * (bs.length + 1) = 8 + 8 * bs.length by omega, Nat.pow_add]
    omega

/-- The bytes of a record, in address order (20_memory.md R64). -/
def Voxel.bytes (v : Voxel) : List Byte :=
  bytesLE 4 v.intensity.toNat ++ bytesLE 4 v.polarization.toNat ++ bytesLE 4 v.phase.toNat ++
    bytesLE 4 v.wavelength.toNat

@[simp] theorem Voxel.bytes_length (v : Voxel) : v.bytes.length = 16 := by simp [Voxel.bytes]

/-- A record's write is the write of its 16 bytes (20_memory.md R65). -/
theorem Memory.voxWrite_eq (m : Memory) (a : Nat) (v : Voxel) :
    Memory.voxWrite m a v = Memory.write m a v.bytes := by
  simp only [Memory.voxWrite, Memory.writeLE, Voxel.bytes, Memory.write_append, List.length_append, bytesLE_length]

/-- A sequence's write is the write of all its bytes. -/
theorem Memory.voxWriteAll_eq (m : Memory) (a : Nat) (vs : List Voxel) :
    Memory.voxWriteAll m a vs = Memory.write m a (vs.flatMap Voxel.bytes) := by
  induction vs generalizing m a with
  | nil => rfl
  | cons v vs ih =>
    rw [Memory.voxWriteAll, ih, Memory.voxWrite_eq, List.flatMap_cons, Memory.write_append, Voxel.bytes_length]

@[simp] theorem Voxel.flatMap_bytes_length (vs : List Voxel) : (vs.flatMap Voxel.bytes).length = 16 * vs.length := by
  induction vs with
  | nil => rfl
  | cons v vs ih => simp only [List.flatMap_cons, List.length_append, Voxel.bytes_length, ih, List.length_cons]; omega

/-- A 32-bit little-endian read after its write. -/
theorem Memory.readLE_writeLE (m : Memory) (a n v : Nat) :
    Memory.readLE (Memory.writeLE m a n v) a n = v % 2 ^ (8 * n) := by
  have h := Memory.read_write m a (bytesLE n v)
  rw [bytesLE_length] at h
  rw [Memory.readLE, Memory.writeLE, h, valueLE_bytesLE]

/-- Reads of other bytes are not changed by a write. -/
theorem Memory.read_write_outside (m : Memory) (a x n : Nat) (bs : List Byte)
    (h : x + n ≤ a ∨ a + bs.length ≤ x) : Memory.read (Memory.write m a bs) x n = Memory.read m x n :=
  Memory.read_congr _ _ _ _ fun i hi => Memory.byteAt_write_outside m a (x + i) bs (by omega)

/-- A record depends only on its 16 bytes. -/
theorem Memory.voxRead_congr (m m' : Memory) (a : Nat)
    (h : ∀ i, i < 16 → Memory.byteAt m (a + i) = Memory.byteAt m' (a + i)) :
    Memory.voxRead m a = Memory.voxRead m' a := by
  have field : ∀ j, j + 4 ≤ 16 → Memory.readLE m (a + j) 4 = Memory.readLE m' (a + j) 4 := fun j hj => by
    rw [Memory.readLE, Memory.readLE, Memory.read_congr m m' (a + j) 4 fun i hi => by
      rw [Nat.add_assoc]; exact h (j + i) (by omega)]
  simp only [Memory.voxRead, field 4 (by omega), field 8 (by omega), field 12 (by omega)]
  rw [show Memory.readLE m a 4 = Memory.readLE m' a 4 from field 0 (by omega)]

/-- Reading back a record gives it, bit for bit (20_memory.md R64, R65). -/
theorem Memory.voxRead_voxWrite (m : Memory) (a : Nat) (v : Voxel) :
    Memory.voxRead (Memory.voxWrite m a v) a = v := by
  have outside : ∀ (m : Memory) (a x w : Nat), x + 4 ≤ a ∨ a + 4 ≤ x →
      Memory.readLE (Memory.writeLE m a 4 w) x 4 = Memory.readLE m x 4 := fun m a x w h => by
    rw [Memory.readLE, Memory.readLE, Memory.writeLE, Memory.read_write_outside]
    simpa using h
  have low : ∀ w : Word, BitVec.ofNat 32 (w.toNat % 2 ^ (8 * 4)) = w := fun w => by
    rw [Nat.mod_eq_of_lt w.isLt, BitVec.ofNat_toNat, BitVec.setWidth_eq]
  obtain ⟨i, p, h, w⟩ := v
  simp only [Memory.voxRead, Memory.voxWrite, Voxel.mk.injEq]
  refine ⟨?_, ?_, ?_, ?_⟩
  · rw [outside _ _ _ _ (by omega), outside _ _ _ _ (by omega), outside _ _ _ _ (by omega),
      Memory.readLE_writeLE, low]
  · rw [outside _ _ _ _ (by omega), outside _ _ _ _ (by omega), Memory.readLE_writeLE, low]
  · rw [outside _ _ _ _ (by omega), Memory.readLE_writeLE, low]
  · rw [Memory.readLE_writeLE, low]

/-- Bytes outside the 16·n bytes of a sequence's write read as before. -/
theorem Memory.byteAt_voxWriteAll_outside (m : Memory) (a x : Nat) (vs : List Voxel)
    (h : x < a ∨ a + 16 * vs.length ≤ x) :
    Memory.byteAt (Memory.voxWriteAll m a vs) x = Memory.byteAt m x := by
  rw [Memory.voxWriteAll_eq, Memory.byteAt_write_outside]
  rwa [Voxel.flatMap_bytes_length]

/-- Record i of a written sequence reads back as written. -/
theorem Memory.voxRead_voxWriteAll (m : Memory) (a i : Nat) (vs : List Voxel) (h : i < vs.length) :
    Memory.voxRead (Memory.voxWriteAll m a vs) (a + 16 * i) = vs[i] := by
  induction vs generalizing m a i with
  | nil => simp at h
  | cons v vs ih =>
    rw [Memory.voxWriteAll]
    cases i with
    | zero =>
      rw [Memory.voxRead_congr _ (Memory.voxWrite m a v) _ fun j hj =>
        Memory.byteAt_voxWriteAll_outside _ _ _ _ (by omega)]
      exact Memory.voxRead_voxWrite m a v
    | succ i =>
      rw [show a + 16 * (i + 1) = a + 16 + 16 * i by omega, ih _ _ _ (by simpa using h)]
      rfl

@[simp] theorem Memory.voxels_length (m : Memory) (a n : Nat) : (Memory.voxels m a n).length = n := by
  simp [Memory.voxels]

theorem Memory.voxels_getElem (m : Memory) (a n i : Nat) (h : i < (Memory.voxels m a n).length) :
    (Memory.voxels m a n)[i] = Memory.voxRead m (a + 16 * i) := by
  simp [Memory.voxels]

/-- A sequence depends only on its 16·n bytes. -/
theorem Memory.voxels_congr (m m' : Memory) (a n : Nat)
    (h : ∀ i, i < 16 * n → Memory.byteAt m (a + i) = Memory.byteAt m' (a + i)) :
    Memory.voxels m a n = Memory.voxels m' a n := by
  apply List.map_congr_left
  intro i hi
  have := List.mem_range.1 hi
  exact Memory.voxRead_congr m m' _ fun j hj => by
    rw [Nat.add_assoc]; exact h (16 * i + j) (by omega)

/-- Reading back a written sequence of records gives it. -/
theorem Memory.voxels_voxWriteAll (m : Memory) (a : Nat) (vs : List Voxel) :
    Memory.voxels (Memory.voxWriteAll m a vs) a vs.length = vs := by
  apply List.ext_getElem
  · simp
  · intro i h₁ h₂
    rw [Memory.voxels_getElem, Memory.voxRead_voxWriteAll]

theorem Memory.writeLE_wf (m : Memory) (a n v : Nat) (h : Memory.wf m) : Memory.wf (Memory.writeLE m a n v) :=
  Memory.write_wf m a _ h

theorem Memory.voxWriteAll_wf (m : Memory) (a : Nat) (vs : List Voxel) (h : Memory.wf m) :
    Memory.wf (Memory.voxWriteAll m a vs) := by
  rw [Memory.voxWriteAll_eq]
  exact Memory.write_wf m a _ h

theorem Memory.voxWriteAll_below (m : Memory) (a n : Nat) (vs : List Voxel) (h : Memory.Below m n)
    (ha : vs = [] ∨ a + 16 * vs.length ≤ n) : Memory.Below (Memory.voxWriteAll m a vs) n := by
  rw [Memory.voxWriteAll_eq]
  refine Memory.write_below m a n _ h (ha.imp (fun h => by rw [h]; rfl) fun h => ?_)
  rwa [Voxel.flatMap_bytes_length]

end Sys2Proof.Machine
end

