-- ==== Sys2Proof/Laws/State.lean ====
section
/-! SUPPORT. One lemma per field of `State` for each update of the machine, so that no proof unfolds a record
update, and the fields of STATUS at issue and completion. -/

namespace Sys2Proof.Machine

variable (s : State)

section
variable (v : Word)
@[simp] theorem State.issue_cmd : (s.issue v).cmd = v := rfl
@[simp] theorem State.issue_status : (s.issue v).status = Status.issued := rfl
@[simp] theorem State.issue_srcAddr : (s.issue v).srcAddr = s.srcAddr := rfl
@[simp] theorem State.issue_srcLen : (s.issue v).srcLen = s.srcLen := rfl
@[simp] theorem State.issue_src2Addr : (s.issue v).src2Addr = s.src2Addr := rfl
@[simp] theorem State.issue_src2Len : (s.issue v).src2Len = s.src2Len := rfl
@[simp] theorem State.issue_dstAddr : (s.issue v).dstAddr = s.dstAddr := rfl
@[simp] theorem State.issue_dstLen : (s.issue v).dstLen = 0 := rfl
@[simp] theorem State.issue_param : (s.issue v).param = s.param := rfl
@[simp] theorem State.issue_geomW : (s.issue v).geomW = s.geomW := rfl
@[simp] theorem State.issue_geomH : (s.issue v).geomH = s.geomH := rfl
@[simp] theorem State.issue_mem : (s.issue v).mem = s.mem := rfl
@[simp] theorem State.issue_noiseDraws : (s.issue v).noiseDraws = s.noiseDraws := rfl
@[simp] theorem State.issue_resetDraws : (s.issue v).resetDraws = s.resetDraws := rfl
@[simp] theorem State.issue_cfg : (s.issue v).cfg = s.cfg := rfl
@[simp] theorem State.issue_prog : (s.issue v).prog = s.prog := rfl
@[simp] theorem State.issue_sched : (s.issue v).sched = s.sched := rfl
@[simp] theorem State.issue_reads : (s.issue v).reads = s.reads := rfl
@[simp] theorem State.issue_unsynced : (s.issue v).unsynced = true := rfl
end

section
variable (c : Code)
@[simp] theorem State.complete_cmd : (s.complete c).cmd = s.cmd := rfl
@[simp] theorem State.complete_status : (s.complete c).status = s.status.completed c := rfl
@[simp] theorem State.complete_srcAddr : (s.complete c).srcAddr = s.srcAddr := rfl
@[simp] theorem State.complete_srcLen : (s.complete c).srcLen = s.srcLen := rfl
@[simp] theorem State.complete_src2Addr : (s.complete c).src2Addr = s.src2Addr := rfl
@[simp] theorem State.complete_src2Len : (s.complete c).src2Len = s.src2Len := rfl
@[simp] theorem State.complete_dstAddr : (s.complete c).dstAddr = s.dstAddr := rfl
@[simp] theorem State.complete_dstLen : (s.complete c).dstLen = s.dstLen := rfl
@[simp] theorem State.complete_param : (s.complete c).param = s.param := rfl
@[simp] theorem State.complete_geomW : (s.complete c).geomW = s.geomW := rfl
@[simp] theorem State.complete_geomH : (s.complete c).geomH = s.geomH := rfl
@[simp] theorem State.complete_mem : (s.complete c).mem = s.mem := rfl
@[simp] theorem State.complete_noiseDraws : (s.complete c).noiseDraws = s.noiseDraws := rfl
@[simp] theorem State.complete_resetDraws : (s.complete c).resetDraws = s.resetDraws := rfl
@[simp] theorem State.complete_cfg : (s.complete c).cfg = s.cfg := rfl
@[simp] theorem State.complete_prog : (s.complete c).prog = s.prog := rfl
@[simp] theorem State.complete_sched : (s.complete c).sched = s.sched := rfl
@[simp] theorem State.complete_reads : (s.complete c).reads = s.reads := rfl
@[simp] theorem State.complete_unsynced : (s.complete c).unsynced = s.unsynced := rfl
end

section
variable (n : Nat)
@[simp] theorem State.setDstLen_cmd : (s.setDstLen n).cmd = s.cmd := rfl
@[simp] theorem State.setDstLen_status : (s.setDstLen n).status = s.status := rfl
@[simp] theorem State.setDstLen_srcAddr : (s.setDstLen n).srcAddr = s.srcAddr := rfl
@[simp] theorem State.setDstLen_srcLen : (s.setDstLen n).srcLen = s.srcLen := rfl
@[simp] theorem State.setDstLen_src2Addr : (s.setDstLen n).src2Addr = s.src2Addr := rfl
@[simp] theorem State.setDstLen_src2Len : (s.setDstLen n).src2Len = s.src2Len := rfl
@[simp] theorem State.setDstLen_dstAddr : (s.setDstLen n).dstAddr = s.dstAddr := rfl
@[simp] theorem State.setDstLen_dstLen : (s.setDstLen n).dstLen = BitVec.ofNat 32 n := rfl
@[simp] theorem State.setDstLen_param : (s.setDstLen n).param = s.param := rfl
@[simp] theorem State.setDstLen_geomW : (s.setDstLen n).geomW = s.geomW := rfl
@[simp] theorem State.setDstLen_geomH : (s.setDstLen n).geomH = s.geomH := rfl
@[simp] theorem State.setDstLen_mem : (s.setDstLen n).mem = s.mem := rfl
@[simp] theorem State.setDstLen_noiseDraws : (s.setDstLen n).noiseDraws = s.noiseDraws := rfl
@[simp] theorem State.setDstLen_resetDraws : (s.setDstLen n).resetDraws = s.resetDraws := rfl
@[simp] theorem State.setDstLen_cfg : (s.setDstLen n).cfg = s.cfg := rfl
@[simp] theorem State.setDstLen_prog : (s.setDstLen n).prog = s.prog := rfl
@[simp] theorem State.setDstLen_sched : (s.setDstLen n).sched = s.sched := rfl
@[simp] theorem State.setDstLen_reads : (s.setDstLen n).reads = s.reads := rfl
@[simp] theorem State.setDstLen_unsynced : (s.setDstLen n).unsynced = s.unsynced := rfl
end

section
variable (b : Bool)
@[simp] theorem State.setResult_cmd : (s.setResult b).cmd = s.cmd := rfl
@[simp] theorem State.setResult_status : (s.setResult b).status = { s.status with result := b } := rfl
@[simp] theorem State.setResult_srcAddr : (s.setResult b).srcAddr = s.srcAddr := rfl
@[simp] theorem State.setResult_srcLen : (s.setResult b).srcLen = s.srcLen := rfl
@[simp] theorem State.setResult_src2Addr : (s.setResult b).src2Addr = s.src2Addr := rfl
@[simp] theorem State.setResult_src2Len : (s.setResult b).src2Len = s.src2Len := rfl
@[simp] theorem State.setResult_dstAddr : (s.setResult b).dstAddr = s.dstAddr := rfl
@[simp] theorem State.setResult_dstLen : (s.setResult b).dstLen = s.dstLen := rfl
@[simp] theorem State.setResult_param : (s.setResult b).param = s.param := rfl
@[simp] theorem State.setResult_geomW : (s.setResult b).geomW = s.geomW := rfl
@[simp] theorem State.setResult_geomH : (s.setResult b).geomH = s.geomH := rfl
@[simp] theorem State.setResult_mem : (s.setResult b).mem = s.mem := rfl
@[simp] theorem State.setResult_noiseDraws : (s.setResult b).noiseDraws = s.noiseDraws := rfl
@[simp] theorem State.setResult_resetDraws : (s.setResult b).resetDraws = s.resetDraws := rfl
@[simp] theorem State.setResult_cfg : (s.setResult b).cfg = s.cfg := rfl
@[simp] theorem State.setResult_prog : (s.setResult b).prog = s.prog := rfl
@[simp] theorem State.setResult_sched : (s.setResult b).sched = s.sched := rfl
@[simp] theorem State.setResult_reads : (s.setResult b).reads = s.reads := rfl
@[simp] theorem State.setResult_unsynced : (s.setResult b).unsynced = s.unsynced := rfl
end

section
variable (m : Memory)
@[simp] theorem State.setMem_cmd : (s.setMem m).cmd = s.cmd := rfl
@[simp] theorem State.setMem_status : (s.setMem m).status = s.status := rfl
@[simp] theorem State.setMem_srcAddr : (s.setMem m).srcAddr = s.srcAddr := rfl
@[simp] theorem State.setMem_srcLen : (s.setMem m).srcLen = s.srcLen := rfl
@[simp] theorem State.setMem_src2Addr : (s.setMem m).src2Addr = s.src2Addr := rfl
@[simp] theorem State.setMem_src2Len : (s.setMem m).src2Len = s.src2Len := rfl
@[simp] theorem State.setMem_dstAddr : (s.setMem m).dstAddr = s.dstAddr := rfl
@[simp] theorem State.setMem_dstLen : (s.setMem m).dstLen = s.dstLen := rfl
@[simp] theorem State.setMem_param : (s.setMem m).param = s.param := rfl
@[simp] theorem State.setMem_geomW : (s.setMem m).geomW = s.geomW := rfl
@[simp] theorem State.setMem_geomH : (s.setMem m).geomH = s.geomH := rfl
@[simp] theorem State.setMem_mem : (s.setMem m).mem = m := rfl
@[simp] theorem State.setMem_noiseDraws : (s.setMem m).noiseDraws = s.noiseDraws := rfl
@[simp] theorem State.setMem_resetDraws : (s.setMem m).resetDraws = s.resetDraws := rfl
@[simp] theorem State.setMem_cfg : (s.setMem m).cfg = s.cfg := rfl
@[simp] theorem State.setMem_prog : (s.setMem m).prog = s.prog := rfl
@[simp] theorem State.setMem_sched : (s.setMem m).sched = s.sched := rfl
@[simp] theorem State.setMem_reads : (s.setMem m).reads = s.reads := rfl
@[simp] theorem State.setMem_unsynced : (s.setMem m).unsynced = s.unsynced := rfl
end

section
variable (n : Nat)
@[simp] theorem State.takeDraws_cmd : (s.takeDraws n).cmd = s.cmd := rfl
@[simp] theorem State.takeDraws_status : (s.takeDraws n).status = s.status := rfl
@[simp] theorem State.takeDraws_srcAddr : (s.takeDraws n).srcAddr = s.srcAddr := rfl
@[simp] theorem State.takeDraws_srcLen : (s.takeDraws n).srcLen = s.srcLen := rfl
@[simp] theorem State.takeDraws_src2Addr : (s.takeDraws n).src2Addr = s.src2Addr := rfl
@[simp] theorem State.takeDraws_src2Len : (s.takeDraws n).src2Len = s.src2Len := rfl
@[simp] theorem State.takeDraws_dstAddr : (s.takeDraws n).dstAddr = s.dstAddr := rfl
@[simp] theorem State.takeDraws_dstLen : (s.takeDraws n).dstLen = s.dstLen := rfl
@[simp] theorem State.takeDraws_param : (s.takeDraws n).param = s.param := rfl
@[simp] theorem State.takeDraws_geomW : (s.takeDraws n).geomW = s.geomW := rfl
@[simp] theorem State.takeDraws_geomH : (s.takeDraws n).geomH = s.geomH := rfl
@[simp] theorem State.takeDraws_mem : (s.takeDraws n).mem = s.mem := rfl
@[simp] theorem State.takeDraws_noiseDraws : (s.takeDraws n).noiseDraws = s.noiseDraws + n := rfl
@[simp] theorem State.takeDraws_resetDraws : (s.takeDraws n).resetDraws = s.resetDraws := rfl
@[simp] theorem State.takeDraws_cfg : (s.takeDraws n).cfg = s.cfg := rfl
@[simp] theorem State.takeDraws_prog : (s.takeDraws n).prog = s.prog := rfl
@[simp] theorem State.takeDraws_sched : (s.takeDraws n).sched = s.sched := rfl
@[simp] theorem State.takeDraws_reads : (s.takeDraws n).reads = s.reads := rfl
@[simp] theorem State.takeDraws_unsynced : (s.takeDraws n).unsynced = s.unsynced := rfl
end

section
variable (m : Memory) (n : Nat) (c : Code)
@[simp] theorem State.finish_cmd : (s.finish m n c).cmd = s.cmd := rfl
@[simp] theorem State.finish_status : (s.finish m n c).status = s.status.completed c := rfl
@[simp] theorem State.finish_srcAddr : (s.finish m n c).srcAddr = s.srcAddr := rfl
@[simp] theorem State.finish_srcLen : (s.finish m n c).srcLen = s.srcLen := rfl
@[simp] theorem State.finish_src2Addr : (s.finish m n c).src2Addr = s.src2Addr := rfl
@[simp] theorem State.finish_src2Len : (s.finish m n c).src2Len = s.src2Len := rfl
@[simp] theorem State.finish_dstAddr : (s.finish m n c).dstAddr = s.dstAddr := rfl
@[simp] theorem State.finish_dstLen : (s.finish m n c).dstLen = BitVec.ofNat 32 n := rfl
@[simp] theorem State.finish_param : (s.finish m n c).param = s.param := rfl
@[simp] theorem State.finish_geomW : (s.finish m n c).geomW = s.geomW := rfl
@[simp] theorem State.finish_geomH : (s.finish m n c).geomH = s.geomH := rfl
@[simp] theorem State.finish_mem : (s.finish m n c).mem = m := rfl
@[simp] theorem State.finish_noiseDraws : (s.finish m n c).noiseDraws = s.noiseDraws := rfl
@[simp] theorem State.finish_resetDraws : (s.finish m n c).resetDraws = s.resetDraws := rfl
@[simp] theorem State.finish_cfg : (s.finish m n c).cfg = s.cfg := rfl
@[simp] theorem State.finish_prog : (s.finish m n c).prog = s.prog := rfl
@[simp] theorem State.finish_sched : (s.finish m n c).sched = s.sched := rfl
@[simp] theorem State.finish_reads : (s.finish m n c).reads = s.reads := rfl
@[simp] theorem State.finish_unsynced : (s.finish m n c).unsynced = s.unsynced := rfl
end

section
variable (v : Nat)
@[simp] theorem State.noteRead_cmd : (s.noteRead v).cmd = s.cmd := rfl
@[simp] theorem State.noteRead_status : (s.noteRead v).status = s.status := rfl
@[simp] theorem State.noteRead_srcAddr : (s.noteRead v).srcAddr = s.srcAddr := rfl
@[simp] theorem State.noteRead_srcLen : (s.noteRead v).srcLen = s.srcLen := rfl
@[simp] theorem State.noteRead_src2Addr : (s.noteRead v).src2Addr = s.src2Addr := rfl
@[simp] theorem State.noteRead_src2Len : (s.noteRead v).src2Len = s.src2Len := rfl
@[simp] theorem State.noteRead_dstAddr : (s.noteRead v).dstAddr = s.dstAddr := rfl
@[simp] theorem State.noteRead_dstLen : (s.noteRead v).dstLen = s.dstLen := rfl
@[simp] theorem State.noteRead_param : (s.noteRead v).param = s.param := rfl
@[simp] theorem State.noteRead_geomW : (s.noteRead v).geomW = s.geomW := rfl
@[simp] theorem State.noteRead_geomH : (s.noteRead v).geomH = s.geomH := rfl
@[simp] theorem State.noteRead_mem : (s.noteRead v).mem = s.mem := rfl
@[simp] theorem State.noteRead_noiseDraws : (s.noteRead v).noiseDraws = s.noiseDraws := rfl
@[simp] theorem State.noteRead_resetDraws : (s.noteRead v).resetDraws = s.resetDraws := rfl
@[simp] theorem State.noteRead_cfg : (s.noteRead v).cfg = s.cfg := rfl
@[simp] theorem State.noteRead_prog : (s.noteRead v).prog = s.prog := rfl
@[simp] theorem State.noteRead_sched : (s.noteRead v).sched = s.sched := rfl
@[simp] theorem State.noteRead_reads : (s.noteRead v).reads = v :: s.reads := rfl
@[simp] theorem State.noteRead_unsynced : (s.noteRead v).unsynced = s.unsynced := rfl
end

section
variable (off : Nat)
@[simp] theorem State.hostRegRead_cmd : (s.hostRegRead off).cmd = s.cmd := rfl
@[simp] theorem State.hostRegRead_status : (s.hostRegRead off).status = s.status := rfl
@[simp] theorem State.hostRegRead_srcAddr : (s.hostRegRead off).srcAddr = s.srcAddr := rfl
@[simp] theorem State.hostRegRead_srcLen : (s.hostRegRead off).srcLen = s.srcLen := rfl
@[simp] theorem State.hostRegRead_src2Addr : (s.hostRegRead off).src2Addr = s.src2Addr := rfl
@[simp] theorem State.hostRegRead_src2Len : (s.hostRegRead off).src2Len = s.src2Len := rfl
@[simp] theorem State.hostRegRead_dstAddr : (s.hostRegRead off).dstAddr = s.dstAddr := rfl
@[simp] theorem State.hostRegRead_dstLen : (s.hostRegRead off).dstLen = s.dstLen := rfl
@[simp] theorem State.hostRegRead_param : (s.hostRegRead off).param = s.param := rfl
@[simp] theorem State.hostRegRead_geomW : (s.hostRegRead off).geomW = s.geomW := rfl
@[simp] theorem State.hostRegRead_geomH : (s.hostRegRead off).geomH = s.geomH := rfl
@[simp] theorem State.hostRegRead_mem : (s.hostRegRead off).mem = s.mem := rfl
@[simp] theorem State.hostRegRead_noiseDraws : (s.hostRegRead off).noiseDraws = s.noiseDraws := rfl
@[simp] theorem State.hostRegRead_resetDraws : (s.hostRegRead off).resetDraws = s.resetDraws := rfl
@[simp] theorem State.hostRegRead_cfg : (s.hostRegRead off).cfg = s.cfg := rfl
@[simp] theorem State.hostRegRead_prog : (s.hostRegRead off).prog = s.prog := rfl
@[simp] theorem State.hostRegRead_sched : (s.hostRegRead off).sched = s.sched := rfl
@[simp] theorem State.hostRegRead_reads : (s.hostRegRead off).reads = (s.regRead off).toNat :: s.reads := rfl
@[simp] theorem State.hostRegRead_unsynced : (s.hostRegRead off).unsynced = (s.unsynced && !(off == 0x04 && !s.status.busy)) := rfl
end

section
variable (ops : List HostOp)
@[simp] theorem State.setProg_cmd : (s.setProg ops).cmd = s.cmd := rfl
@[simp] theorem State.setProg_status : (s.setProg ops).status = s.status := rfl
@[simp] theorem State.setProg_srcAddr : (s.setProg ops).srcAddr = s.srcAddr := rfl
@[simp] theorem State.setProg_srcLen : (s.setProg ops).srcLen = s.srcLen := rfl
@[simp] theorem State.setProg_src2Addr : (s.setProg ops).src2Addr = s.src2Addr := rfl
@[simp] theorem State.setProg_src2Len : (s.setProg ops).src2Len = s.src2Len := rfl
@[simp] theorem State.setProg_dstAddr : (s.setProg ops).dstAddr = s.dstAddr := rfl
@[simp] theorem State.setProg_dstLen : (s.setProg ops).dstLen = s.dstLen := rfl
@[simp] theorem State.setProg_param : (s.setProg ops).param = s.param := rfl
@[simp] theorem State.setProg_geomW : (s.setProg ops).geomW = s.geomW := rfl
@[simp] theorem State.setProg_geomH : (s.setProg ops).geomH = s.geomH := rfl
@[simp] theorem State.setProg_mem : (s.setProg ops).mem = s.mem := rfl
@[simp] theorem State.setProg_noiseDraws : (s.setProg ops).noiseDraws = s.noiseDraws := rfl
@[simp] theorem State.setProg_resetDraws : (s.setProg ops).resetDraws = s.resetDraws := rfl
@[simp] theorem State.setProg_cfg : (s.setProg ops).cfg = s.cfg := rfl
@[simp] theorem State.setProg_prog : (s.setProg ops).prog = ops := rfl
@[simp] theorem State.setProg_sched : (s.setProg ops).sched = s.sched := rfl
@[simp] theorem State.setProg_reads : (s.setProg ops).reads = s.reads := rfl
@[simp] theorem State.setProg_unsynced : (s.setProg ops).unsynced = s.unsynced := rfl
end

section
@[simp] theorem State.takeTurn_cmd : s.takeTurn.cmd = s.cmd := rfl
@[simp] theorem State.takeTurn_status : s.takeTurn.status = s.status := rfl
@[simp] theorem State.takeTurn_srcAddr : s.takeTurn.srcAddr = s.srcAddr := rfl
@[simp] theorem State.takeTurn_srcLen : s.takeTurn.srcLen = s.srcLen := rfl
@[simp] theorem State.takeTurn_src2Addr : s.takeTurn.src2Addr = s.src2Addr := rfl
@[simp] theorem State.takeTurn_src2Len : s.takeTurn.src2Len = s.src2Len := rfl
@[simp] theorem State.takeTurn_dstAddr : s.takeTurn.dstAddr = s.dstAddr := rfl
@[simp] theorem State.takeTurn_dstLen : s.takeTurn.dstLen = s.dstLen := rfl
@[simp] theorem State.takeTurn_param : s.takeTurn.param = s.param := rfl
@[simp] theorem State.takeTurn_geomW : s.takeTurn.geomW = s.geomW := rfl
@[simp] theorem State.takeTurn_geomH : s.takeTurn.geomH = s.geomH := rfl
@[simp] theorem State.takeTurn_mem : s.takeTurn.mem = s.mem := rfl
@[simp] theorem State.takeTurn_noiseDraws : s.takeTurn.noiseDraws = s.noiseDraws := rfl
@[simp] theorem State.takeTurn_resetDraws : s.takeTurn.resetDraws = s.resetDraws := rfl
@[simp] theorem State.takeTurn_cfg : s.takeTurn.cfg = s.cfg := rfl
@[simp] theorem State.takeTurn_prog : s.takeTurn.prog = s.prog := rfl
@[simp] theorem State.takeTurn_sched : s.takeTurn.sched = s.sched.tail := rfl
@[simp] theorem State.takeTurn_reads : s.takeTurn.reads = s.reads := rfl
@[simp] theorem State.takeTurn_unsynced : s.takeTurn.unsynced = s.unsynced := rfl
end

@[simp] theorem State.resetInput_cmd : s.resetInput.cmd = 0 := rfl
@[simp] theorem State.resetInput_srcAddr : s.resetInput.srcAddr = 0 := rfl
@[simp] theorem State.resetInput_srcLen : s.resetInput.srcLen = 0 := rfl
@[simp] theorem State.resetInput_src2Addr : s.resetInput.src2Addr = 0 := rfl
@[simp] theorem State.resetInput_src2Len : s.resetInput.src2Len = 0 := rfl
@[simp] theorem State.resetInput_dstAddr : s.resetInput.dstAddr = 0 := rfl
@[simp] theorem State.resetInput_dstLen : s.resetInput.dstLen = 0 := rfl
@[simp] theorem State.resetInput_param : s.resetInput.param = 0 := rfl
@[simp] theorem State.resetInput_geomW : s.resetInput.geomW = 0 := rfl
@[simp] theorem State.resetInput_geomH : s.resetInput.geomH = 0 := rfl
@[simp] theorem State.resetInput_status : s.resetInput.status = Status.idle := rfl
@[simp] theorem State.resetInput_unsynced : s.resetInput.unsynced = false := rfl
@[simp] theorem State.resetInput_mem : s.resetInput.mem = s.forgetAbandoned.mem := rfl
@[simp] theorem State.resetInput_resetDraws : s.resetInput.resetDraws = s.forgetAbandoned.resetDraws := rfl
@[simp] theorem State.forgetAbandoned_noiseDraws : s.forgetAbandoned.noiseDraws = s.noiseDraws := by
  unfold State.forgetAbandoned; split <;> rfl
@[simp] theorem State.resetInput_noiseDraws : s.resetInput.noiseDraws = s.noiseDraws := State.forgetAbandoned_noiseDraws s
@[simp] theorem State.forgetAbandoned_cfg : s.forgetAbandoned.cfg = s.cfg := by
  unfold State.forgetAbandoned; split <;> rfl
@[simp] theorem State.resetInput_cfg : s.resetInput.cfg = s.cfg := State.forgetAbandoned_cfg s
@[simp] theorem State.forgetAbandoned_prog : s.forgetAbandoned.prog = s.prog := by
  unfold State.forgetAbandoned; split <;> rfl
@[simp] theorem State.resetInput_prog : s.resetInput.prog = s.prog := State.forgetAbandoned_prog s
@[simp] theorem State.forgetAbandoned_sched : s.forgetAbandoned.sched = s.sched := by
  unfold State.forgetAbandoned; split <;> rfl
@[simp] theorem State.resetInput_sched : s.resetInput.sched = s.sched := State.forgetAbandoned_sched s
@[simp] theorem State.forgetAbandoned_reads : s.forgetAbandoned.reads = s.reads := by
  unfold State.forgetAbandoned; split <;> rfl
@[simp] theorem State.resetInput_reads : s.resetInput.reads = s.reads := State.forgetAbandoned_reads s

@[simp] theorem Status.issued_busy : Status.issued.busy = true := rfl
@[simp] theorem Status.issued_done : Status.issued.done = false := rfl
@[simp] theorem Status.issued_err : Status.issued.err = 0 := rfl
@[simp] theorem Status.issued_result : Status.issued.result = false := rfl
@[simp] theorem Status.idle_busy : Status.idle.busy = false := rfl
@[simp] theorem Status.idle_done : Status.idle.done = false := rfl
@[simp] theorem Status.idle_err : Status.idle.err = 0 := rfl
@[simp] theorem Status.idle_result : Status.idle.result = false := rfl
@[simp] theorem Status.completed_busy (st : Status) (c : Code) : (st.completed c).busy = false := rfl
@[simp] theorem Status.completed_done (st : Status) (c : Code) : (st.completed c).done = true := rfl
@[simp] theorem Status.completed_err (st : Status) (c : Code) : (st.completed c).err = c.bits := rfl
@[simp] theorem Status.completed_result (st : Status) (c : Code) : (st.completed c).result = st.result := rfl

/-- Every completion code is at most 6 (60_exceptions.md R200). -/
theorem Code.bits_le (c : Code) : c.bits ≤ 6#4 := by cases c <;> decide

/-- Distinct codes have distinct values. -/
theorem Code.bits_injective (c d : Code) (h : c.bits = d.bits) : c = d := by
  cases c <;> cases d <;> first | rfl | exact absurd h (by decide)

end Sys2Proof.Machine
end

