-- ==== Sys2Proof/Laws/Ops.lean ====
section
/-! SUPPORT. For each shared operation, once, everything it can do: the region checks, the draws, the commands'
completion, host accesses and steps. -/

namespace Sys2Proof.Machine

theorem inRange_iff (n : Nat) (r : Region) : inRange n r = true ↔ r.extent = 0 ∨ r.start + r.extent ≤ n := by
  simp [inRange]

/-- No overlap, in the form address arithmetic uses (20_memory.md R69). -/
theorem overlaps_false_iff (r q : Region) :
    overlaps r q = false ↔
      r.extent = 0 ∨ q.extent = 0 ∨ r.start + r.extent ≤ q.start ∨ q.start + q.extent ≤ r.start := by
  simp only [overlaps, Bool.and_eq_false_iff, decide_eq_false_iff_not]
  omega

/-- The region checks answer no code exactly when all regions are in range and the destination overlaps no
source. -/
theorem regionError_none_iff (i : Instr) (s : State) :
    regionError i s = none ↔ allInRange i s = true ∧ destinationOverlaps i s = false := by
  unfold regionError
  cases allInRange i s <;> cases destinationOverlaps i s <;> simp

/-- The region checks answer RANGE or OVERLAP only. -/
theorem regionError_some (i : Instr) (s : State) (c : Code) (h : regionError i s = some c) :
    c = .range ∨ c = .overlap := by
  unfold regionError at h
  split at h
  · exact .inl (Option.some.inj h).symm
  · split at h
    · exact .inr (Option.some.inj h).symm
    · cases h

/-- A guarded command completes with a region error and nothing else, or goes on. -/
theorem guardRegions_cases (s : State) (i : Instr) (ok : State) :
    (regionError i s = none ∧ s.guardRegions i ok = ok) ∨
    (∃ c, (c = .range ∨ c = .overlap) ∧ regionError i s = some c ∧ s.guardRegions i ok = s.complete c) := by
  unfold State.guardRegions
  cases h : regionError i s with
  | none => exact .inl ⟨rfl, rfl⟩
  | some c => exact .inr ⟨c, regionError_some i s c h, rfl, rfl⟩

theorem guardRegions_ok (s : State) (i : Instr) (ok : State) (h : regionError i s = none) :
    s.guardRegions i ok = ok := by
  simp [State.guardRegions, h]

/-- Every draw with a bound that is not negative is a sample the NoiseSource may give (10_state.md R45). -/
theorem drawAt_allowed (k : Nat) (b : Word) (h : 0 ≤ f32Units b) : allowedSample b (drawAt k b) = true := by
  unfold drawAt
  split
  · assumption
  · have h0 : f32Units (0 : Word) = 0 := by decide
    have hf : isFinite (0 : Word) = true := by decide
    simp only [allowedSample, h0, hf, Bool.true_and, Bool.and_eq_true, decide_eq_true_eq]
    omega

/-- The free NaN is a NaN (41_noise_crosstalk.md R152). -/
theorem nanAt_isNaN (k : Nat) : isNaN (nanAt k) = true := by
  unfold nanAt
  split
  · assumption
  · decide

@[simp] theorem noisyVoxels_length (bs : Bounds) (k : Nat) (vs : List Voxel) :
    (noisyVoxels bs k vs).length = vs.length := by
  induction vs generalizing k with
  | nil => rfl
  | cons v vs ih => simp [noisyVoxels, ih]

/-- Voxel i uses the four draws from the (k + 4·i)-th on. -/
theorem noisyVoxels_getElem (bs : Bounds) (k i : Nat) (vs : List Voxel) (h : i < (noisyVoxels bs k vs).length)
    (h' : i < vs.length) : (noisyVoxels bs k vs)[i] = noisyVoxel bs (k + 4 * i) vs[i] := by
  induction vs generalizing k i with
  | nil => simp at h'
  | cons v vs ih =>
    cases i with
    | zero => rfl
    | succ i =>
      simp only [noisyVoxels, List.getElem_cons_succ]
      rw [ih (k + 4) i (by simpa using h') (by simpa using h'), show k + 4 + 4 * i = k + 4 * (i + 1) by omega]

@[simp] theorem crosstalk_length (k : Word) (wd ht : Nat) (vs : List Voxel) :
    (crosstalk k wd ht vs).length = vs.length := by
  unfold crosstalk
  split <;> simp

theorem padded_length (bytes : List Byte) : (padded bytes).length = 10 * addShardSize bytes.length := by
  simp only [padded, List.length_append, List.length_replicate, dataShards, addShardSize]
  omega

theorem parity_flatten_length (p : Params) (data : List (List Byte)) (size : Nat) :
    (parity p data size).flatten.length = 4 * size := by
  simp [parity, parityShards, List.range_succ]
  omega

theorem protect_length (p : Params) (bytes : List Byte) :
    (protect p bytes).length = 14 * addShardSize bytes.length := by
  simp only [protect, List.length_append, padded_length, parity_flatten_length]
  omega

/-- A command past its checks: it wrote bytes that fill its destination region, set DST_LEN, took draws, and
completed with OK, or with ECC_INTEGRITY when ECCREC surfaces. -/
def CommandWrote (i : Instr) (s t : State) : Prop :=
  ∃ (d : Region) (bytes : List Byte) (count draws : Nat) (c : Code),
    regionError i s = none ∧ destination i s = some d ∧ bytes.length = d.extent ∧
    t = (s.takeDraws draws).finish (Memory.write s.mem d.start bytes) count c ∧
    (c = .ok ∨ (c = .eccIntegrity ∧ i = .eccrec true))

/-- A write of bytes that fill the destination region is a command's output. -/
theorem commandWrote_of_bytes (i : Instr) (s : State) (d : Region) (bytes : List Byte) (count draws : Nat)
    (h : regionError i s = none) (hd : destination i s = some d) (hl : bytes.length = d.extent) :
    CommandWrote i s ((s.takeDraws draws).finish (Memory.write s.mem d.start bytes) count .ok) :=
  ⟨d, bytes, count, draws, .ok, h, hd, hl, rfl, .inl rfl⟩

/-- A write of records that fill the destination region is a command's output. -/
theorem commandWrote_of_voxels (i : Instr) (s : State) (d : Region) (vs : List Voxel) (count draws : Nat)
    (h : regionError i s = none) (hd : destination i s = some d) (hl : 16 * vs.length = d.extent) :
    CommandWrote i s ((s.takeDraws draws).finish (Memory.voxWriteAll s.mem d.start vs) count .ok) := by
  rw [Memory.voxWriteAll_eq]
  exact commandWrote_of_bytes i s d _ count draws h hd (by rw [Voxel.flatMap_bytes_length, hl])

/-- The same for a command that draws no noise. -/
theorem commandWrote_of_bytes_quiet (i : Instr) (s : State) (a e : Nat) (bytes : List Byte) (count : Nat)
    (h : regionError i s = none) (hd : destination i s = some ⟨a, e⟩) (hl : bytes.length = e) :
    CommandWrote i s (s.finish (Memory.write s.mem a bytes) count .ok) :=
  ⟨⟨a, e⟩, bytes, count, 0, .ok, h, hd, hl, rfl, .inl rfl⟩

/-- The same for records. -/
theorem commandWrote_of_voxels_quiet (i : Instr) (s : State) (a e : Nat) (vs : List Voxel) (count : Nat)
    (h : regionError i s = none) (hd : destination i s = some ⟨a, e⟩) (hl : 16 * vs.length = e) :
    CommandWrote i s (s.finish (Memory.voxWriteAll s.mem a vs) count .ok) := by
  rw [Memory.voxWriteAll_eq]
  exact commandWrote_of_bytes_quiet i s a e _ count h hd (by rw [Voxel.flatMap_bytes_length, hl])

/-- Everything a command's completion can do: it always answers a next state, in which it failed with a code
and did nothing else, or wrote its output, or set RESULT (VOBF). -/
theorem exec_cases (i : Instr) (s : State) :
    ∃ t, exec i s = .next t ∧
      ((∃ c, c ≠ .ok ∧ c ≠ .illegalCmd ∧ t = s.complete c) ∨ CommandWrote i s t ∨
       (i = .vobf ∧ regionError i s = none ∧ t = (s.setResult (probeDiffers s)).complete .ok)) := by
  have guarded : ∀ (ok : State), regionError i s = none → CommandWrote i s ok →
      (∃ c, c ≠ .ok ∧ c ≠ .illegalCmd ∧ s.guardRegions i ok = s.complete c) ∨
        CommandWrote i s (s.guardRegions i ok) := fun ok h hw => .inr (by rwa [guardRegions_ok s i ok h])
  have lift : ∀ (ok : State), (regionError i s = none → CommandWrote i s ok) →
      (∃ c, c ≠ .ok ∧ c ≠ .illegalCmd ∧ s.guardRegions i ok = s.complete c) ∨
        CommandWrote i s (s.guardRegions i ok) := fun ok hw => by
    rcases guardRegions_cases s i ok with ⟨h, _⟩ | ⟨c, hc, _, h⟩
    · exact guarded ok h (hw h)
    · exact .inl ⟨c, by rcases hc with rfl | rfl <;> decide, by rcases hc with rfl | rfl <;> decide, h⟩
  have wrap : ∀ u, (∃ c, c ≠ .ok ∧ c ≠ .illegalCmd ∧ u = s.complete c) ∨ CommandWrote i s u →
      ∃ t, (Host.Outcome.next u : Out) = .next t ∧
      ((∃ c, c ≠ .ok ∧ c ≠ .illegalCmd ∧ t = s.complete c) ∨ CommandWrote i s t ∨
       (i = .vobf ∧ regionError i s = none ∧ t = (s.setResult (probeDiffers s)).complete .ok)) :=
    fun u h => ⟨u, rfl, h.imp id .inl⟩
  cases i with
  | enc =>
    simp only [exec, execEnc]
    exact wrap _ (lift _ fun h => commandWrote_of_voxels_quiet .enc s s.dstAt _ _ _ h rfl (by simp))
  | dec =>
    simp only [exec, execDec]
    exact wrap _ (lift _ fun h => commandWrote_of_bytes_quiet .dec s s.dstAt _ _ _ h rfl (by simp))
  | decn =>
    simp only [exec, execDecn]
    exact wrap _ (lift _ fun h => commandWrote_of_bytes .decn s ⟨s.dstAt, s.srcCount⟩ _ _ _ h rfl (by simp))
  | noise =>
    rw [show exec .noise s = .next (if badAmplitude s.param then s.complete .badParam
      else s.guardRegions .noise (noiseOk s)) from rfl]
    split
    · exact wrap _ (.inl ⟨.badParam, by decide, by decide, rfl⟩)
    · refine wrap _ (lift _ fun h => ?_)
      unfold noiseOk
      simp only
      split
      · exact commandWrote_of_voxels .noise s ⟨s.dstAt, 16 * s.srcCount⟩ _ _ _ h rfl (by simp)
      · exact commandWrote_of_voxels_quiet .noise s s.dstAt _ _ _ h rfl (by simp)
  | xtalk =>
    simp only [exec, execXtalk]
    exact wrap _ (lift _ fun h => commandWrote_of_voxels_quiet .xtalk s s.dstAt _ _ _ h rfl (by simp))
  | rdnp =>
    simp only [exec, execRdnp]
    exact wrap _ (lift _ fun h => commandWrote_of_bytes_quiet .rdnp s s.dstAt _ _ _ h rfl (by simp))
  | vobf =>
    refine ⟨_, rfl, ?_⟩
    rcases guardRegions_cases s .vobf ((s.setResult (probeDiffers s)).complete .ok) with ⟨h, e⟩ | ⟨c, hc, _, e⟩
    · exact .inr (.inr ⟨rfl, h, e⟩)
    · exact .inl ⟨c, by rcases hc with rfl | rfl <;> decide, by rcases hc with rfl | rfl <;> decide, e⟩
  | eccadd =>
    simp only [exec, execEccadd]
    exact wrap _ (lift _ fun h => commandWrote_of_bytes_quiet .eccadd s s.dstAt _ _ _ h rfl
      (by rw [protect_length, Memory.read_length]))
  | eccrec surface =>
    rw [show exec (.eccrec surface) s = .next (if s.srcCount % totalShards ≠ 0 then s.complete .eccLength
      else s.guardRegions (.eccrec surface) (eccrecOk surface s)) from rfl]
    split
    · exact wrap _ (.inl ⟨.eccLength, by decide, by decide, rfl⟩)
    · rename_i hn
      have hmod : s.srcCount % 14 = 0 := by simpa [totalShards] using hn
      have hdest : destination (.eccrec surface) s = some ⟨s.dstAt, 10 * recShardSize s.srcCount⟩ := by
        simp [destination, hmod]
      have hlen : ((Memory.read s.mem s.srcAt s.srcCount).take (dataShards * recShardSize s.srcCount)).length =
          10 * recShardSize s.srcCount := by
        simp only [List.length_take, Memory.read_length, dataShards, recShardSize]
        omega
      rcases guardRegions_cases s (.eccrec surface) (eccrecOk surface s) with ⟨h, e⟩ | ⟨c, hc, _, e⟩
      · rw [e]
        unfold eccrecOk
        simp only
        split
        · exact wrap _ (.inr ⟨_, _, _, 0, .ok, h, hdest, hlen, rfl, .inl rfl⟩)
        · split
          · rename_i hs
            exact wrap _ (.inr ⟨_, _, _, 0, .eccIntegrity, h, hdest, hlen, rfl, .inr ⟨rfl, by rw [hs]⟩⟩)
          · exact wrap _ (.inl ⟨.eccIntegrity, by decide, by decide, rfl⟩)
      · exact wrap _ (.inl ⟨c, by rcases hc with rfl | rfl <;> decide, by rcases hc with rfl | rfl <;> decide, e⟩)

/-- A host access decoded as a buffer access lies inside BUF (20_memory.md R61). -/
theorem targetOf_buffer (p : Params) (addr width a : Nat) (h : targetOf p addr width = .buffer a) :
    0 < width ∧ addr = p.bufBase + a ∧ a + width ≤ p.bufBytes := by
  unfold targetOf at h
  split at h
  · cases h
  · split at h
    · split at h <;> cases h
    · split at h
      · rename_i hb
        injection h with h
        omega
      · cases h

/-- A host access decoded as a register access is an aligned 32-bit one inside the window (20_memory.md R66). -/
theorem targetOf_register (p : Params) (addr width off : Nat) (h : targetOf p addr width = .register off) :
    width = 4 ∧ addr = p.regBase + off ∧ off % 4 = 0 ∧ off < 64 := by
  unfold targetOf at h
  split at h
  · cases h
  · split at h
    · rename_i hw
      split at h
      · injection h with h
        simp only [windowBytes] at hw
        omega
      · cases h
    · split at h <;> cases h

/-- An aligned 32-bit access inside the window is a register access (10_state.md R22). -/
theorem targetOf_window (p : Params) (off : Nat) (h : off < 64) (ha : off % 4 = 0) :
    targetOf p (p.regBase + off) 4 = .register off := by
  unfold targetOf
  rw [if_neg (by decide), if_pos ⟨by simp only [windowBytes]; omega, by omega⟩, if_pos ⟨rfl, by omega, by omega⟩]
  congr 1
  omega

/-- Everything a host write can do when it answers a next state. -/
theorem hostWrite_next (addr width value : Nat) (s t : State) (h : hostWrite addr width value s = .next t) :
    (∃ off, targetOf s.cfg addr width = .register off ∧ t = s.regWrite off (BitVec.ofNat 32 value)) ∨
    (∃ a, targetOf s.cfg addr width = .buffer a ∧ s.status.busy = false ∧ s.unsynced = false ∧
      t = s.setMem (Memory.writeLE s.mem a width value)) := by
  unfold hostWrite at h
  split at h
  · exact .inl ⟨_, ‹_›, (Host.Outcome.next.inj h).symm⟩
  · split at h
    · cases h
    · rename_i hb
      simp only [Bool.or_eq_true, not_or, Bool.not_eq_true] at hb
      exact .inr ⟨_, ‹_›, hb.1, hb.2, (Host.Outcome.next.inj h).symm⟩
  · cases h
  · cases h

/-- Everything a host read can do when it answers a next state. -/
theorem hostRead_next (addr width : Nat) (s t : State) (h : hostRead addr width s = .next t) :
    (∃ off, targetOf s.cfg addr width = .register off ∧ t = s.hostRegRead off) ∨
    (∃ a, targetOf s.cfg addr width = .buffer a ∧ s.status.busy = false ∧ s.unsynced = false ∧
      t = s.noteRead (Memory.readLE s.mem a width)) := by
  unfold hostRead at h
  split at h
  · exact .inl ⟨_, ‹_›, (Host.Outcome.next.inj h).symm⟩
  · split at h
    · cases h
    · rename_i hb
      simp only [Bool.or_eq_true, not_or, Bool.not_eq_true] at hb
      exact .inr ⟨_, ‹_›, hb.1, hb.2, (Host.Outcome.next.inj h).symm⟩
  · cases h
  · cases h

/-- Everything a step can do when it answers a next state: a completion, an illegal word's completion, an idle
turn, or one host operation. -/
theorem step_cases (s t : State) (h : step s = .next t) :
    (∃ i, s.turn = .block ∧ s.status.busy = true ∧ s.pending = .ok i ∧ exec i s.takeTurn = .next t) ∨
    (∃ e, s.turn = .block ∧ s.status.busy = true ∧ s.pending = .error e ∧ t = s.takeTurn.complete .illegalCmd) ∨
    (t = s.takeTurn ∧ (s.turn = .block ∧ s.status.busy = false ∨ s.turn = .host ∧ s.prog = [])) ∨
    (∃ op rest, s.turn = .host ∧ s.prog = op :: rest ∧ hostOp op rest s.takeTurn = .next t) := by
  unfold step at h
  split at h
  · rename_i ht
    unfold hostTurn at h
    split at h
    · exact .inr (.inr (.inl ⟨(Host.Outcome.next.inj h).symm, .inr ⟨ht, ‹_›⟩⟩))
    · exact .inr (.inr (.inr ⟨_, _, ht, ‹_›, h⟩))
  · rename_i ht
    unfold blockTurn at h
    split at h
    · rename_i hb
      split at h
      · exact .inl ⟨_, ht, hb, ‹_›, h⟩
      · exact .inr (.inl ⟨_, ht, hb, ‹_›, (Host.Outcome.next.inj h).symm⟩)
    · rename_i hb
      exact .inr (.inr (.inl ⟨(Host.Outcome.next.inj h).symm, .inl ⟨ht, by simpa using hb⟩⟩))

/-- A register write of an idle block issues a command or touches only one operand register. -/
theorem regWriteIdle_cases (s : State) (off : Nat) (v : Word) :
    s.regWriteIdle off v = s.issue v ∨
    ((s.regWriteIdle off v).mem = s.mem ∧ (s.regWriteIdle off v).cfg = s.cfg ∧
      (s.regWriteIdle off v).status = s.status ∧ (s.regWriteIdle off v).dstLen = s.dstLen ∧
      (s.regWriteIdle off v).cmd = s.cmd ∧ (s.regWriteIdle off v).unsynced = s.unsynced ∧
      (s.regWriteIdle off v).sched = s.sched ∧ (s.regWriteIdle off v).prog = s.prog) := by
  unfold State.regWriteIdle
  repeat' split
  all_goals simp

/-- A pending command's completion step is the meaning of the command in CMD. -/
theorem step_block_ok (s : State) (i : Instr) (ht : s.turn = .block) (hb : s.status.busy = true)
    (hp : s.pending = .ok i) : step s = exec i s.takeTurn := by
  have hp' : s.takeTurn.pending = .ok i := hp
  simp [step, ht, blockTurn, hb, hp']

theorem step_host (s : State) (op : HostOp) (rest : List HostOp) (ht : s.turn = .host) (hp : s.prog = op :: rest) :
    step s = hostOp op rest s.takeTurn := by
  simp [step, ht, hostTurn, hp]

/-- Everything forgetting an abandoned destination can do: nothing, or fresh free bytes inside the buffer
(70_reset_and_hazards.md R230). -/
theorem forgetAbandoned_cases (s : State) :
    (s.abandoned = none ∧ s.forgetAbandoned = s) ∨
    (∃ r, s.abandoned = some r ∧ ∃ bytes : List Byte, bytes.length = r.bytesInBuf s.cfg.bufBytes ∧
      s.forgetAbandoned =
        { s with mem := Memory.write s.mem r.start bytes, resetDraws := s.resetDraws + bytes.length }) := by
  unfold State.forgetAbandoned
  cases h : s.abandoned with
  | none => exact .inl ⟨rfl, rfl⟩
  | some r =>
    refine .inr ⟨r, rfl, (List.range (r.bytesInBuf s.cfg.bufBytes)).map
      fun i => Config.resetByte (s.resetDraws + i), by simp, by simp⟩

/-- Forgetting an abandoned destination keeps the canonical form and the address bound. -/
theorem forgetAbandoned_wf (s : State) (h : Memory.wf s.mem) (hb : Memory.Below s.mem s.cfg.bufBytes) :
    Memory.wf s.forgetAbandoned.mem ∧ Memory.Below s.forgetAbandoned.mem s.cfg.bufBytes := by
  rcases forgetAbandoned_cases s with ⟨_, e⟩ | ⟨r, _, b, hl, e⟩ <;> rw [e]
  · exact ⟨h, hb⟩
  · refine ⟨Memory.write_wf _ _ _ h, Memory.write_below _ _ _ _ hb ?_⟩
    unfold Region.bytesInBuf at hl
    by_cases hz : b = []
    · exact .inl hz
    · have : b.length ≠ 0 := by simpa using hz
      exact .inr (by omega)

end Sys2Proof.Machine
end

