-- ==== Sys2Proof/Laws/Commands.lean ====
section
/-! SUPPORT. What the statements about commands share: when the region checks pass, what a completion leaves, and
what a copied, encoded, perturbed or probed record holds. -/

namespace Sys2Proof.Machine

/-- The region checks of a command with one input and one output pass when both fit and do not overlap
(20_memory.md R68, R69). -/
theorem regionError_none_of_fits (i : Instr) (s : State) (a e b f : Nat) (hs : sources i s = [⟨a, e⟩])
    (hd : destination i s = some ⟨b, f⟩) (h : e = 0 ∨ a + e ≤ s.cfg.bufBytes) (h' : f = 0 ∨ b + f ≤ s.cfg.bufBytes)
    (apart : f = 0 ∨ e = 0 ∨ b + f ≤ a ∨ a + e ≤ b) : regionError i s = none := by
  rw [regionError_none_iff]
  constructor
  · simp only [allInRange, hs, hd, List.all_cons, List.all_nil, Option.all_some, Bool.and_true, Bool.and_eq_true,
      inRange_iff]
    exact ⟨h, h'⟩
  · simp only [destinationOverlaps, hs, hd, Option.any_some, List.any_cons, List.any_nil, Bool.or_false,
      overlaps_false_iff]
    exact apart

/-- A successful completion's next state, field by field (10_state.md R30, R47). -/
theorem finish_ok (s : State) (m : Memory) (n : Nat) (w : Word) (h : BitVec.ofNat 32 n = w) :
    s.finish m n .ok = { s with
      mem := m, dstLen := w, status := { busy := false, done := true, err := 0, result := s.status.result } } := by
  simp [State.finish, State.complete, State.setDstLen, State.setMem, Status.completed, Code.bits, h]

theorem ofNat_srcCount (s : State) : BitVec.ofNat 32 s.srcCount = s.srcLen := by simp [State.srcCount]

/-- What every completion leaves alone, and that the command is done (60_exceptions.md R209). -/
theorem exec_done (i : Instr) (s t : State) (h : exec i s = .next t) :
    t.cfg = s.cfg ∧ t.status.busy = false ∧ t.status.done = true ∧ t.sched = s.sched ∧ t.prog = s.prog := by
  obtain ⟨t', h1, h2⟩ := exec_cases i s
  rw [h] at h1
  cases h1
  rcases h2 with ⟨c, _, _, rfl⟩ | ⟨d, b, n, k, c, _, _, _, rfl, _⟩ | ⟨_, _, rfl⟩ <;> simp

/-- The host's write of a named register to an idle block is one step that stores it (30_encoding.md R96). -/
theorem step_writeReg (s t : State) (r : Reg) (v : Word) (rest : List HostOp) (hb : s.status.busy = false)
    (hs : s.sched = []) (hp : s.prog = writeReg s.cfg r v :: rest)
    (ht : (s.setProg rest).regWriteIdle r.offset v = t) : step s = .next t := by
  have hw := targetOf_window s.cfg r.offset (by cases r <;> decide) (by cases r <;> decide)
  have same : s.takeTurn = s := by
    simp only [State.takeTurn, hs, List.tail_nil]
    cases s
    simp_all
  rw [step_host s _ _ (by simp [State.turn, hs, hb]) hp, ← ht, same]
  simp [hostOp, hostWrite, writeReg, hw, State.regWrite, hb]

/-- A perturbed field is the sum with an allowed sample, or some NaN where the sum is one (10_state.md R45,
41_noise_crosstalk.md R152). -/
theorem noisyField_cases (b : Word) (k : Nat) (u : Word) (hb : 0 ≤ f32Units b) :
    ∃ n, allowedSample b n = true ∧
      (fadd u n = some (noisyField b k u) ∨ (fadd u n = none ∧ isNaN (noisyField b k u) = true)) := by
  refine ⟨drawAt k b, drawAt_allowed k b hb, ?_⟩
  unfold noisyField
  cases hf : fadd u (drawAt k b) with
  | none => exact .inr ⟨rfl, nanAt_isNaN k⟩
  | some r => exact .inl rfl

/-- A rounded value with a positive sign is not negative. -/
theorem fl_units_nonneg (n d : Nat) : 0 ≤ f32Units (fl false n d) := by
  have hs : f32Sign (fl false n d) = false := by
    have h : roundMagnitude n d ≤ 0x7F800000 := Nat.min_le_right _ _
    simp only [f32Sign, fl, f32OfParts]
    rw [BitVec.getLsbD_ofNat]
    simp only [Bool.false_eq_true, if_false, Nat.zero_add]
    rw [Nat.testBit_lt_two_pow (by omega), Bool.and_false]
  simp [f32Units, hs]

/-- A byte sequence is what its little-endian value writes (00_scope.md R7). -/
theorem bytesLE_valueLE (bs : List Byte) : bytesLE bs.length (valueLE bs) = bs := by
  induction bs with
  | nil => rfl
  | cons b bs ih =>
    rw [List.length_cons, bytesLE_succ, valueLE]
    have hb := b.isLt
    congr 1
    · apply BitVec.eq_of_toNat_eq
      rw [BitVec.toNat_ofNat]
      omega
    · rw [show (b.toNat + 256 * valueLE bs) / 256 = valueLE bs by omega, ih]

theorem bytesLE_readLE (m : Memory) (a : Nat) :
    bytesLE 4 (BitVec.ofNat 32 (Memory.readLE m a 4)).toNat = Memory.read m a 4 := by
  have hl := valueLE_lt (Memory.read m a 4)
  have hb := bytesLE_valueLE (Memory.read m a 4)
  rw [Memory.read_length] at hl hb
  rwa [BitVec.toNat_ofNat, Memory.readLE, Nat.mod_eq_of_lt (by omega)]

theorem Memory.read_append (m : Memory) (a n k : Nat) :
    Memory.read m a (n + k) = Memory.read m a n ++ Memory.read m (a + n) k := by
  simp [Memory.read, List.range_add, Nat.add_assoc]

/-- A record's bytes are the 16 bytes it was read from (20_memory.md R64). -/
theorem Memory.voxRead_bytes (m : Memory) (a : Nat) : (Memory.voxRead m a).bytes = Memory.read m a 16 := by
  simp only [Voxel.bytes, Memory.voxRead, bytesLE_readLE]
  rw [← Memory.read_append, show a + 8 = a + (4 + 4) from rfl, ← Memory.read_append,
    show a + 12 = a + (4 + 4 + 4) from rfl, ← Memory.read_append]

theorem Memory.voxels_bytes (m : Memory) (a n : Nat) :
    (Memory.voxels m a n).flatMap Voxel.bytes = Memory.read m a (16 * n) := by
  induction n with
  | zero => rfl
  | succ n ih =>
    rw [show 16 * (n + 1) = 16 * n + 16 by ring, Memory.read_append, ← ih, ← Memory.voxRead_bytes]
    simp [Memory.voxels, List.range_succ]

/-- Writing records as they were read copies every byte (41_noise_crosstalk.md R151, R157). -/
theorem Memory.byteAt_copy_inside (m : Memory) (d a n x : Nat) (hx : x < 16 * n) :
    Memory.byteAt (Memory.voxWriteAll m d (Memory.voxels m a n)) (d + x) = Memory.byteAt m (a + x) := by
  rw [Memory.voxWriteAll_eq, Memory.voxels_bytes, Memory.byteAt_write_inside _ _ _ _ (by simpa using hx),
    Memory.read_getElem]

/-- Every neighbour is a populated cell (41_noise_crosstalk.md R154). -/
theorem neighbours_lt (wd ht n i j : Nat) (h : j ∈ neighbours wd ht n i) : j < n := by
  simp only [neighbours, List.mem_map, List.mem_filter, cellExists, Bool.and_eq_true, decide_eq_true_eq] at h
  obtain ⟨c, ⟨_, ⟨⟨⟨⟨⟨⟨h1, _⟩, h3⟩, _⟩, h5⟩, _⟩, h⟩⟩, rfl⟩ := h
  have : 0 ≤ cellIndex wd ht c := by
    unfold cellIndex
    positivity
  omega

/-- The probe's byte is the decoded byte without its polarization bits (42_probe.md R170). -/
theorem probeVoxel_eq (v : Voxel) : probeVoxel v = decodeVoxel v &&& 0xF3#8 := by
  have h : classify .polarization (lut .polarization 0) = 0 := by decide
  unfold probeVoxel decodeVoxel
  simp only [h]
  generalize classify .wavelength v.wavelength = a
  generalize classify .phase v.phase = b
  generalize classify .polarization v.polarization = c
  generalize classify .intensity v.intensity = d
  revert a b c d
  decide

end Sys2Proof.Machine
end

