-- ==== Sys2Proof/Laws/Ecc.lean ====
section
/-! SUPPORT. The erasure code's laws: what each byte of a protected sequence is, what the integrity check compares,
and that a protected sequence passes it. -/

namespace Sys2Proof.Machine

/-- Byte t of shard i is byte i·S + t of the sequence (43_ecc.md R184). -/
theorem shards_getD (size n : Nat) (bytes : List Byte) (i t : Nat) (hi : i < n) (ht : t < size) :
    ((shards size n bytes).getD i []).getD t 0 = bytes.getD (i * size + t) 0 := by
  simp only [shards, List.getD_eq_getElem?_getD, List.getElem?_map, List.getElem?_range hi, Option.map_some,
    Option.getD_some, List.getElem?_take, ht, if_true, List.getElem?_drop]

/-- The parity byte j of a byte column (43_ecc.md R182). -/
def columnParity (p : Params) (j : Nat) (column : Nat → Byte) : Byte :=
  (List.range dataShards).foldl (fun acc i => acc ^^^ gfMul p.gfPoly (rsEntry p j i) (column i)) 0

/-- Two folds agree when their steps agree on the list. -/
theorem foldl_congr_mem {α β : Type} (f g : β → α → β) (l : List α) (b : β)
    (h : ∀ b, ∀ a ∈ l, f b a = g b a) : l.foldl f b = l.foldl g b := by
  induction l generalizing b with
  | nil => rfl
  | cons a l ih =>
    simp only [List.foldl_cons]
    rw [h b a List.mem_cons_self]; exact ih _ fun b a' h' => h b a' (List.mem_cons_of_mem _ h')

theorem columnParity_congr (p : Params) (j : Nat) (c c' : Nat → Byte) (h : ∀ i, i < 10 → c i = c' i) :
    columnParity p j c = columnParity p j c' := by
  unfold columnParity
  apply foldl_congr_mem
  intro b i hi
  rw [h i (List.mem_range.1 hi)]

theorem parityByte_eq (p : Params) (size : Nat) (bytes : List Byte) (j t : Nat) (ht : t < size) :
    parityByte p (shards size dataShards bytes) j t = columnParity p j fun i => bytes.getD (i * size + t) 0 := by
  unfold parityByte columnParity
  apply foldl_congr_mem
  intro b i hi
  rw [shards_getD _ _ _ _ _ (List.mem_range.1 hi) ht]

theorem parity_eq_iff (p : Params) (size : Nat) (bytes : List Byte) (hl : bytes.length = 14 * size) :
    parity p (shards size dataShards bytes) size = shards size parityShards (bytes.drop (dataShards * size)) ↔
    ∀ j t, j < 4 → t < size →
      bytes.getD ((10 + j) * size + t) 0 = columnParity p j fun i => bytes.getD (i * size + t) 0 := by
  have hlen : ∀ j, j < 4 → (((bytes.drop (dataShards * size)).drop (j * size)).take size).length = size := by
    intro j hj
    have : j * size + size ≤ 4 * size := by nlinarith
    simp only [List.length_take, List.length_drop, hl, dataShards]; omega
  have hget : ∀ j t (hj : j < 4) (ht : t < size),
      (((bytes.drop (dataShards * size)).drop (j * size)).take size)[t]'(by rw [hlen j hj]; exact ht) =
        bytes.getD ((10 + j) * size + t) 0 := by
    intro j t hj ht
    rw [List.getElem_take, List.getElem_drop, List.getElem_drop, List.getD_eq_getElem?_getD]
    have hx : (10 + j) * size + t < bytes.length := by rw [hl]; nlinarith
    rw [List.getElem?_eq_getElem hx, Option.getD_some]
    congr 1
    simp only [dataShards]; ring
  rw [List.ext_getElem_iff]
  simp only [parity, shards, List.length_map, List.length_range, true_and, List.getElem_map, List.getElem_range,
    parityShards]
  constructor
  · intro h j t hj ht
    have := h j hj hj
    rw [List.ext_getElem_iff] at this
    have := this.2 t (by simpa using ht) (by rw [hlen j hj]; exact ht)
    rw [hget j t hj ht, List.getElem_map, List.getElem_range] at this
    rw [← this]
    exact (parityByte_eq p size bytes j t ht)
  · intro h j hj _
    apply List.ext_getElem
    · rw [hlen j hj]; simp
    · intro t ht _
      have ht' : t < size := by simpa using ht
      rw [hget j t hj ht', h j t hj ht', List.getElem_map, List.getElem_range]
      exact (parityByte_eq p size bytes j t ht')

/-- The integrity check compares every stored parity byte with the parity of its column (43_ecc.md R183). -/
theorem intact_iff (p : Params) (size : Nat) (bytes : List Byte) (hl : bytes.length = 14 * size) :
    intact p size bytes = true ↔
    ∀ j t, j < 4 → t < size →
      bytes.getD ((10 + j) * size + t) 0 = columnParity p j fun i => bytes.getD (i * size + t) 0 := by
  rw [← parity_eq_iff p size bytes hl]
  simp [intact, verify]

theorem flatten_getD (size : Nat) (l : List (List Byte)) (h : ∀ x ∈ l, x.length = size) (j t : Nat)
    (hj : j < l.length) (ht : t < size) :
    l.flatten.getD (j * size + t) 0 = (l.getD j []).getD t 0 := by
  induction l generalizing j with
  | nil => simp at hj
  | cons x l ih =>
    have hx := h x List.mem_cons_self
    cases j with
    | zero =>
      simp only [List.flatten_cons, Nat.zero_mul, Nat.zero_add, List.getD_cons_zero]
      simp only [List.getD_eq_getElem?_getD]
      rw [List.getElem?_append_left (by omega)]
    | succ j =>
      simp only [List.flatten_cons, List.getD_cons_succ]
      rw [← ih (fun y hy => h y (List.mem_cons_of_mem _ hy)) j (by simpa using hj)]
      simp only [List.getD_eq_getElem?_getD]
      rw [List.getElem?_append_right (by rw [hx, Nat.succ_mul]; omega), hx]
      congr 2
      rw [Nat.succ_mul]; omega

theorem parity_getD (p : Params) (data : List (List Byte)) (size j t : Nat) (hj : j < 4) (ht : t < size) :
    ((parity p data size).getD j []).getD t 0 = parityByte p data j t := by
  simp only [parity, parityShards, List.getD_eq_getElem?_getD, List.getElem?_map, List.getElem?_range hj,
    List.getElem?_range ht, Option.map_some, Option.getD_some]

/-- The code is systematic: the first 10·S bytes are the data, padded with zeros (43_ecc.md R184). -/
theorem protect_data (p : Params) (bytes : List Byte) (x : Nat) (hx : x < 10 * addShardSize bytes.length) :
    (protect p bytes).getD x 0 = bytes.getD x 0 := by
  have h : (protect p bytes).getD x 0 = (padded bytes).getD x 0 := by
    simp only [protect, List.getD_eq_getElem?_getD]
    rw [List.getElem?_append_left (by rw [padded_length]; exact hx)]
  rw [h]
  simp only [padded, List.getD_eq_getElem?_getD]
  by_cases hb : x < bytes.length
  · rw [List.getElem?_append_left hb]
  · rw [List.getElem?_append_right (by omega), List.getElem?_eq_none (l := bytes) (by omega)]
    rw [List.getElem?_replicate]; split <;> rfl

/-- A protected sequence passes the integrity check (43_ecc.md R186). -/
theorem protect_intact (p : Params) (bytes : List Byte) :
    intact p (addShardSize bytes.length) (protect p bytes) = true := by
  rw [intact_iff _ _ _ (protect_length p bytes)]
  intro j t hj ht
  have h1 : (protect p bytes).getD ((10 + j) * addShardSize bytes.length + t) 0 =
      columnParity p j fun i => (padded bytes).getD (i * addShardSize bytes.length + t) 0 := by
    rw [← parityByte_eq _ _ _ _ _ ht, ← parity_getD _ _ _ _ _ hj ht,
      ← flatten_getD _ _ _ _ _ (by simpa [parity, parityShards] using hj) ht]
    · simp only [protect, List.getD_eq_getElem?_getD]
      rw [List.getElem?_append_right (by rw [padded_length]; nlinarith), padded_length]
      congr 2
      rw [Nat.add_mul]; omega
    · intro x hx
      simp only [parity, List.mem_map] at hx
      obtain ⟨_, _, rfl⟩ := hx
      simp
  rw [h1]
  apply columnParity_congr
  intro i hi
  rw [protect_data p bytes _ (by nlinarith)]
  simp only [padded, List.getD_eq_getElem?_getD]
  by_cases hb : i * addShardSize bytes.length + t < bytes.length
  · rw [List.getElem?_append_left hb]
  · rw [List.getElem?_append_right (by omega), List.getElem?_eq_none (l := bytes) (by omega)]
    rw [List.getElem?_replicate]; split <;> rfl

end Sys2Proof.Machine
end

