-- ==== Sys2Proof/Laws/PerInstr.lean ====
section
/-! SUPPORT. The statement made once per command: its word is selected by its own row of the opcode map and by no
other (30_encoding.md R91). -/

namespace Sys2Proof.Laws

/-- The rows of the opcode map that select the command's word are exactly its own. -/
def OpcodeRow.Statement (i : Instr) : Prop :=
  (opcodeRows.filter fun r => r.selects (encode i)).map (fun r => r.mnemonic) = [i.mnemonic]

theorem OpcodeRow.enc : OpcodeRow.Statement .enc := by unfold OpcodeRow.Statement; decide
theorem OpcodeRow.dec : OpcodeRow.Statement .dec := by unfold OpcodeRow.Statement; decide
theorem OpcodeRow.decn : OpcodeRow.Statement .decn := by unfold OpcodeRow.Statement; decide
theorem OpcodeRow.noise : OpcodeRow.Statement .noise := by unfold OpcodeRow.Statement; decide
theorem OpcodeRow.xtalk : OpcodeRow.Statement .xtalk := by unfold OpcodeRow.Statement; decide
theorem OpcodeRow.rdnp : OpcodeRow.Statement .rdnp := by unfold OpcodeRow.Statement; decide
theorem OpcodeRow.vobf : OpcodeRow.Statement .vobf := by unfold OpcodeRow.Statement; decide
theorem OpcodeRow.eccadd : OpcodeRow.Statement .eccadd := by unfold OpcodeRow.Statement; decide
theorem OpcodeRow.eccrec (surface : Bool) : OpcodeRow.Statement (.eccrec surface) := by
  unfold OpcodeRow.Statement
  revert surface
  decide

end Sys2Proof.Laws
end

