-- ==== Sys2Proof/Tests/Slice0.lean ====
section
/-! SUPPORT. Tests against 95_test_vectors.md, and for every statement with hypotheses a named state and operands
that meet them all (`witness_…`). Expected values are the spec's, not the model's. -/

namespace Sys2Proof.Tests

-- One test after the other: many tests at once wait for each other and hold a thread each.
set_option Elab.async false

open Sys2Proof Sys2Proof.Machine Sys2Proof.Spec

/-! ### States to test on -/

/-- A small platform with the default code. -/
def platform : Params := { Config.defaultParams with bufBytes := 0x400, regBase := 0x1000, bufBase := 0x2000 }

/-- An idle, synchronised block with the given buffer contents. -/
def idle (mem : Memory) : State := { State.reset with cfg := platform, mem := mem }

/-- The same block with a command pending on n elements at a and output address d. -/
def pending (i : Instr) (mem : Memory) (d a n : Word) : State :=
  { idle mem with
    cmd := encode i, status := Status.issued, unsynced := true, srcAddr := a, srcLen := n, dstAddr := d }

/-- An idle block whose host is about to perform one operation. -/
def hostWill (op : HostOp) : State := { idle [] with prog := [op] }

/-- A busy block on which the host moves next with one operation. -/
def hostWillWhileBusy (op : HostOp) : State :=
  { pending .enc [] 0 0 0 with prog := [op], sched := [.host] }

/-- Bytes at an address, nothing else listed. -/
def bytesAt (a : Nat) (bs : List Byte) : Memory := Memory.write [] a bs

/-- Records of the given intensities at an address, other fields as in the voxel of 0x00. -/
def intensitiesAt (a : Nat) (is : List Word) : Memory :=
  Memory.voxWriteAll [] a (is.map fun i => { encodeByte 0 with intensity := i })

/-- STATUS, DST_LEN and n bytes at a after a command, `none` if it did not complete. -/
def result (o : Out) (a n : Nat) : Option (Word × Nat × List Byte) :=
  match o with
  | .next t => some (t.status.word, t.dstLen.toNat, Memory.read t.mem a n)
  | .fault _ => none
  | .refused _ => none

/-- The intensities of n records at a after a command. -/
def intensities (o : Out) (a n : Nat) : Option (List Word) :=
  match o with
  | .next t => some ((Memory.voxels t.mem a n).map Voxel.intensity)
  | .fault _ => none
  | .refused _ => none

/-- STATUS after a step. -/
def statusAfter (o : Out) : Option Word :=
  match o with
  | .next t => some t.status.word
  | .fault _ => none
  | .refused _ => none

/-- STATUS after the completion step of a raw command word on zero-length operands. -/
def statusOfWord (w : Word) : Option Word := statusAfter (step ((idle []).withFetchWord 32 w.toNat))

/-! ### Well-formedness: one ill-formed word for each check (30_encoding.md R91) -/

theorem test_op_zero_ill_formed : (Cmd32.mk 0x00 false 0).opDefined = false ∧ (Cmd32.mk 0x00 false 0).legal = false := by
  decide
theorem test_op_above_nine_ill_formed : (Cmd32.mk 0x0A false 0).legal = false := by decide
theorem test_reserved_bit_ill_formed :
    (Cmd32.mk 0x01 false 1).rsvZero = false ∧ (Cmd32.mk 0x01 false 1).legal = false := by decide
theorem test_top_bit_ill_formed : (Cmd32.mk 0x09 true 0x400000).legal = false := by decide
theorem test_surface_with_enc_ill_formed :
    (Cmd32.mk 0x01 true 0).surfaceAllowed = false ∧ (Cmd32.mk 0x01 true 0).legal = false := by decide
theorem test_surface_with_eccrec_legal : (Cmd32.mk 0x09 true 0).legal = true := by decide

/-! ### Decoding: words written out bit by bit from 30_encoding.md R90, R91 -/

theorem test_decode_enc : decode 0b00000000000000000000000_0_00000001#32 = .ok .enc := by decide
theorem test_decode_dec : decode 0b00000000000000000000000_0_00000010#32 = .ok .dec := by decide
theorem test_decode_decn : decode 0b00000000000000000000000_0_00000011#32 = .ok .decn := by decide
theorem test_decode_noise : decode 0b00000000000000000000000_0_00000100#32 = .ok .noise := by decide
theorem test_decode_xtalk : decode 0b00000000000000000000000_0_00000101#32 = .ok .xtalk := by decide
theorem test_decode_rdnp : decode 0b00000000000000000000000_0_00000110#32 = .ok .rdnp := by decide
theorem test_decode_vobf : decode 0b00000000000000000000000_0_00000111#32 = .ok .vobf := by decide
theorem test_decode_eccadd : decode 0b00000000000000000000000_0_00001000#32 = .ok .eccadd := by decide
theorem test_decode_eccrec : decode 0b00000000000000000000000_0_00001001#32 = .ok (.eccrec false) := by decide
theorem test_decode_eccrec_surface : decode 0b00000000000000000000000_1_00001001#32 = .ok (.eccrec true) := by decide

/-- E1-E5: the reserved words complete with ILLEGAL_CMD, 0x12. -/
theorem test_illegal_words_complete :
    [0x00000000, 0x0000000A, 0x00000101, 0x80000001, 0x0000010A].map statusOfWord =
      List.replicate 5 (some 0x12) := by decide +kernel

/-- Z2, Z3, 70_reset_and_hazards.md R232: every legal word on zero-length operands completes OK. -/
theorem test_legal_words_complete_after_reset :
    [1, 2, 3, 4, 5, 6, 7, 8, 9, 0x109].map statusOfWord = List.replicate 10 (some 0x02) := by decide +kernel

/-! ### The codec -/

/-- The record of 0xAB (95_test_vectors.md L1 item 7). -/
def recordAB : List Byte :=
  [0x00, 0x00, 0x80, 0x3F, 0xDB, 0x0F, 0xC9, 0x3F, 0xDB, 0x0F, 0x49, 0x40, 0x00, 0x00, 0xE1, 0x43]

theorem test_enc_ab : result (exec .enc (pending .enc (bytesAt 0 [0xAB]) 0x100 0 1)) 0x100 16 =
    some (0x02, 1, recordAB) := by decide +kernel

theorem test_enc_ff : result (exec .enc (pending .enc (bytesAt 0 [0x00, 0xFF]) 0x101 0 2)) 0x111 16 =
    some (0x02, 2, [0x00, 0x00, 0x80, 0x3F, 0xE4, 0xCB, 0x16, 0x40, 0xE4, 0xCB, 0x96, 0x40, 0x00, 0x00, 0x48, 0x44]) := by
  decide +kernel

theorem test_dec_ab : result (exec .dec (pending .dec (bytesAt 3 recordAB) 0x200 3 1)) 0x200 1 =
    some (0x02, 1, [0xAB]) := by decide +kernel

/-- A NaN intensity, a negative polarization, a phase of −1.0 and a wavelength of 1000 nm. -/
theorem test_dec_odd_fields :
    decodeVoxel ⟨0x7FC00000, 0xBDCCCCCD, 0xBF800000, 0x447A0000⟩ = 0b11_11_00_00#8 := by decide +kernel

theorem test_classify_intensity :
    [0x3EC00000, 0x3EC00001, 0x3F200000, 0x3F200001, 0x3F600000, 0x3F600001, 0xBF800000, 0x7F800000].map
      (classify .intensity) = [0, 1, 1, 2, 2, 3, 0, 0] := by decide +kernel

theorem test_classify_wavelength :
    [0x43F57FFF, 0x43F58000, 0x4413C000, 0x4413C001, 0x44354000, 0x44354001, 0, 0x447A0000].map
      (classify .wavelength) = [2, 0, 0, 1, 1, 3, 2, 3] := by decide +kernel

theorem test_classify_polarization :
    [0x3EC90FDB, 0x3EC90FDC, 0x3F96CBE4, 0x3F96CBE5, 0x3FFB53D1, 0x3FFB53D2, 0x402FEDDF, 0x402FEDE0, 0x40490FDB].map
      (classify .polarization) = [0, 1, 1, 2, 2, 3, 3, 0, 0] := by decide +kernel

theorem test_classify_phase :
    [0x3F490FDB, 0x3F490FDC, 0x4016CBE4, 0x4016CBE5, 0x407B53D1, 0x407B53D2, 0x40AFEDDF, 0x40AFEDE0, 0x4116CBE4].map
      (classify .phase) = [0, 1, 1, 2, 2, 3, 3, 0, 2] := by decide +kernel

/-- The DECN example of 40_codec.md R131: the perturbed voxel and its byte. -/
theorem test_decn_sums :
    [fadd 0x3E800000 0x3D4CCCCD, fadd 0x00000000 0xBDA3D70A, fadd 0x00000000 0x3DCCCCCD, fadd 0x44050000 0xC1200000] =
      [some 0x3E99999A, some 0xBDA3D70A, some 0x3DCCCCCD, some 0x44028000] ∧
    decodeVoxel ⟨0x3E99999A, 0xBDA3D70A, 0x3DCCCCCD, 0x44028000⟩ = 0x00 := by decide +kernel

/-- DECN makes 4·n draws on success, none on an error (40_codec.md R131). -/
theorem test_decn_draws :
    (match exec .decn (pending .decn [] 0x200 0 3) with
      | .next t => some (t.noiseDraws, t.status.word) | .fault _ => none | .refused _ => none) = some (12, 0x02) ∧
    (match exec .decn (pending .decn [] 0x3FE 0 3) with
      | .next t => some (t.noiseDraws, t.status.word) | .fault _ => none | .refused _ => none) = some (0, 0x42) := by
  decide +kernel

/-! ### Noise and crosstalk -/

/-- N1, N2, N7: the sums and the wavelength bounds. -/
theorem test_noise_arithmetic :
    [fadd 0x44050000 0x40A00000, fadd 0x3F000000 0xBDFFFFFF, wavelengthBound 0x3D4CCCCD, wavelengthBound 0x3DCCCCCD] =
      [some 0x44064000, some 0x3EC00000, some 0x40A00000, some 0x41200000] := by decide +kernel

/-- N4-N6: which amplitudes are BAD_PARAM. -/
theorem test_noise_bad_amplitudes :
    [0x7FC00000, 0x7F800000, 0xFF800000, 0x7C23D70A, 0x7C23D709, 0x80000000, 0xFF7FFFFF].map badAmplitude =
      [true, true, true, true, false, false, false] := by decide +kernel

/-- X1: cell 2 lies at z = 1. -/
theorem test_xtalk_x1 :
    intensities (exec .xtalk { pending .xtalk (intensitiesAt 0 [0x3F800000, 0x3F800000, 0x3F800000]) 0x100 0 3 with
      geomW := 2, geomH := 1, param := 0x3DCCCCCD }) 0x100 3 =
      some [0x3F99999A, 0x3F8CCCCD, 0x3F8CCCCD] := by decide +kernel

/-- X5 and X8: a NaN sum clamps to 1.5, and −0.0 becomes +0.0 without a neighbour. -/
theorem test_xtalk_x5_x8 :
    intensities (exec .xtalk { pending .xtalk (intensitiesAt 0 [0x7FC00000, 0x3E800000]) 0x100 0 2 with
      geomW := 2, geomH := 1, param := 0x3DCCCCCD }) 0x100 2 = some [0x3FC00000, 0x3FC00000] ∧
    intensities (exec .xtalk { pending .xtalk (intensitiesAt 0 [0x80000000]) 0x100 0 1 with
      geomW := 1, geomH := 1, param := 0x3DCCCCCD }) 0x100 1 = some [0x00000000] := by decide +kernel

/-! ### Probe and erasure coding -/

/-- The buffer of B7: the records of FF AB 55 at 0 and the bytes at 0x40. -/
def probeMemory : Memory :=
  Memory.write (Memory.voxWriteAll [] 0 ([0xFF, 0xAB, 0x55].map encodeByte)) 0x40 [0xFF, 0xAB, 0x55]

theorem test_rdnp_b7 : result (exec .rdnp (pending .rdnp probeMemory 0x200 0 3)) 0x200 3 =
    some (0x02, 3, [0xF3, 0xA3, 0x51]) := by decide +kernel

/-- B7 and B5: the bytes differ, and so do the lengths. -/
theorem test_vobf_b7_b5 :
    statusAfter (exec .vobf { pending .vobf probeMemory 0 0 3 with src2Addr := 0x40, src2Len := 3 }) = some 0x102 ∧
    statusAfter (exec .vobf { pending .vobf probeMemory 0 0 2 with src2Addr := 0x40, src2Len := 3 }) = some 0x102 := by
  decide +kernel

/-- The protected sequence of 01 .. 0A (43_ecc.md R184). -/
def protected10 : List Byte := [1, 2, 3, 4, 5, 6, 7, 8, 9, 10, 0x45, 0xF2, 0x12, 0x76]

theorem test_eccadd_ten : result (exec .eccadd (pending .eccadd (bytesAt 0 (protected10.take 10)) 0x40 0 10)) 0x40 14 =
    some (0x02, 14, protected10) := by decide +kernel

theorem test_eccadd_twelve :
    result (exec .eccadd (pending .eccadd (bytesAt 0 [1, 2, 3, 4, 5, 6, 7, 8, 9, 10, 11, 12]) 0x40 0 12)) 0x52 10 =
    some (0x02, 28, [0, 0, 0x33, 0x2F, 0x1F, 0xE3, 0xC1, 0xDF, 0x11, 0xD5]) := by decide +kernel

theorem test_eccrec_ten :
    result (exec (.eccrec false) (pending (.eccrec false) (bytesAt 0x40 protected10) 0 0x40 14)) 0 10 =
    some (0x02, 10, [1, 2, 3, 4, 5, 6, 7, 8, 9, 10]) := by decide +kernel

/-- Byte 0 changed: rejected, and surfaced uncorrected only with S = 1. -/
theorem test_eccrec_corrupted :
    result (exec (.eccrec true) (pending (.eccrec true) (bytesAt 0x40 (0 :: protected10.tail)) 0 0x40 14)) 0 10 =
      some (0x62, 10, [0, 2, 3, 4, 5, 6, 7, 8, 9, 10]) ∧
    result (exec (.eccrec false) (pending (.eccrec false) (bytesAt 0x40 (0 :: protected10.tail)) 0 0x40 14)) 0x40 1 =
      some (0x62, 0, [0]) := by decide +kernel

/-! ### Codes and priority: E7-E14 -/

theorem test_codes :
    [statusAfter (exec .enc (pending .enc [] 0 0xFFFFFFFF 2)),
     statusAfter (exec .enc (pending .enc [] 0 0xFFFFFFFF 0)),
     statusAfter (exec .enc (pending .enc (bytesAt 0 [7]) 0 0 1)),
     statusAfter (exec .enc (pending .enc (bytesAt 0 [7]) 1 0 1)),
     statusAfter (exec .noise { pending .noise [] 0 0xFFFFFFFF 1 with param := 0x7FC00000 }),
     statusAfter (exec (.eccrec false) (pending (.eccrec false) [] 0 0xFFFFFFFF 13)),
     statusAfter (exec .dec (pending .dec [] 0x1F 0 2))] =
    [some 0x42, some 0x02, some 0x52, some 0x02, some 0x22, some 0x32, some 0x52] := by decide +kernel

/-- 43_ecc.md R180: the check values of the default field. -/
theorem test_gf_values :
    [gfMul 0x11D 0x02 0x80, gfMul 0x11D 0x53 0xCA, gfMul 0x11D 0x03 0x07, gfMul 0x11D 0xFF 0xFF, gfMul 0x11D 0x02 0x8E] =
      [0x1D, 0x8F, 0x09, 0xE2, 0x01] ∧ primitivePoly 0x11D = true := by decide +kernel

/-- 30_encoding.md R96: the decimal 0.1 of assembler text is 0x3DCCCCCD. -/
theorem test_decimal_operand : f32OfDecimal false 1 1 = 0x3DCCCCCD := by decide +kernel

/-! ### Witnesses: states and operands that meet the hypotheses of each statement, clause by clause -/

/-- A host CMD write of ENC to the idle block. -/
def issuing : State := hostWill (.write 0x1000 4 1)

theorem witness_DecodeFollowsOpcodeMap : decode 0x00000109 = .ok (.eccrec true) := by decide

theorem witness_DecodeEncodeAgree : decode 0x00000008 = .ok .eccadd := by decide

theorem witness_ResetRegistersReadZero : 0 < 16 ∧ 15 < 16 := by decide

theorem witness_StepKeepsInvariant : Inv issuing ∧ ∃ t, step issuing = .next t := ⟨by decide, _, rfl⟩

theorem witness_StepKeepsParameters : ∃ t, step issuing = .next t := ⟨_, rfl⟩

theorem witness_StepRunsPendingCommand :
    BlockRuns (pending (.eccrec true) [] 0 0 0) (.eccrec true) ∧ BlockRuns (pending .enc [] 0 0 0) .enc := by decide

/-- E5, an illegal word written to an idle block, and an illegal word pending as an issue leaves it. -/
theorem witness_IllegalWordCompletes :
    (HostDoes (hostWill (.write 0x1000 4 0x10A)) (.write platform.regBase 4 (0x10A#32).toNat) [] ∧
      (hostWill (.write 0x1000 4 0x10A)).status.busy = false ∧ decode 0x10A#32 = .error .surfaceNotAllowed) ∧
    (({ hostWillWhileBusy .wait with cmd := 0x10A, sched := [.block, .host] } : State).turn = .block ∧
      ({ hostWillWhileBusy .wait with cmd := 0x10A, sched := [.block, .host] } : State).status.busy = true ∧
      StatusRules Status.issued 0) := by decide

theorem witness_StatusChangesOnlyAtIssueCompletionReset :
    (∃ t, step issuing = .next t) ∧ (∃ t, step (pending .enc [] 0 0 0) = .next t) ∧
    (∃ t, step (hostWill .reset) = .next t) ∧ ∃ t, step (hostWill (.write 0x1008 4 5)) = .next t :=
  ⟨⟨_, rfl⟩, ⟨_, rfl⟩, ⟨_, rfl⟩, _, rfl⟩

/-- A busy block whose operand register the host tries to write. -/
theorem witness_OperandsFixedWhilePending :
    (hostWillWhileBusy (.write 0x100C 4 5)).status.busy = true ∧
    ∃ t, step (hostWillWhileBusy (.write 0x100C 4 5)) = .next t ∧ t.status.busy = true := ⟨by decide, _, rfl, by decide⟩

theorem witness_PendingCommandCompletes :
    (hostWillWhileBusy .wait).status.busy = true ∧ (pending .enc [] 0 0 0).status.busy = true ∧
    (pending .enc [] 0 0 0).prog = [] := by decide

theorem witness_CmdWriteIssues :
    HostDoes issuing (.write issuing.cfg.regBase 4 (1#32).toNat) [] ∧ issuing.status.busy = false := by decide

/-- The first and the last register of the window, written and read while busy. -/
theorem witness_RegisterWritesIgnoredWhileBusy :
    HostDoes (hostWillWhileBusy (.write 0x1000 4 5)) (.write (platform.regBase + 0) 4 5) [] ∧
    HostDoes (hostWillWhileBusy (.write 0x103C 4 5)) (.write (platform.regBase + 60) 4 5) [] ∧
    HostDoes (hostWillWhileBusy (.read 0x103C 4)) (.read (platform.regBase + 60) 4) [] ∧
    (hostWillWhileBusy (.read 0x103C 4)).status.busy = true := by decide

/-- The first and the last register, and STATUS, whose read synchronises an idle block. -/
theorem witness_RegisterReadsHaveNoSideEffects :
    HostDoes (hostWill (.read 0x1000 4)) (.read (platform.regBase + 0) 4) [] ∧
    HostDoes (hostWill (.read 0x1004 4)) (.read (platform.regBase + 0x04) 4) [] ∧
    HostDoes (hostWill (.read 0x103C 4)) (.read (platform.regBase + 60) 4) [] := by decide

theorem witness_OperandRegistersHoldWrites :
    HostDoes (hostWill (.write 0x1008 4 7)) (.write (platform.regBase + 0x08) 4 (7#32).toNat) [] ∧
    HostDoes (hostWill (.write 0x1028 4 7)) (.write (platform.regBase + 0x28) 4 (7#32).toNat) [] ∧
    (hostWill (.write 0x1028 4 7)).status.busy = false := by decide

theorem witness_ReadOnlyRegistersIgnoreWrites :
    HostDoes (hostWill (.write 0x1004 4 7)) (.write (platform.regBase + 0x04) 4 7) [] ∧
    HostDoes (hostWill (.write 0x103C 4 7)) (.write (platform.regBase + 0x3C) 4 7) [] := by decide

theorem witness_ReservedOffsetsAndBitsReadZero :
    0x2C ∈ [0x2C, 0x30, 0x34, 0x38, 0x3C] ∧ 0x3C ∈ [0x2C, 0x30, 0x34, 0x38, 0x3C] := by decide

/-- A write of the first byte while busy, and a read of the last byte of an idle block the host has not synchronised. -/
theorem witness_BufferAccessHazardFaults :
    (OffWindow platform (platform.bufBase + 0) 1 ∧
      (hostWillWhileBusy (.write 0x2000 1 9)).status.busy = true ∧
      HostDoes (hostWillWhileBusy (.write 0x2000 1 9)) (.write (platform.bufBase + 0) 1 9) []) ∧
    (OffWindow platform (platform.bufBase + 0x3FF) 1 ∧ 0x3FF + 1 ≤ platform.bufBytes ∧
      ({ hostWill (.read 0x23FF 1) with unsynced := true } : State).unsynced = true ∧
      HostDoes { hostWill (.read 0x23FF 1) with unsynced := true } (.read (platform.bufBase + 0x3FF) 1) []) := by decide

/-- The last byte of the register window, an unaligned word in it, and the bytes on both sides of the buffer. -/
theorem witness_OtherAccessesRefused :
    (HostDoes (hostWill (.read 0x103F 1)) (.read 0x103F 1) [] ∧ ¬ OffWindow platform 0x103F 1) ∧
    (HostDoes (hostWill (.write 0x1002 4 0)) (.write 0x1002 4 0) [] ∧ ¬ OffWindow platform 0x1002 4 ∧
      ¬ (0x1002 - platform.regBase) % 4 = 0) ∧
    (HostDoes (hostWill (.read 0x1FFF 1)) (.read 0x1FFF 1) [] ∧ OffWindow platform 0x1FFF 1 ∧
      0x1FFF < platform.bufBase) ∧
    (HostDoes (hostWill (.read 0x23FF 2)) (.read 0x23FF 2) [] ∧ OffWindow platform 0x23FF 2 ∧
      platform.bufBase + platform.bufBytes < 0x23FF + 2) := by decide

/-- A write and a read of the last four bytes. -/
theorem witness_HostBufferWriteThenReadReturnsValue :
    0x3FC + 4 ≤ platform.bufBytes ∧ OffWindow platform (platform.bufBase + 0x3FC) 4 ∧
    (({ idle [] with prog := [.write 0x23FC 4 0x12345678, .read 0x23FC 4] } : State).prog =
      .write (platform.bufBase + 0x3FC) 4 0x12345678 :: .read (platform.bufBase + 0x3FC) 4 :: []) ∧
    (idle []).status.busy = false ∧ (idle []).unsynced = false ∧ (idle []).sched = [] := by decide

/-- The reset input on an idle block, and on pending commands: a reserved word, VOBF and ENC. -/
theorem witness_ResetInputEffect :
    HostDoes (hostWill .reset) .reset [] ∧ (hostWill .reset).status.busy = false ∧
    HostDoes { hostWillWhileBusy .reset with cmd := 0 } .reset [] ∧ decode 0 = .error .reservedOp ∧
    decode ({ hostWillWhileBusy .reset with cmd := 7 } : State).cmd = .ok .vobf ∧
    destination .vobf { hostWillWhileBusy .reset with cmd := 7 } = none ∧
    decode (hostWillWhileBusy .reset).cmd = .ok .enc ∧
    destination .enc (hostWillWhileBusy .reset) = some ⟨0, 0⟩ := by decide

/-- An idle block whose host is about to run a line. -/
def running (l : Line) : State := { idle [] with prog := expand platform l }

/-- A line of each shape, and a WAIT while busy and while idle. -/
theorem witness_AssembledLineRunsItsCommand :
    ((Line.eccrec true 0x40 0 14, Instr.eccrec true) ∈
      [(Line.enc 0x40 0 14, Instr.enc), (.dec 0x40 0 14, .dec), (.decn 0x40 0 14, .decn), (.rdnp 0x40 0 14, .rdnp),
        (.eccadd 0x40 0 14, .eccadd), (.eccrec false 0x40 0 14, .eccrec false),
        (.eccrec true 0x40 0 14, .eccrec true)]) ∧
    (running (.eccrec true 0x40 0 14)).prog = expand platform (.eccrec true 0x40 0 14) ++ [] ∧
    (running (.noise 0x40 0 1 0x3D4CCCCD)).prog = expand platform (.noise 0x40 0 1 0x3D4CCCCD) ++ [] ∧
    (running (.xtalk 0x40 0 1 2 1 0x3DCCCCCD)).prog = expand platform (.xtalk 0x40 0 1 2 1 0x3DCCCCCD) ++ [] ∧
    (running (.vobf 0 1 0x40 1)).prog = expand platform (.vobf 0 1 0x40 1) ++ [] ∧
    (running (.vobf 0 1 0x40 1)).status.busy = false ∧ (running (.vobf 0 1 0x40 1)).sched = [] ∧
    (HostDoes (hostWillWhileBusy .wait) .wait [] ∧ (hostWillWhileBusy .wait).status.busy = true) ∧
    (HostDoes (hostWill .wait) .wait [] ∧ (hostWill .wait).status.busy = false) := by decide

/-- Regions that meet each other and the end of the buffer exactly. -/
theorem witness_EncWritesEncodedRecords : Regions (pending .enc [] 0x3F0 0x3EF 1) 1 16 := by decide

theorem witness_DecWritesDecodedBytes : Regions (pending .dec [] 0x3FE 0x3DE 2) 32 2 := by decide

theorem witness_DecnDecodesPerturbedRecords : Regions (pending .decn [] 0x3FE 0x3DE 2) 32 2 := by decide

/-- The largest amplitude in NOISE's domain (N5). -/
theorem witness_NoiseWritesPerturbedRecords :
    isFinite 0x7C23D709 = true ∧ 0 < f32Units 0x7C23D709 ∧
    fmul 0x42C80000 0x7C23D709 = some 0x7F7FFFFE ∧ isInf 0x7F7FFFFE = false ∧
    Regions { pending .noise [] 0x3F0 0x3E0 1 with param := 0x7C23D709 } 16 16 := by decide +kernel

/-- −0.0 and the most negative finite amplitude. -/
theorem witness_NoiseOfNonPositiveAmplitudeCopies :
    (isFinite 0x80000000 = true ∧ f32Units 0x80000000 ≤ 0 ∧
      Regions { pending .noise [] 0x10 0 1 with param := 0x80000000 } 16 16) ∧
    (isFinite 0xFF7FFFFF = true ∧ f32Sign 0xFF7FFFFF = true) := by decide +kernel

theorem witness_XtalkLeaksIntensity :
    (1 : Word) ≠ 0 ∧ (0xFFFFFFFF : Word) ≠ 0 ∧
    Regions { pending .xtalk [] 0 0x20 2 with geomW := 1, geomH := 0xFFFFFFFF } 32 32 := by decide

theorem witness_XtalkDegenerateGeometryCopies :
    (({ pending .xtalk [] 0 0x20 2 with geomW := 0, geomH := 5 } : State).geomW = 0 ∧
      Regions { pending .xtalk [] 0 0x20 2 with geomW := 0, geomH := 5 } 32 32) ∧
    (({ pending .xtalk [] 0 0x20 2 with geomW := 5, geomH := 0 } : State).geomH = 0 ∧
      Regions { pending .xtalk [] 0 0x20 2 with geomW := 5, geomH := 0 } 32 32) := by decide

theorem witness_RdnpDiscardsPolarization : Regions (pending .rdnp [] 0 1 1) 16 1 := by decide

/-- Two sources that overlap each other. -/
theorem witness_VobfSetsResult :
    Fits { pending .vobf [] 0 0x3F0 1 with src2Addr := 0x3FF, src2Len := 1 } 0x3F0 16 ∧
    Fits { pending .vobf [] 0 0x3F0 1 with src2Addr := 0x3FF, src2Len := 1 } 0x3FF 1 := by decide

theorem witness_EccaddWritesSystematicCode : Regions (pending .eccadd [] 11 0 11) 11 28 := by decide

/-- The protected sequence of 01 .. 0A, pending for ECCREC. -/
def recovering (bs : List Byte) : State := pending (.eccrec false) (bytesAt 0x40 bs) 0 0x40 14

theorem witness_EccrecAcceptsIntactSequence :
    count (recovering protected10) % 14 = 0 ∧ Regions (recovering protected10) 14 10 ∧
    Intact platform (recovering protected10).mem 0x40 1 := by
  refine ⟨by decide, by decide, fun j t hj ht => ?_⟩
  obtain rfl : t = 0 := by omega
  interval_cases j <;> decide +kernel

theorem witness_EccrecIntegrityFailure :
    count (recovering (0 :: protected10.tail)) % 14 = 0 ∧ Regions (recovering (0 :: protected10.tail)) 14 10 ∧
    ¬ Intact platform (recovering (0 :: protected10.tail)).mem 0x40 1 :=
  ⟨by decide, by decide, fun h => absurd (h 0 0 (by decide) (by decide)) (by decide +kernel)⟩

theorem witness_EccrecLengthError :
    count (pending (.eccrec false) [] 0 0 13) % 14 ≠ 0 ∧ count (pending (.eccrec true) [] 0 0 15) % 14 ≠ 0 := by decide

/-- The premises of CodesFollowPriority on a reserved word, and on a command for each code. -/
theorem witness_CodesFollowPriority :
    (statusAfter (step { pending .enc [] 0 0 0 with cmd := 0 }) = some 0x12) ∧
    (statusAfter (step { pending .noise [] 0 0 1 with param := 0x7F800000 }) = some 0x22) ∧
    (statusAfter (step (pending (.eccrec false) [] 0 0 13)) = some 0x32) ∧
    (statusAfter (step (pending .enc [] 0x3F1 0 1)) = some 0x42) ∧
    (statusAfter (step (pending .enc (bytesAt 0 [7]) 0 0 1)) = some 0x52) ∧
    (statusAfter (step (recovering (0 :: protected10.tail))) = some 0x62) ∧
    (pending .enc [] 0 0 0).turn = .block ∧ (pending .enc [] 0 0 0).status.busy = true := by decide +kernel

theorem witness_BadParamOnlyFromNoise :
    (∃ t, exec .noise { pending .noise [] 0 0 1 with param := 0x7C23D70A } = .next t ∧ t.status.err = 2) ∧
    ∃ t, exec .xtalk { pending .xtalk [] 0 0 0 with param := 0x7FC00000 } = .next t ∧ t.status.err = 0 :=
  ⟨⟨_, rfl, by decide +kernel⟩, _, rfl, by decide +kernel⟩

theorem witness_ErrorsHaveNoOtherEffect :
    (pending .enc [] 0x3F1 0 1).turn = .block ∧ (pending .enc [] 0x3F1 0 1).status.busy = true ∧
    StatusRules (pending .enc [] 0x3F1 0 1).status (pending .enc [] 0x3F1 0 1).dstLen ∧
    ∃ t, step (pending .enc [] 0x3F1 0 1) = .next t ∧ t.status.err = 4 := by
  refine ⟨by decide, by decide, by decide, _, rfl, by decide +kernel⟩

/-- A command without a destination region, and one with it. -/
theorem witness_CommandFrame :
    destination .vobf (pending .vobf [] 0 0 0) = none ∧
    destination .enc (pending .enc [] 0x10 0 1) = some ⟨0x10, 16⟩ := by decide

/-- Two buffers that agree on the source byte alone. -/
theorem witness_CommandReadsOnlySources :
    (∀ r ∈ sources .enc (pending .enc (bytesAt 0 [7]) 0x10 0 1), ∀ x, r.start ≤ x → x < r.start + r.extent →
      Memory.byteAt (bytesAt 0 [7, 8]) x = Memory.byteAt (bytesAt 0 [7]) x) ∧
    (∃ t, exec .enc (pending .enc (bytesAt 0 [7]) 0x10 0 1) = .next t ∧ t.status.err = 0) ∧
    ∃ t, exec .enc { pending .enc (bytesAt 0 [7]) 0x10 0 1 with mem := bytesAt 0 [7, 8] } = .next t := by
  refine ⟨fun r hr x h h' => ?_, ⟨_, rfl, by decide +kernel⟩, _, rfl⟩
  obtain rfl : r = ⟨0, 1⟩ := by simpa [sources, pending, State.srcAt, State.srcCount] using hr
  obtain rfl : x = 0 := by simpa using h'
  decide +kernel

theorem witness_CodecLengthLaw :
    ∃ t, exec .dec (pending .dec [] 0x3FF 0 1) = .next t ∧ t.status.err = 0 := ⟨_, rfl, by decide +kernel⟩

theorem witness_IntensityDecisionRegions :
    isFinite 0x7FC00000 = false ∧ isFinite 0xFF800000 = false ∧ isFinite 0x3EC00000 = true ∧ isFinite 0xFF7FFFFF = true := by decide

theorem witness_WavelengthDecisionRegions :
    isFinite 0x7FC00000 = false ∧ isFinite 0xFF800000 = false ∧ isFinite 0x43F58000 = true ∧ isFinite 0x44354001 = true := by decide

theorem witness_PolarizationDecisionRegions :
    isFinite 0x7FC00000 = false ∧ isFinite 0xFF800000 = false ∧ isFinite 0xBDCCCCCD = true ∧ ∃ r, r = f32Units 0xBDCCCCCD % f32Units 0x40490FDB :=
  ⟨by decide, by decide, by decide, _, rfl⟩

theorem witness_PhaseDecisionRegions :
    isFinite 0x7FC00000 = false ∧ isFinite 0xFF800000 = false ∧ isFinite 0xBF800000 = true ∧ ∃ r, r = f32Units 0xBF800000 % f32Units 0x40C90FDB :=
  ⟨by decide, by decide, by decide, _, rfl⟩

theorem witness_CodecRoundTrip : (1 : BitVec 2) ≠ 0 := by decide

theorem witness_EncThenDecReturnsInput :
    (∃ t, exec .enc (pending .enc (bytesAt 0 [7]) 0x10 0 1) = .next t ∧ t.status.err = 0 ∧ Fits t 1 1) ∧
    Apart 1 1 0x10 16 := ⟨⟨_, rfl, by decide +kernel, by decide⟩, by decide⟩

/-- The decode-noise bounds themselves, on the voxel of 0xAB, and commands whose records are encoded. -/
theorem witness_DecodeNoiseTolerance :
    NoisyVoxel ⟨0x3D4CCCCD, 0x3DA3D70A, 0x3DCCCCCD, 0x41200000⟩ (encodeByte 0x00)
      ⟨0x3E99999A, 0xBDA3D70A, 0x3DCCCCCD, 0x44028000⟩ ∧
    (∃ t, exec .dec (pending .dec (bytesAt 0 recordAB) 0x200 0 1) = .next t ∧ t.status.err = 0) ∧
    (∃ u, exec .decn (pending .dec (bytesAt 0 recordAB) 0x200 0 1) = .next u) ∧
    Memory.voxRead (bytesAt 0 recordAB) (0 + 16 * 0) = encodeByte 0xAB ∧
    (isFinite 0xC1200000 = true ∧ -f32Units 0x41200000 ≤ f32Units 0xC1200000 ∧
      fadd (lut .wavelength 0) 0xC1200000 = some 0x44028000) := by
  refine ⟨⟨⟨0x3D4CCCCD, ?_⟩, ⟨0xBDA3D70A, ?_⟩, ⟨0x3DCCCCCD, ?_⟩, ⟨0xC1200000, ?_⟩⟩, ⟨_, rfl, ?_⟩, ⟨_, rfl⟩, ?_, ?_⟩ <;>
    decide +kernel

theorem witness_NeighboursInOrder : 0 < 3 ∧ 0 < 2 ∧ 6 < 7 ∧ neighbours 3 2 7 6 = [0] := by decide +kernel

/-- A lattice, and a degenerate one. -/
theorem witness_XtalkSaturationLaw :
    (∃ t, exec .xtalk { pending .xtalk [] 0x100 0 2 with geomW := 1, geomH := 1 } = .next t ∧ t.status.err = 0) ∧
    ∃ t, exec .xtalk { pending .xtalk [] 0x100 0 2 with geomW := 0, geomH := 1 } = .next t ∧ t.status.err = 0 :=
  ⟨⟨_, rfl, by decide +kernel⟩, _, rfl, by decide +kernel⟩

/-- The records of 04 00 and of 04 04 with their bytes: different polarization bits, and the same ones. -/
def probed (bs : List Byte) : State :=
  { pending .vobf (Memory.write (Memory.voxWriteAll [] 0 (bs.map encodeByte)) 0x40 bs) 0 0 2 with
    src2Addr := 0x40, src2Len := 2 }

theorem witness_ProbeLaw :
    (∀ bs ∈ [[0x04, 0x00], [0x04, 0x04]], Fits (probed bs) 0 32 ∧ Fits (probed bs) 0x40 2 ∧
      (probed bs).src2Len = (probed bs).srcLen ∧
      ∀ i < 2, Memory.voxRead (probed bs).mem (0 + 16 * i) = encodeByte (Memory.byteAt (probed bs).mem (0x40 + i))) ∧
    (Memory.byteAt (probed [0x04, 0x00]).mem (0x40 + 0)).extractLsb' 2 2 ≠
      (Memory.byteAt (probed [0x04, 0x00]).mem (0x40 + 1)).extractLsb' 2 2 ∧
    (∀ i < 2, (Memory.byteAt (probed [0x04, 0x04]).mem (0x40 + i)).extractLsb' 2 2 = 1) := by decide +kernel

theorem witness_EccRoundTrip :
    platform.bufBytes ≤ 2 ^ 32 ∧
    (∃ t, exec .eccadd (pending .eccadd (bytesAt 0 [7]) 0x10 0 1) = .next t ∧ t.status.err = 0 ∧
      Fits t 0x1E (10 * ((1 + 9) / 10))) ∧
    Apart 0x1E (10 * ((1 + 9) / 10)) 0x10 (14 * ((1 + 9) / 10)) :=
  ⟨by decide, ⟨_, rfl, by decide +kernel, by decide⟩, by decide⟩

/-- One changed byte, and four. -/
theorem witness_DefaultCodeDetectsFourErrors :
    platform.gfPoly = Config.defaultGfPoly ∧ platform.rsParity = Config.defaultRsParity ∧
    protected10.length = 14 * 1 ∧ intact platform 1 protected10 = true ∧
    (∀ bs ∈ [0 :: protected10.tail, [0, 0, 0, 0] ++ protected10.drop 4], bs.length = 14 * 1 ∧
      1 ≤ ((List.range (14 * 1)).filter fun x => protected10.getD x 0 != bs.getD x 0).length ∧
      ((List.range (14 * 1)).filter fun x => protected10.getD x 0 != bs.getD x 0).length ≤ 4) ∧
    ∀ x, x % 1 = 0 :=
  ⟨by decide, by decide, by decide, by decide +kernel, by decide +kernel, fun x => Nat.mod_one x⟩

theorem witness_GfMultiplication : (0x11D : BitVec 9).getLsbD 8 = true ∧ (0x11B : BitVec 9).getLsbD 8 = true := by decide

theorem witness_DefaultParityFromVandermonde : 3 < 4 ∧ 9 < 10 := by decide

/-- A tie that goes to the even fraction, and half a step above the largest finite value. -/
theorem witness_RoundingIsNearestTiesToEven :
    0 < 2 ∧ roundMagnitude 1 2 = 0 ∧ 1 ≠ roundMagnitude 1 2 ∧ roundMagnitude 3 2 = 2 ∧
    roundMagnitude ((2 ^ 25 - 1) * 2 ^ 252) 1 = 0x7F800000 ∧ isFinite 0x7F7FFFFF = true ∧ isFinite 0x80000001 = true := by
  decide +kernel

theorem witness_SpecialValueArithmetic :
    isNaN 0x7FC00000 = true ∧ isInf 0x7F800000 = true ∧ isInf 0xFF800000 = true ∧
    f32Sign 0x7F800000 ≠ f32Sign 0xFF800000 ∧ isFinite 0x80000000 = true ∧ f32Units 0x80000000 = 0 ∧
    isNaN 0xBF800000 = false ∧ f32Units 0xBF800000 ≠ 0 ∧ f32Units 0x3F800000 + f32Units 0xBF800000 = 0 := by
  decide +kernel

end Sys2Proof.Tests
end

section
/-! The register window: the host's step on a register, a busy block's register accesses, the reserved offsets and
the reserved bits of STATUS (10_state.md R22, R24, R34-R36). -/

namespace Sys2Proof.Machine

open Sys2Proof.Spec

/-- The host's aligned 32-bit write inside the register window is one register write (10_state.md R22). -/
theorem step_write_register (s : State) (off v : Nat) (rest : List HostOp) (hoff : off < 64) (ha : off % 4 = 0)
    (h : HostDoes s (.write (s.cfg.regBase + off) 4 v) rest) :
    step s = .next ((s.takeTurn.setProg rest).regWrite off (BitVec.ofNat 32 v)) := by
  obtain ⟨hturn, hprog⟩ := h
  rw [step_host s _ _ hturn hprog]
  simp [hostOp, hostWrite, targetOf_window s.cfg off hoff ha]

/-- The host's aligned 32-bit read inside the register window is one register read (10_state.md R22). -/
theorem step_read_register (s : State) (off : Nat) (rest : List HostOp) (hoff : off < 64) (ha : off % 4 = 0)
    (h : HostDoes s (.read (s.cfg.regBase + off) 4) rest) :
    step s = .next ((s.takeTurn.setProg rest).hostRegRead off) := by
  obtain ⟨hturn, hprog⟩ := h
  rw [step_host s _ _ hturn hprog]
  simp [hostOp, hostRead, targetOf_window s.cfg off hoff ha]

/-- A busy block ignores register writes (10_state.md R35). -/
theorem State.regWrite_of_busy (s : State) (off : Nat) (v : Word) (hb : s.status.busy = true) :
    s.regWrite off v = s := if_pos hb

/-- A register read of a busy block never synchronises the host, not even one of STATUS (10_state.md R36). -/
theorem State.hostRegRead_of_busy (s : State) (off : Nat) (hb : s.status.busy = true) :
    s.hostRegRead off = s.noteRead (s.regRead off).toNat := by
  simp [State.hostRegRead, State.noteRead, hb]

/-- Past GEOM_H, the last register, every offset reads 0. -/
theorem State.regRead_eq_zero (s : State) (off : Nat) (h : 0x28 < off) : s.regRead off = 0 := by
  unfold State.regRead
  repeat rw [if_neg (by omega)]

/-- Past GEOM_H, the last register, a write to an idle block changes nothing. -/
theorem State.regWriteIdle_eq_self (s : State) (off : Nat) (v : Word) (h : 0x28 < off) :
    s.regWriteIdle off v = s := by
  unfold State.regWriteIdle
  repeat rw [if_neg (by omega)]

/-- A write that an idle block ignores is ignored by every block. -/
theorem State.regWrite_eq_self (s : State) (off : Nat) (v : Word) (h : s.regWriteIdle off v = s) :
    s.regWrite off v = s := by
  unfold State.regWrite
  split
  · rfl
  · exact h

@[simp] theorem State.regRead_status (s : State) : s.regRead 0x04 = s.status.word := rfl

/-- The bits of STATUS with no storage read 0 (10_state.md R24, R34). -/
theorem Status.word_reserved_bit (st : Status) (i : Nat) (h : i = 2 ∨ i = 3 ∨ 9 ≤ i) :
    st.word.getLsbD i = false := by
  simp only [Status.word, BitVec.getLsbD_append]
  rcases h with rfl | rfl | h
  · simp
  · simp
  · rw [if_neg (by omega), if_neg (by omega), if_neg (by omega), if_neg (by omega), if_neg (by omega)]
    exact BitVec.getLsbD_zero

/-- 0xFFFFFE0C selects only the bits 3:2 and 31:9. -/
theorem statusReservedMask_bit : ∀ i < 32, (0xFFFFFE0C#32).getLsbD i = true → i = 2 ∨ i = 3 ∨ 9 ≤ i := by decide

theorem Status.word_and_reservedMask (st : Status) : st.word &&& 0xFFFFFE0C#32 = 0 := by
  apply BitVec.eq_of_getLsbD_eq
  intro i hi
  rw [BitVec.getLsbD_and]
  cases hm : (0xFFFFFE0C#32).getLsbD i with
  | false => simp
  | true => simp [st.word_reserved_bit i (statusReservedMask_bit i hi hm)]

end Sys2Proof.Machine

namespace Sys2Proof.Proofs

open Sys2Proof.Machine Sys2Proof.Spec

/-- Settles O14: each access is one register access (`step_write_register`, `step_read_register`), which a busy block
ignores or answers without synchronising. -/
theorem registerWritesIgnoredWhileBusy : Obligations.RegisterWritesIgnoredWhileBusy := by
  intro s off rest hb hoff ha
  have busy : (s.takeTurn.setProg rest).status.busy = true := hb
  constructor
  · intro v h
    rw [step_write_register s off v rest hoff ha h, State.regWrite_of_busy _ _ _ busy]
    rfl
  · intro h
    rw [step_read_register s off rest hoff ha h, State.hostRegRead_of_busy _ _ busy]
    rfl

/-- Settles O18: the reserved offsets lie past the last register, and no bit of the mask has storage in STATUS. -/
theorem reservedOffsetsAndBitsReadZero : Obligations.ReservedOffsetsAndBitsReadZero := by
  intro s off hoff
  have past : 0x28 < off := by
    simp only [List.mem_cons, List.not_mem_nil, or_false] at hoff
    omega
  refine ⟨s.regRead_eq_zero off past, fun v => ?_, ?_⟩
  · exact s.regWrite_eq_self off v (s.regWriteIdle_eq_self off v past)
  · rw [State.regRead_status, Status.word_and_reservedMask]

end Sys2Proof.Proofs
end

section
/-! The decoder: when a command word decodes, the fields of its command, and the one row of the opcode map that selects
it (30_encoding.md R90, R91). -/

namespace Sys2Proof

theorem Cmd32.opDefined_iff (c : Cmd32) : c.opDefined = true ↔ 1 ≤ c.op.toNat ∧ c.op.toNat ≤ 9 := by
  simp [Cmd32.opDefined, BitVec.le_def]

theorem Cmd32.rsvZero_iff (c : Cmd32) : c.rsvZero = true ↔ c.rsv = 0 := beq_iff_eq

theorem Cmd32.surfaceAllowed_iff (c : Cmd32) : c.surfaceAllowed = true ↔ c.surface = false ∨ c.op = 9 := by
  simp [Cmd32.surfaceAllowed]

theorem Cmd32.legal_iff (c : Cmd32) :
    c.legal = true ↔ c.opDefined = true ∧ c.rsvZero = true ∧ c.surfaceAllowed = true := by
  simp [Cmd32.legal, and_assoc]

/-- A command carries the operation code that selects it. -/
theorem Instr.op_of_decodeOp {op : BitVec 8} {sb : Bool} {i : Instr} (h : decodeOp op sb = some i) : i.op = op := by
  unfold decodeOp at h
  split at h <;> cases h <;> rfl

/-- Only ECCREC keeps the S bit; every other command drops it. -/
theorem Instr.surface_of_decodeOp {op : BitVec 8} {sb : Bool} {i : Instr} (h : decodeOp op sb = some i) :
    i.surface = (sb && op == 9#8) := by
  unfold decodeOp at h
  split at h <;> cases h <;> simp [Instr.surface]

/-- The operation codes with a row are those of R91 condition (1). -/
theorem decodeOp_defined_iff (op : BitVec 8) (sb : Bool) : (∃ i, decodeOp op sb = some i) ↔ 1#8 ≤ op ∧ op ≤ 9#8 := by
  rw [← Option.isSome_iff_exists]
  revert op sb
  decide

/-- A word decodes when its reserved bits are 0, its S bit is allowed and its operation code has a row. -/
theorem decode_ok_iff (w : Word) (i : Instr) :
    decode w = .ok i ↔
      (splitWord w).rsvZero = true ∧ (splitWord w).surfaceAllowed = true ∧
        decodeOp (splitWord w).op (splitWord w).surface = some i := by
  cases hr : (splitWord w).rsvZero with
  | false => simp [decode, hr]
  | true =>
    cases hs : (splitWord w).surfaceAllowed with
    | false => simp [decode, hr, hs]
    | true => cases ho : decodeOp (splitWord w).op (splitWord w).surface <;> simp [decode, hr, hs, ho]

/-- The words that decode are the legal ones (30_encoding.md R91). -/
theorem decode_defined_iff_legal (w : Word) : (∃ i, decode w = .ok i) ↔ (splitWord w).legal = true := by
  have hop : (splitWord w).opDefined = true ↔ ∃ i, decodeOp (splitWord w).op (splitWord w).surface = some i := by
    simp [decodeOp_defined_iff, Cmd32.opDefined]
  simp only [decode_ok_iff, Cmd32.legal_iff, exists_and_left, hop]
  tauto

/-- The fields of the word are those of the command it decodes to. -/
theorem splitWord_eq_fields_of_decode {w : Word} {i : Instr} (h : decode w = .ok i) : splitWord w = i.fields := by
  obtain ⟨hrsv, hallowed, hop⟩ := (decode_ok_iff w i).1 h
  have hsurface : i.surface = (splitWord w).surface := by
    rw [Instr.surface_of_decodeOp hop]
    rcases (Cmd32.surfaceAllowed_iff _).1 hallowed with hs | hs <;> simp [hs]
  simp only [Instr.fields, Instr.op_of_decodeOp hop, hsurface, ← (Cmd32.rsvZero_iff _).1 hrsv]

/-- Splitting a word into its fields loses no bit (30_encoding.md R90). -/
theorem joinWord_splitWord (w : Word) : joinWord (splitWord w) = w := by
  apply BitVec.eq_of_getLsbD_eq
  intro k hk
  simp only [joinWord, splitWord, BitVec.getLsbD_append, BitVec.getLsbD_extractLsb', BitVec.getLsbD_ofBool]
  by_cases hop : k < 8
  · simp [hop]
  · by_cases hs : k = 8
    · simp [hs]
    · have hrsv : ¬ k - 8 < 1 := by omega
      simp [hop, hrsv, show k - 8 - 1 < 23 by omega, show 9 + (k - 8 - 1) = k by omega]

/-- A word that decodes is the word of its command. -/
theorem encode_of_decode {w : Word} {i : Instr} (h : decode w = .ok i) : encode i = w := by
  rw [encode, ← splitWord_eq_fields_of_decode h, joinWord_splitWord]

theorem splitWord_op_toNat (w : Word) : (splitWord w).op.toNat = w.toNat % 256 := by
  simp [splitWord, BitVec.extractLsb'_toNat]

theorem splitWord_rsv_toNat (w : Word) : (splitWord w).rsv.toNat = w.toNat / 512 := by
  simp only [splitWord, BitVec.extractLsb'_toNat, Nat.shiftRight_eq_div_pow]
  exact Nat.mod_eq_of_lt (by omega)

theorem splitWord_rsv_eq_zero_iff (w : Word) : (splitWord w).rsv = 0 ↔ w.toNat / 512 = 0 := by
  rw [← splitWord_rsv_toNat, ← BitVec.toNat_inj]
  rfl

theorem splitWord_surface_eq_false_iff (w : Word) : (splitWord w).surface = false ↔ w.toNat / 256 % 2 = 0 := by
  simp [splitWord, BitVec.getLsbD, Nat.testBit_eq_decide_div_mod_eq]

/-- R91's three conditions on a word's fields, as conditions on the word's value. -/
theorem splitWord_legal_iff (w : Word) :
    (splitWord w).legal = true ↔
      1 ≤ w.toNat % 256 ∧ w.toNat % 256 ≤ 9 ∧ w.toNat / 512 = 0 ∧
        (w.toNat / 256 % 2 = 0 ∨ w.toNat % 256 = 9) := by
  have hop : (splitWord w).op = 9 ↔ w.toNat % 256 = 9 := by
    rw [← splitWord_op_toNat, ← BitVec.toNat_inj]
    rfl
  rw [Cmd32.legal_iff, Cmd32.opDefined_iff, Cmd32.rsvZero_iff, Cmd32.surfaceAllowed_iff, splitWord_op_toNat,
    splitWord_rsv_eq_zero_iff, splitWord_surface_eq_false_iff, hop, and_assoc]

/-- The per-command row statements, for every command. -/
theorem opcodeRows_select (i : Instr) : Laws.OpcodeRow.Statement i := by
  cases i with
  | enc => exact Laws.OpcodeRow.enc
  | dec => exact Laws.OpcodeRow.dec
  | decn => exact Laws.OpcodeRow.decn
  | noise => exact Laws.OpcodeRow.noise
  | xtalk => exact Laws.OpcodeRow.xtalk
  | rdnp => exact Laws.OpcodeRow.rdnp
  | vobf => exact Laws.OpcodeRow.vobf
  | eccadd => exact Laws.OpcodeRow.eccadd
  | eccrec sb => exact Laws.OpcodeRow.eccrec sb

/-- The mnemonics of the rows that select a command's word are its own mnemonic alone. -/
theorem selected_mnemonic_iff (i : Instr) (name : String) :
    (∃ r ∈ opcodeRows, r.mnemonic = name ∧ r.selects (encode i) = true) ↔ name = i.mnemonic := by
  have hmem : name ∈ (opcodeRows.filter fun r => r.selects (encode i)).map (fun r => r.mnemonic) ↔
      name = i.mnemonic := by
    rw [opcodeRows_select i, List.mem_singleton]
  rw [← hmem]
  simp only [List.mem_map, List.mem_filter]
  exact exists_congr fun r => by tauto

/-- A word that does not decode is rejected under some name. -/
theorem decode_error_of_not_ok {w : Word} (h : ∀ i, decode w ≠ .ok i) : ∃ e, decode w = .error e := by
  cases hd : decode w with
  | ok i => exact absurd hd (h i)
  | error e => exact ⟨e, rfl⟩

end Sys2Proof

namespace Sys2Proof.Machine

open Sys2Proof.Spec

/-- A CMD write to an idle block issues the word, whatever the word (10_state.md R23). -/
theorem State.regWrite_cmd_of_idle (s : State) (v : Word) (hb : s.status.busy = false) :
    s.regWrite 0x00 v = s.issue v := by
  simp [State.regWrite, State.regWriteIdle, hb]

/-- The host's CMD write to an idle block is one step, the issue of the word written (10_state.md R23). -/
theorem step_issue (s : State) (v : Word) (rest : List HostOp)
    (h : HostDoes s (.write s.cfg.regBase 4 v.toNat) rest) (hb : s.status.busy = false) :
    step s = .next ((s.takeTurn.setProg rest).issue v) := by
  have idle : (s.takeTurn.setProg rest).status.busy = false := hb
  rw [step_write_register s 0x00 v.toNat rest (by decide) (by decide) h, BitVec.ofNat_toNat, BitVec.setWidth_eq,
    State.regWrite_cmd_of_idle _ _ idle]

/-- The block's turn on a pending illegal word completes it with ILLEGAL_CMD (30_encoding.md R92). -/
theorem step_block_illegal (s : State) (ht : s.turn = .block) (hb : s.status.busy = true)
    (h : ∀ i, decode s.cmd ≠ .ok i) :
    step s = .next { s with status := ⟨false, true, 1, s.status.result⟩, sched := s.sched.tail } := by
  obtain ⟨e, he⟩ := decode_error_of_not_ok h
  have hp : s.takeTurn.pending = .error e := he
  calc step s = illegalCommand s.takeTurn := by simp [step, ht, blockTurn, hb, hp]
    _ = _ := rfl

/-- While a command is pending RESULT and DST_LEN are 0 (10_state.md R47). -/
theorem result_dstLen_of_busy {st : Status} {dstLen : Word} (h : StatusRules st dstLen) (hb : st.busy = true) :
    st.result = false ∧ dstLen = 0 := by
  obtain ⟨notBoth, _, notDone, _⟩ := h
  have hdone : st.done = false := by simpa [hb] using notBoth
  obtain ⟨_, hresult, hlen⟩ := notDone hdone
  exact ⟨hresult, hlen⟩

end Sys2Proof.Machine

namespace Sys2Proof.Proofs

open Sys2Proof.Machine Sys2Proof.Spec

/-- Settles O1: a word decodes iff its fields are legal, and is then the word of its command, which the command's own
row alone selects. -/
theorem decodeFollowsOpcodeMap : Obligations.DecodeFollowsOpcodeMap := by
  intro w
  refine ⟨(decode_defined_iff_legal w).trans (splitWord_legal_iff w), fun i h => ?_⟩
  have hfields := splitWord_eq_fields_of_decode h
  have hrows := selected_mnemonic_iff i
  rw [encode_of_decode h] at hrows
  refine ⟨?_, ?_, (hrows _).2 rfl, fun r hr hsel => (hrows _).1 ⟨r, hr, rfl, hsel⟩⟩
  · rw [← splitWord_op_toNat, hfields]
    rfl
  · exact (congrArg Cmd32.surface hfields).symm

/-- Settles O9: the issue does not look at the word (`step_issue`), and the completion of a word that does not decode
touches STATUS alone (`step_block_illegal`). -/
theorem illegalWordCompletes : Obligations.IllegalWordCompletes := by
  refine ⟨fun s v rest h hb _ => step_issue s v rest h hb, fun s ht hb hillegal => ?_⟩
  have hstep := step_block_illegal s ht hb hillegal
  refine ⟨hstep, fun rules => ?_⟩
  obtain ⟨hresult, hlen⟩ := result_dstLen_of_busy rules hb
  rw [hstep, hresult, ← hlen]

end Sys2Proof.Proofs
end

section
/-! Classification (40_codec.md R121-R126): the level values, Classify as the choice of the first nearest level, and the
circular metric as the distance between remainders and as the distance to the nearest turn. -/

namespace Sys2Proof.Machine

theorem level_cases : ∀ k : BitVec 2, k = 0 ∨ k = 1 ∨ k = 2 ∨ k = 3 := by decide

/-- A statement about every level index is one about the four of them. -/
theorem forall_level {P : BitVec 2 → Prop} : (∀ k, P k) ↔ P 0 ∧ P 1 ∧ P 2 ∧ P 3 := by
  refine ⟨fun h => ⟨h 0, h 1, h 2, h 3⟩, fun ⟨h0, h1, h2, h3⟩ k => ?_⟩
  rcases level_cases k with rfl | rfl | rfl | rfl <;> assumption

/-- The value of a row of four by level index. -/
def levelRow (e0 e1 e2 e3 : Int) (k : BitVec 2) : Int :=
  if k = 0 then e0 else if k = 1 then e1 else if k = 2 then e2 else e3

/-- A channel's level values as numerators over one power of two, `levelScale`; phase has the polarization row at
twice the scale (10_state.md R37-R40). -/
def levelNumerator : Channel → BitVec 2 → Int
  | .intensity => levelRow 1 2 3 4
  | .polarization | .phase => levelRow 0 26353590 52707180 79060768
  | .wavelength => levelRow 532 650 450 800

/-- The unit of `levelNumerator`, itself in units of 2^-149. -/
def levelScale : Channel → Int
  | .intensity => 2 ^ 147
  | .polarization => 2 ^ 124
  | .phase => 2 ^ 125
  | .wavelength => 2 ^ 149

theorem f32Units_lut (c : Channel) : ∀ k, f32Units (lut c k) = levelNumerator c k * levelScale c := by
  cases c <;> decide

theorem f32Units_periodP : f32Units periodP = 105414360 * levelScale .polarization := by decide

theorem f32Units_periodH : f32Units periodH = 105414360 * levelScale .phase := by decide

/-! ### Classify -/

/-- Level k is the nearest one to x, and the first of those at its distance (40_codec.md R122). -/
def IsFirstNearest (c : Channel) (x : Int) (k : BitVec 2) : Prop :=
  (∀ j < k, levelDist c x k < levelDist c x j) ∧ ∀ j > k, levelDist c x k ≤ levelDist c x j

/-- The comparisons keep a level that no later one beats. -/
theorem foldl_classifyStep_keeps (c : Channel) (x : Int) (k : BitVec 2) (js : List (BitVec 2))
    (h : ∀ j ∈ js, levelDist c x k ≤ levelDist c x j) : js.foldl (classifyStep c x) k = k := by
  induction js with
  | nil => rfl
  | cons j js ih =>
    have kept : classifyStep c x k j = k := if_neg (by simpa using h j (by simp))
    rw [List.foldl_cons, kept]
    exact ih fun i hi => h i (by simp [hi])

/-- The comparisons stop at one of the levels they have seen. -/
theorem foldl_classifyStep_mem (c : Channel) (x : Int) (b : BitVec 2) (js : List (BitVec 2)) :
    js.foldl (classifyStep c x) b ∈ b :: js := by
  induction js generalizing b with
  | nil => simp
  | cons j js ih =>
    have hstep : classifyStep c x b j ∈ [b, j] := by
      unfold classifyStep
      split <;> simp
    rw [List.foldl_cons]
    rcases List.mem_cons.1 (ih (classifyStep c x b j)) with h | h
    · rw [h]
      exact List.mem_append_left js hstep
    · simp [h]

/-- A level nearer than all before it and no farther than any after it is where the comparisons stop. -/
theorem foldl_classifyStep_eq (c : Channel) (x : Int) (b k : BitVec 2) (pre post : List (BitVec 2))
    (hpre : ∀ j ∈ b :: pre, levelDist c x k < levelDist c x j)
    (hpost : ∀ j ∈ post, levelDist c x k ≤ levelDist c x j) :
    (pre ++ k :: post).foldl (classifyStep c x) b = k := by
  have taken : classifyStep c x (pre.foldl (classifyStep c x) b) k = k :=
    if_pos (hpre _ (foldl_classifyStep_mem c x b pre))
  rw [List.foldl_append, List.foldl_cons, taken, foldl_classifyStep_keeps c x k post hpost]

/-- A NaN or an infinity classifies to 0 (40_codec.md R122). -/
theorem classify_of_not_finite (c : Channel) (u : Word) (h : isFinite u = false) : classify c u = 0 := by
  simp [classify, h]

/-- Classify answers the first nearest level (40_codec.md R122). -/
theorem classify_eq_of_isFirstNearest {c : Channel} {u : Word} {k : BitVec 2} (hf : isFinite u = true)
    (h : IsFirstNearest c (f32Units u) k) : classify c u = k := by
  obtain ⟨hbelow, habove⟩ := h
  have fold : classify c u = [1, 2, 3].foldl (classifyStep c (f32Units u)) 0 := by simp [classify, hf]
  rw [fold]
  rcases level_cases k with rfl | rfl | rfl | rfl
  · exact foldl_classifyStep_keeps _ _ 0 [1, 2, 3] fun j hj => habove j (by revert j; decide)
  · exact foldl_classifyStep_eq _ _ 0 1 [] [2, 3] (fun j hj => hbelow j (by revert j; decide))
      fun j hj => habove j (by revert j; decide)
  · exact foldl_classifyStep_eq _ _ 0 2 [1] [3] (fun j hj => hbelow j (by revert j; decide))
      fun j hj => habove j (by revert j; decide)
  · exact foldl_classifyStep_eq _ _ 0 3 [1, 2] [] (fun j hj => hbelow j (by revert j; decide)) (by simp)

/-! ### The metrics -/

/-- The circular distance between two values, by their remainders modulo the period. -/
theorem distCirc_eq_of_emod (x l t : Int) (h0 : 0 ≤ l) (ht : l < t) :
    distCirc x l t = min |x % t - l| (t - |x % t - l|) := by
  have hpos : 0 < t := by omega
  have r0 := Int.emod_nonneg x hpos.ne'
  have rt := Int.emod_lt_of_pos x hpos
  unfold distCirc
  rw [← Int.emod_sub_emod]
  rcases le_or_gt l (x % t) with h | h
  · rw [Int.emod_eq_of_lt (by omega) (by omega), abs_of_nonneg (by omega)]
  · rw [← Int.add_emod_right, Int.emod_eq_of_lt (by omega) (by omega), abs_of_neg (by omega), min_comm]
    congr 1 <;> ring

/-- No turn brings two values nearer than their circular distance. -/
theorem distCirc_le (x l t m : Int) (ht : 0 < t) : distCirc x l t ≤ |x - l + m * t| := by
  have r0 := Int.emod_nonneg (x - l) ht.ne'
  have rt := Int.emod_lt_of_pos (x - l) ht
  have split : x - l + m * t = (x - l) % t + ((x - l) / t + m) * t := by
    linear_combination -(Int.emod_add_mul_ediv (x - l) t)
  rw [distCirc, split]
  rcases le_or_gt 0 ((x - l) / t + m) with h | h
  · have : 0 ≤ ((x - l) / t + m) * t := by positivity
    rw [abs_of_nonneg (by omega)]
    omega
  · have : ((x - l) / t + m) * t ≤ -1 * t := by gcongr; omega
    rw [abs_of_neg (by omega)]
    omega

theorem distCirc_le_abs (x l t : Int) (ht : 0 < t) : distCirc x l t ≤ |x - l| := by
  simpa using distCirc_le x l t 0 ht

/-- Some turn brings two values to their circular distance. -/
theorem distCirc_eq_turn (x l t : Int) (ht : 0 < t) : ∃ m : Int, distCirc x l t = |x - l + m * t| := by
  have r0 := Int.emod_nonneg (x - l) ht.ne'
  have rt := Int.emod_lt_of_pos (x - l) ht
  have div := Int.emod_add_mul_ediv (x - l) t
  rcases le_total ((x - l) % t) (t - (x - l) % t) with h | h
  · refine ⟨-((x - l) / t), ?_⟩
    rw [show x - l + -((x - l) / t) * t = (x - l) % t by linear_combination -div, abs_of_nonneg r0]
    exact min_eq_left h
  · refine ⟨-((x - l) / t) - 1, ?_⟩
    rw [show x - l + (-((x - l) / t) - 1) * t = (x - l) % t - t by linear_combination -div,
      abs_of_neg (by omega), neg_sub]
    exact min_eq_right h

/-- Moving one value by e changes the circular distance by at most |e|. -/
theorem distCirc_le_add (x y l t : Int) (ht : 0 < t) : distCirc y l t ≤ |x - y| + distCirc x l t := by
  obtain ⟨m, hm⟩ := distCirc_eq_turn x l t ht
  rw [hm, abs_sub_comm x y]
  calc distCirc y l t ≤ |y - l + m * t| := distCirc_le y l t m ht
    _ = |(y - x) + (x - l + m * t)| := by ring_nf
    _ ≤ |y - x| + |x - l + m * t| := abs_add_le _ _

theorem fieldDist_le_add (c : Channel) (x y l : Int) : fieldDist c y l ≤ |x - y| + fieldDist c x l := by
  have linear : distLin y l ≤ |x - y| + distLin x l := abs_sub_comm x y ▸ abs_sub_le y x l
  cases c with
  | intensity => exact linear
  | polarization => exact distCirc_le_add x y l _ (by decide)
  | phase => exact distCirc_le_add x y l _ (by decide)
  | wavelength => exact linear

/-- A value is no farther from a level than their plain difference. -/
theorem levelDist_le_abs (c : Channel) (x : Int) (k : BitVec 2) : levelDist c x k ≤ |x - f32Units (lut c k)| := by
  cases c with
  | intensity => exact le_rfl
  | polarization => exact distCirc_le_abs x _ _ (by decide)
  | phase => exact distCirc_le_abs x _ _ (by decide)
  | wavelength => exact le_rfl

/-- Half the smallest distance between two levels of a channel, in units of 2^-149 (40_codec.md R132). -/
def levelMargin : Channel → Int
  | .intensity => 2 ^ 146
  | .polarization => 13176794 * 2 ^ 124
  | .phase => 13176794 * 2 ^ 125
  | .wavelength => 41 * 2 ^ 149

theorem levelMargin_pos (c : Channel) : 0 < levelMargin c := by
  cases c <;> decide

/-- Distinct levels of a channel are at least two margins apart. -/
theorem levels_apart (c : Channel) :
    ∀ k j : BitVec 2, j ≠ k → 2 * levelMargin c ≤ levelDist c (f32Units (lut c k)) j := by
  cases c <;> decide

/-- A field within the margin of a level classifies to it. -/
theorem classify_eq_of_within_margin {c : Channel} {u : Word} {k : BitVec 2} (hf : isFinite u = true)
    (h : |f32Units u - f32Units (lut c k)| < levelMargin c) : classify c u = k := by
  have nearer : ∀ j, j ≠ k → levelDist c (f32Units u) k < levelDist c (f32Units u) j := by
    intro j hj
    have apart := levels_apart c k j hj
    have hk := levelDist_le_abs c (f32Units u) k
    have triangle : levelDist c (f32Units (lut c k)) j ≤
        |f32Units u - f32Units (lut c k)| + levelDist c (f32Units u) j := fieldDist_le_add c _ _ _
    omega
  exact classify_eq_of_isFirstNearest hf
    ⟨fun j hj => nearer j (BitVec.ne_of_lt hj), fun j hj => (nearer j (BitVec.ne_of_lt hj).symm).le⟩

/-! ### Decision regions -/

section
variable {c : Channel} {x : Int}

theorem isFirstNearest_zero (h1 : levelDist c x 0 ≤ levelDist c x 1) (h2 : levelDist c x 0 ≤ levelDist c x 2)
    (h3 : levelDist c x 0 ≤ levelDist c x 3) : IsFirstNearest c x 0 := by
  simpa [IsFirstNearest, forall_level, and_assoc] using ⟨h1, h2, h3⟩

theorem isFirstNearest_one (h0 : levelDist c x 1 < levelDist c x 0) (h2 : levelDist c x 1 ≤ levelDist c x 2)
    (h3 : levelDist c x 1 ≤ levelDist c x 3) : IsFirstNearest c x 1 := by
  simpa [IsFirstNearest, forall_level, and_assoc] using ⟨h0, h2, h3⟩

theorem isFirstNearest_two (h0 : levelDist c x 2 < levelDist c x 0) (h1 : levelDist c x 2 < levelDist c x 1)
    (h3 : levelDist c x 2 ≤ levelDist c x 3) : IsFirstNearest c x 2 := by
  simpa [IsFirstNearest, forall_level, and_assoc] using ⟨h0, h1, h3⟩

theorem isFirstNearest_three (h0 : levelDist c x 3 < levelDist c x 0) (h1 : levelDist c x 3 < levelDist c x 1)
    (h2 : levelDist c x 3 < levelDist c x 2) : IsFirstNearest c x 3 := by
  simpa [IsFirstNearest, forall_level, and_assoc] using ⟨h0, h1, h2⟩

end

theorem levelDist_intensity (x : Int) :
    levelDist .intensity x 0 = |x - 1 * 2 ^ 147| ∧ levelDist .intensity x 1 = |x - 2 * 2 ^ 147| ∧
      levelDist .intensity x 2 = |x - 3 * 2 ^ 147| ∧ levelDist .intensity x 3 = |x - 4 * 2 ^ 147| := by
  simp only [levelDist, fieldDist, distLin, f32Units_lut]
  exact ⟨rfl, rfl, rfl, rfl⟩

theorem levelDist_wavelength (x : Int) :
    levelDist .wavelength x 0 = |x - 532 * 2 ^ 149| ∧ levelDist .wavelength x 1 = |x - 650 * 2 ^ 149| ∧
      levelDist .wavelength x 2 = |x - 450 * 2 ^ 149| ∧ levelDist .wavelength x 3 = |x - 800 * 2 ^ 149| := by
  simp only [levelDist, fieldDist, distLin, f32Units_lut]
  exact ⟨rfl, rfl, rfl, rfl⟩

theorem levelDist_polarization (x : Int) (k : BitVec 2) :
    levelDist .polarization x k =
      distCirc x (levelRow 0 26353590 52707180 79060768 k * 2 ^ 124) (105414360 * 2 ^ 124) := by
  rw [levelDist, fieldDist, f32Units_lut, f32Units_periodP]
  rfl

theorem levelDist_phase (x : Int) (k : BitVec 2) :
    levelDist .phase x k =
      distCirc x (levelRow 0 26353590 52707180 79060768 k * 2 ^ 125) (105414360 * 2 ^ 125) := by
  rw [levelDist, fieldDist, f32Units_lut, f32Units_periodH]
  rfl

/-- Intensity: the thresholds are the midpoints of neighbouring levels (40_codec.md R123). -/
theorem isFirstNearest_intensity (x : Int) :
    IsFirstNearest .intensity x
      (if 8 * x ≤ 3 * 2 ^ 149 then 0
      else if 8 * x ≤ 5 * 2 ^ 149 then 1
      else if 8 * x ≤ 7 * 2 ^ 149 then 2 else 3) := by
  obtain ⟨d0, d1, d2, d3⟩ := levelDist_intensity x
  rw [abs_eq_max_neg] at d0 d1 d2 d3
  split_ifs with h0 h1 h2
  · apply isFirstNearest_zero <;> omega
  · apply isFirstNearest_one <;> omega
  · apply isFirstNearest_two <;> omega
  · apply isFirstNearest_three <;> omega

/-- Wavelength: the thresholds are the midpoints of neighbours in the sorted palette 450, 532, 650, 800, whose indices
are 2, 0, 1, 3 (40_codec.md R124). -/
theorem isFirstNearest_wavelength (x : Int) :
    IsFirstNearest .wavelength x
      (if x < 491 * 2 ^ 149 then 2
      else if x ≤ 591 * 2 ^ 149 then 0
      else if x ≤ 725 * 2 ^ 149 then 1 else 3) := by
  obtain ⟨d0, d1, d2, d3⟩ := levelDist_wavelength x
  rw [abs_eq_max_neg] at d0 d1 d2 d3
  split_ifs with h2 h0 h1
  · apply isFirstNearest_two <;> omega
  · apply isFirstNearest_zero <;> omega
  · apply isFirstNearest_one <;> omega
  · apply isFirstNearest_three <;> omega

/-- The two circular channels have one level row and one period, at the scales 2^124 and 2^125: the regions of the
remainder r are those of R125 and R126 at once. -/
theorem isFirstNearest_circular {c : Channel} {x q r : Int} (hq : 0 < q) (hr : r = x % (105414360 * q))
    (hc : ∀ k, levelDist c x k = distCirc x (levelRow 0 26353590 52707180 79060768 k * q) (105414360 * q)) :
    IsFirstNearest c x
      (if r ≤ 13176795 * q ∨ 92237564 * q ≤ r then 0
      else if r ≤ 39530385 * q then 1
      else if r ≤ 65883974 * q then 2 else 3) := by
  have hpos : 0 < 105414360 * q := by omega
  have r0 := Int.emod_nonneg x hpos.ne'
  have rt := Int.emod_lt_of_pos x hpos
  have d0 := (hc 0).trans (distCirc_eq_of_emod x (0 * q) _ (by omega) (by omega))
  have d1 := (hc 1).trans (distCirc_eq_of_emod x (26353590 * q) _ (by omega) (by omega))
  have d2 := (hc 2).trans (distCirc_eq_of_emod x (52707180 * q) _ (by omega) (by omega))
  have d3 := (hc 3).trans (distCirc_eq_of_emod x (79060768 * q) _ (by omega) (by omega))
  rw [← hr] at r0 rt d0 d1 d2 d3
  rw [abs_eq_max_neg] at d0 d1 d2 d3
  split_ifs with h0 h1 h2
  · apply isFirstNearest_zero <;> omega
  · apply isFirstNearest_one <;> omega
  · apply isFirstNearest_two <;> omega
  · apply isFirstNearest_three <;> omega

end Sys2Proof.Machine
end

section
/-! Rounding (00_scope.md R8): the fields of an assembled pattern, the value of a rounded magnitude, and how far the sum
of two finite values moves. -/

namespace Sys2Proof.Machine

section
variable {p : Nat} (neg : Bool)

theorem f32OfParts_toNat (hp : p < 2 ^ 31) : (f32OfParts neg p).toNat = (if neg then 2 ^ 31 else 0) + p := by
  rw [f32OfParts, BitVec.toNat_ofNat, Nat.mod_eq_of_lt]
  split <;> omega

theorem f32Exp_ofParts (hp : p < 2 ^ 31) : f32Exp (f32OfParts neg p) = p / 2 ^ 23 := by
  rw [f32Exp, f32OfParts_toNat neg hp]
  split <;> omega

theorem f32Frac_ofParts (hp : p < 2 ^ 31) : f32Frac (f32OfParts neg p) = p % 2 ^ 23 := by
  rw [f32Frac, f32OfParts_toNat neg hp]
  split <;> omega

theorem f32Sign_ofParts (hp : p < 2 ^ 31) : f32Sign (f32OfParts neg p) = neg := by
  rw [f32Sign, BitVec.getLsbD, f32OfParts_toNat neg hp, Nat.testBit_eq_decide_div_mod_eq]
  cases neg <;> simp <;> omega

/-- The magnitude pattern of q steps of 2^e encodes q·2^e: q is below 2^24 or carries into the exponent, and only
e = 0 admits a subnormal q. -/
theorem f32Mag_ofParts (e q : Nat) (hq : q ≤ 2 ^ 24) (he : e = 0 ∨ 2 ^ 23 ≤ q) (hp : e * 2 ^ 23 + q < 2 ^ 31) :
    f32Mag (f32OfParts neg (e * 2 ^ 23 + q)) = q * 2 ^ e := by
  rw [f32Mag, f32Exp_ofParts neg hp, f32Frac_ofParts neg hp]
  rcases Nat.lt_or_ge q (2 ^ 23) with hsub | hnormal
  · obtain rfl : e = 0 := by omega
    rw [if_pos (by omega)]
    omega
  · rcases Nat.lt_or_ge q (2 ^ 24) with hlt | hge
    · rw [show (e * 2 ^ 23 + q) / 2 ^ 23 = e + 1 by omega, show (e * 2 ^ 23 + q) % 2 ^ 23 = q - 2 ^ 23 by omega]
      rw [if_neg (by omega), Nat.add_sub_cancel' hnormal, Nat.add_sub_cancel]
    · obtain rfl : q = 2 ^ 24 := by omega
      rw [show (e * 2 ^ 23 + 2 ^ 24) / 2 ^ 23 = e + 2 by omega, show (e * 2 ^ 23 + 2 ^ 24) % 2 ^ 23 = 0 by omega]
      simp [pow_succ]
      ring

end

/-- The step is the smallest that leaves a quotient below 2^24. -/
theorem roundShift_spec (num den : Nat) :
    num / den < 2 ^ (roundShift num den + 24) ∧
      (roundShift num den = 0 ∨ 2 ^ (roundShift num den + 23) ≤ num / den) := by
  have hlt := Nat.lt_log2_self (n := num / den)
  rcases Nat.eq_zero_or_pos (roundShift num den) with h0 | hpos
  · refine ⟨hlt.trans_le (Nat.pow_le_pow_right (by decide) ?_), .inl h0⟩
    unfold roundShift at *
    omega
  · have hlog : Nat.log2 (num / den) = roundShift num den + 23 := by
      unfold roundShift at *
      omega
    have hne : num / den ≠ 0 := by
      intro h
      simp [h] at hlog
    rw [← hlog]
    refine ⟨?_, .inr (Nat.log2_self_le hne)⟩
    rwa [show roundShift num den + 24 = Nat.log2 (num / den) + 1 by omega]

/-- Rounding answers one of the two whole quotients around num/den, at most half a step away. -/
theorem roundQuotient_spec (num den : Nat) (hden : 0 < den) :
    let step := den * 2 ^ roundShift num den
    num / step ≤ roundQuotient num den ∧ roundQuotient num den ≤ num / step + 1 ∧
      2 * |(roundQuotient num den : Int) * step - num| ≤ step := by
  intro step
  have hstep : 0 < step := by positivity
  have hdiv : (num : Int) = step * (num / step : Nat) + (num % step : Nat) := by
    exact_mod_cast (Nat.div_add_mod num step).symm
  have hr := Nat.mod_lt num hstep
  have hq : roundQuotient num den =
      if step < 2 * (num % step) || (step == 2 * (num % step) && num / step % 2 == 1) then num / step + 1
      else num / step := rfl
  rw [hq]
  split
  case isTrue h =>
    have half : step ≤ 2 * (num % step) := by
      simp only [Bool.or_eq_true, Bool.and_eq_true, decide_eq_true_eq, beq_iff_eq] at h
      omega
    refine ⟨by omega, le_rfl, ?_⟩
    rw [show ((num / step + 1 : Nat) : Int) * step - num = step - (num % step : Nat) by
      push_cast at *; linear_combination -hdiv, abs_of_nonneg (by omega)]
    omega
  case isFalse h =>
    have half : 2 * (num % step) ≤ step := by
      simp only [Bool.or_eq_true, Bool.and_eq_true, decide_eq_true_eq, beq_iff_eq] at h
      omega
    refine ⟨le_rfl, by omega, ?_⟩
    rw [show ((num / step : Nat) : Int) * step - num = -(num % step : Nat) by linear_combination -hdiv, abs_neg,
      abs_of_nonneg (by omega)]
    omega

/-- The rounded quotient has at most 24 bits or is 2^24, and fills them where the step is above 1. -/
theorem roundQuotient_bounds (num den : Nat) (hden : 0 < den) :
    roundQuotient num den ≤ 2 ^ 24 ∧ (roundShift num den = 0 ∨ 2 ^ 23 ≤ roundQuotient num den) := by
  obtain ⟨hlow, hhigh, _⟩ := roundQuotient_spec num den hden
  obtain ⟨hlt, hge⟩ := roundShift_spec num den
  rw [← Nat.div_div_eq_div_mul] at hlow hhigh
  constructor
  · have : num / den / 2 ^ roundShift num den < 2 ^ 24 := by
      rwa [Nat.div_lt_iff_lt_mul (by positivity), ← pow_add, add_comm]
    omega
  · refine hge.imp_right fun hge => ?_
    have : 2 ^ 23 ≤ num / den / 2 ^ roundShift num den := by
      rwa [Nat.le_div_iff_mul_le (by positivity), ← pow_add, add_comm]
    omega

/-- A rounded value that does not overflow is finite, has the sign it is given, and lies at most half a step from
num/den (00_scope.md R8). -/
theorem fl_spec (neg : Bool) (num den : Nat) (hden : 0 < den) (hshift : roundShift num den < 253) :
    isFinite (fl neg num den) = true ∧ f32Sign (fl neg num den) = neg ∧
      2 * |(f32Mag (fl neg num den) : Int) * den - num| ≤ den * 2 ^ roundShift num den := by
  obtain ⟨hq, he⟩ := roundQuotient_bounds num den hden
  obtain ⟨_, _, herr⟩ := roundQuotient_spec num den hden
  have hmag : roundMagnitude num den = roundShift num den * 2 ^ 23 + roundQuotient num den := by
    unfold roundMagnitude
    omega
  have hp : roundShift num den * 2 ^ 23 + roundQuotient num den < 2 ^ 31 := by omega
  rw [fl, hmag, f32Sign_ofParts neg hp, f32Mag_ofParts neg _ _ hq he hp]
  refine ⟨?_, rfl, ?_⟩
  · simp only [isFinite, f32Exp_ofParts neg hp, bne_iff_ne]
    omega
  · push_cast at herr ⊢
    rwa [show (roundQuotient num den : Int) * 2 ^ roundShift num den * den =
      roundQuotient num den * (den * 2 ^ roundShift num den) by ring]

theorem isNaN_of_isFinite {u : Word} (h : isFinite u = true) : isNaN u = false := by
  simp_all [isFinite, isNaN]

theorem isInf_of_isFinite {u : Word} (h : isFinite u = true) : isInf u = false := by
  simp_all [isFinite, isInf]

/-- The sum of two finite values is their rounded exact sum (00_scope.md R8). -/
theorem fadd_of_finite {x y : Word} (hx : isFinite x = true) (hy : isFinite y = true) :
    fadd x y = some (fl (decide (f32Units x + f32Units y < 0)) (f32Units x + f32Units y).natAbs 1) := by
  simp [fadd, isNaN_of_isFinite, isInf_of_isFinite, hx, hy]

/-- The exact value of a pattern, by its sign and magnitude. -/
theorem f32Units_eq (u : Word) : f32Units u = if f32Sign u then -(f32Mag u : Int) else f32Mag u := rfl

/-- Below 2^(e+24) units the step of a whole number is at most 2^e. -/
theorem roundShift_le {num e : Nat} (h : num < 2 ^ (e + 24)) : roundShift num 1 ≤ e := by
  rcases (roundShift_spec num 1).2 with h0 | hge
  · omega
  · rw [Nat.div_one] at hge
    have := (Nat.pow_lt_pow_iff_right (by decide : 1 < 2)).1 (hge.trans_lt h)
    omega

/-- A sum of finite values whose exact value is below 2^(e+25) units is finite and within 2^e units of it. -/
theorem fadd_error {x y r : Word} {e : Nat} (hx : isFinite x = true) (hy : isFinite y = true)
    (hr : fadd x y = some r) (he : e < 252) (hlt : |f32Units x + f32Units y| < 2 ^ (e + 25)) :
    isFinite r = true ∧ |f32Units r - (f32Units x + f32Units y)| ≤ 2 ^ e := by
  rw [fadd_of_finite hx hy, Option.some.injEq] at hr
  generalize f32Units x + f32Units y = t at *
  have hnat : t.natAbs < 2 ^ (e + 1 + 24) := by
    zify
    simpa [add_assoc] using hlt
  have hshift := roundShift_le hnat
  obtain ⟨hfin, hsign, herr⟩ := fl_spec (decide (t < 0)) t.natAbs 1 (by decide) (by omega)
  rw [hr] at hfin hsign herr
  have hpow : (2 : Int) ^ roundShift t.natAbs 1 ≤ 2 * 2 ^ e := by
    rw [← pow_succ']
    exact pow_le_pow_right₀ (by decide) hshift
  refine ⟨hfin, ?_⟩
  have hunits : |f32Units r - t| = |(f32Mag r : Int) - t.natAbs| := by
    rw [f32Units_eq, hsign]
    rcases lt_or_ge t 0 with hneg | hpos
    · rw [if_pos (by simpa using hneg), ← abs_neg]
      congr 1
      omega
    · rw [if_neg (by simpa using hpos)]
      congr 1
      omega
  rw [hunits]
  simp only [Nat.cast_one, mul_one, one_mul] at herr
  omega

end Sys2Proof.Machine
end

section
/-! Decode noise (40_codec.md R132): a nominal level moved by any sample within its channel's bound keeps its index, so
an encoded byte survives DECN. -/

namespace Sys2Proof.Machine

open Sys2Proof.Spec

/-- The decode-noise bound of a channel (10_state.md R42). -/
def decodeBound : Channel → Word
  | .intensity => nbI
  | .polarization => nbP
  | .phase => nbH
  | .wavelength => nbW

theorem isFinite_lut (c : Channel) : ∀ k, isFinite (lut c k) = true := by
  cases c <;> decide

/-- Every level and sample is small enough that their sum stays below 1024, where a rounding moves a value by at most
2^-15 (40_codec.md R132). -/
theorem level_add_bound_lt (c : Channel) : ∀ k, |f32Units (lut c k)| + f32Units nbW < 2 ^ 159 := by
  cases c <;> decide

theorem decodeBound_le_nbW (c : Channel) : f32Units (decodeBound c) ≤ f32Units nbW := by
  cases c <;> decide

theorem decodeBound_nonneg (c : Channel) : 0 ≤ f32Units (decodeBound c) := by
  cases c <;> decide

/-- The bound and the rounding together stay within the margin (40_codec.md R132). -/
theorem decodeBound_add_rounding_lt_margin (c : Channel) : f32Units (decodeBound c) + 2 ^ 134 < levelMargin c := by
  cases c <;> decide

/-- Adding a sample within the widest bound to a level rounds by at most 2^-15 (40_codec.md R132). -/
theorem fadd_lut_error {c : Channel} {k : BitVec 2} {n r : Word} (hn : isFinite n = true)
    (hlow : -f32Units nbW ≤ f32Units n) (hhigh : f32Units n ≤ f32Units nbW) (hr : fadd (lut c k) n = some r) :
    isFinite r = true ∧ |f32Units r - (f32Units (lut c k) + f32Units n)| ≤ 2 ^ 134 := by
  refine fadd_error (isFinite_lut c k) hn hr (by decide) ?_
  calc |f32Units (lut c k) + f32Units n|
      ≤ |f32Units (lut c k)| + |f32Units n| := abs_add_le _ _
    _ ≤ |f32Units (lut c k)| + f32Units nbW := by gcongr; exact abs_le.2 ⟨hlow, hhigh⟩
    _ < 2 ^ (134 + 25) := level_add_bound_lt c k

/-- A level with decode noise classifies to its index. -/
theorem classify_of_noisySum {c : Channel} {k : BitVec 2} {u : Word} (h : NoisySum (decodeBound c) (lut c k) u) :
    classify c u = k := by
  obtain ⟨n, hn, hlow, hhigh, hsum⟩ := h
  have hwide := decodeBound_le_nbW c
  have hmargin := decodeBound_add_rounding_lt_margin c
  rcases hsum with hr | ⟨hnone, _⟩
  · obtain ⟨hfin, herr⟩ := fadd_lut_error hn (by omega) (by omega) hr
    refine classify_eq_of_within_margin hfin ?_
    rw [abs_le] at herr
    rw [abs_lt]
    omega
  · simp [fadd_of_finite (isFinite_lut c k) hn] at hnone

/-- A level classifies to its own index (40_codec.md R128). -/
theorem classify_lut (c : Channel) (k : BitVec 2) : classify c (lut c k) = k := by
  apply classify_eq_of_within_margin (isFinite_lut c k)
  rw [sub_self, abs_zero]
  exact levelMargin_pos c

/-- Each level is at distance 0 from itself (40_codec.md R128). -/
theorem levelDist_self (c : Channel) : ∀ k, levelDist c (f32Units (lut c k)) k = 0 := by
  cases c <;> decide

/-- The four 2-bit fields of a byte, appended, are the byte. -/
theorem append_fields (b : Byte) :
    b.extractLsb' 6 2 ++ b.extractLsb' 4 2 ++ b.extractLsb' 2 2 ++ b.extractLsb' 0 2 = b := by
  rw [BitVec.extractLsb'_append_extractLsb'_eq_extractLsb' (start₁ := 4) (len₁ := 2) rfl,
    BitVec.extractLsb'_append_extractLsb'_eq_extractLsb' (start₁ := 2) (len₁ := 2) rfl,
    BitVec.extractLsb'_append_extractLsb'_eq_extractLsb' (start₁ := 0) (len₁ := 2) rfl]
  exact BitVec.extractLsb'_eq_self

/-- Four classifications that give back a byte's fields decode to the byte (40_codec.md R120, R127). -/
theorem decodeVoxel_eq_of_fields {v : Voxel} {b : Byte} (hi : classify .intensity v.intensity = b.extractLsb' 0 2)
    (hp : classify .polarization v.polarization = b.extractLsb' 2 2)
    (hh : classify .phase v.phase = b.extractLsb' 4 2)
    (hw : classify .wavelength v.wavelength = b.extractLsb' 6 2) : decodeVoxel v = b := by
  rw [decodeVoxel, hi, hp, hh, hw]
  exact append_fields b

/-- Noiseless round trip (40_codec.md R128). -/
theorem decodeVoxel_encodeByte (b : Byte) : decodeVoxel (encodeByte b) = b :=
  decodeVoxel_eq_of_fields (classify_lut _ _) (classify_lut _ _) (classify_lut _ _) (classify_lut _ _)

/-- An encoded byte survives decode noise (40_codec.md R132). -/
theorem decodeVoxel_of_noisyVoxel {b : Byte} {v : Voxel} (h : NoisyVoxel decodeBounds (encodeByte b) v) :
    decodeVoxel v = b := by
  obtain ⟨hi, hp, hh, hw⟩ := h
  exact decodeVoxel_eq_of_fields (classify_of_noisySum (c := .intensity) hi)
    (classify_of_noisySum (c := .polarization) hp) (classify_of_noisySum (c := .phase) hh)
    (classify_of_noisySum (c := .wavelength) hw)

/-- The model's perturbed field is a sum with a sample that R45 allows. -/
theorem noisySum_noisyField (b : Word) (k : Nat) (u : Word) (hb : 0 ≤ f32Units b) :
    NoisySum b u (noisyField b k u) := by
  obtain ⟨n, hn, hsum⟩ := noisyField_cases b k u hb
  simp only [allowedSample, Bool.and_eq_true, decide_eq_true_eq] at hn
  obtain ⟨⟨hfin, hlow⟩, hhigh⟩ := hn
  exact ⟨n, hfin, hlow, hhigh, hsum⟩

theorem noisyVoxel_decodeBounds (k : Nat) (v : Voxel) : NoisyVoxel decodeBounds v (noisyVoxel decodeBounds k v) :=
  ⟨noisySum_noisyField _ _ _ (decodeBound_nonneg .intensity),
    noisySum_noisyField _ _ _ (decodeBound_nonneg .polarization),
    noisySum_noisyField _ _ _ (decodeBound_nonneg .phase),
    noisySum_noisyField _ _ _ (decodeBound_nonneg .wavelength)⟩

/-- Encoded records decode to the same bytes with and without decode noise, under every draw (40_codec.md R132). -/
theorem decode_noisyVoxels_of_encoded (k : Nat) (vs : List Voxel) (h : ∀ v ∈ vs, ∃ b, v = encodeByte b) :
    (noisyVoxels decodeBounds k vs).map decodeVoxel = vs.map decodeVoxel := by
  induction vs generalizing k with
  | nil => rfl
  | cons v vs ih =>
    obtain ⟨b, rfl⟩ := h v (by simp)
    rw [noisyVoxels, List.map_cons, List.map_cons, decodeVoxel_of_noisyVoxel (noisyVoxel_decodeBounds k _),
      decodeVoxel_encodeByte, ih (k + 4) fun w hw => h w (by simp [hw])]

/-! ### Successful completions -/

/-- A guarded command that completed with OK passed its region checks (60_exceptions.md R203, R205). -/
theorem guardRegions_of_err_zero {s ok : State} {i : Instr} (h : (s.guardRegions i ok).status.err = 0) :
    regionError i s = none ∧ s.guardRegions i ok = ok := by
  rcases guardRegions_cases s i ok with hok | ⟨c, hc, _, heq⟩
  · exact hok
  · rw [heq, State.complete_status, Status.completed_err] at h
    rcases hc with rfl | rfl <;> cases h

/-- A guarded command that completed with OK finished with n elements. -/
theorem dstLen_of_guardRegions_finish {s ok : State} {i : Instr} {m : Memory} {n : Nat}
    (h : (s.guardRegions i (ok.finish m n .ok)).status.err = 0) :
    (s.guardRegions i (ok.finish m n .ok)).dstLen = BitVec.ofNat 32 n := by
  rw [(guardRegions_of_err_zero h).2, State.finish_dstLen]

end Sys2Proof.Machine

namespace Sys2Proof.Proofs

open Sys2Proof.Machine Sys2Proof.Spec

/-- Settles O42: past its region checks each of the three commands finishes with SRC_LEN elements. -/
theorem codecLengthLaw : Obligations.CodecLengthLaw := by
  rintro i s t (rfl | rfl | rfl) hexec herr <;> cases hexec <;>
    exact (dstLen_of_guardRegions_finish herr).trans (ofNat_srcCount s)

/-- Settles O44: the four appended 2-bit fields do not overlap, so the append is their weighted sum. -/
theorem decodeVoxelAssemblesByte : Obligations.DecodeVoxelAssemblesByte := by
  intro v
  have append {m n : Nat} (x : BitVec m) (y : BitVec n) : (x ++ y).toNat = x.toNat * 2 ^ n + y.toNat := by
    rw [BitVec.toNat_append, ← Nat.shiftLeft_add_eq_or_of_lt y.isLt, Nat.shiftLeft_eq]
  rw [decodeVoxel, append, append, append]
  ring

/-- Settles O45: the regions are those of the first nearest level (`isFirstNearest_intensity`). -/
theorem intensityDecisionRegions : Obligations.IntensityDecisionRegions :=
  ⟨classify_of_not_finite .intensity, fun _ hf => classify_eq_of_isFirstNearest hf (isFirstNearest_intensity _),
    by decide, by decide, by decide⟩

/-- Settles O46: the regions are those of the first nearest level (`isFirstNearest_wavelength`). -/
theorem wavelengthDecisionRegions : Obligations.WavelengthDecisionRegions :=
  ⟨classify_of_not_finite .wavelength, fun _ hf => classify_eq_of_isFirstNearest hf (isFirstNearest_wavelength _),
    by decide, by decide, by decide⟩

/-- Settles O47: the circular regions at the scale 2^124 (`isFirstNearest_circular`). -/
theorem polarizationDecisionRegions : Obligations.PolarizationDecisionRegions := by
  refine ⟨classify_of_not_finite .polarization, fun u r hf hr => ?_, by decide, by decide, by decide⟩
  have hemod : r = f32Units u % (105414360 * 2 ^ 124) := hr.trans (congrArg _ f32Units_periodP)
  have hnearest := isFirstNearest_circular (by decide) hemod (levelDist_polarization (f32Units u))
  refine ⟨by omega, by omega, (classify_eq_of_isFirstNearest hf hnearest).trans ?_⟩
  norm_num

/-- Settles O48: the circular regions at the scale 2^125 (`isFirstNearest_circular`). -/
theorem phaseDecisionRegions : Obligations.PhaseDecisionRegions := by
  refine ⟨classify_of_not_finite .phase, fun u r hf hr => ?_, by decide⟩
  have hemod : r = f32Units u % (105414360 * 2 ^ 125) := hr.trans (congrArg _ f32Units_periodH)
  have hnearest := isFirstNearest_circular (by decide) hemod (levelDist_phase (f32Units u))
  refine ⟨by omega, by omega, (classify_eq_of_isFirstNearest hf hnearest).trans ?_⟩
  norm_num

/-- Settles O49: a level lies within its own margin, and distinct levels are two margins apart. -/
theorem codecRoundTrip : Obligations.CodecRoundTrip := by
  refine ⟨decodeVoxel_encodeByte, fun c k j => ⟨levelDist_self c k, fun hj => ?_⟩⟩
  have hmargin := levelMargin_pos c
  have hapart := levels_apart c k j hj
  omega

/-- Settles O51: sample and rounding together stay within each channel's margin (`classify_of_noisySum`), so DECN and
DEC, which check the same regions, write the same bytes. -/
theorem decodeNoiseTolerance : Obligations.DecodeNoiseTolerance := by
  refine ⟨fun b v => decodeVoxel_of_noisyVoxel, fun s t u hdec hdecn herr hencoded => ?_,
    ⟨by decide, by decide, by decide, by decide⟩,
    fun c k n r hn hlow hhigh hr => (fadd_lut_error hn hlow hhigh hr).2⟩
  have records : ∀ v ∈ Memory.voxels s.mem s.srcAt s.srcCount, ∃ b, v = encodeByte b := by
    intro v hv
    obtain ⟨i, hi, rfl⟩ := List.mem_map.1 hv
    exact hencoded i (List.mem_range.1 hi)
  cases hdec
  cases hdecn
  obtain ⟨hregions, hdone⟩ := guardRegions_of_err_zero herr
  rw [hdone, guardRegions_ok s .decn _ hregions, decode_noisyVoxels_of_encoded _ _ records]
  exact ⟨rfl, fun x => rfl⟩

end Sys2Proof.Proofs
end

section
/-! The channel models' copies and clamp (41_noise_crosstalk.md R151, R157, R158): when NOISE and XTALK copy their
records, what such a copy leaves, and why every intensity that passes the clamp is at most 1.5. -/

namespace Sys2Proof.Machine

open Sys2Proof.Spec

/-! ### Record copies -/

/-- The successful completion of a command whose output records are its input records. -/
def State.copyRecords (s : State) : State :=
  s.finish (Memory.voxWriteAll s.mem s.dstAt (Memory.voxels s.mem s.srcAt s.srcCount)) s.srcCount .ok

/-- A record copy changes STATUS, DST_LEN and the 16·n output bytes alone, each of them its input byte. -/
theorem copyRecords_effect (s : State) :
    ∃ m : Memory,
      s.copyRecords = { s with mem := m, dstLen := s.srcLen, status := completed s 0 } ∧
      (∀ x, x < 16 * count s → Memory.byteAt m (dst s + x) = Memory.byteAt s.mem (src s + x)) ∧
      SameOutside s.mem m (dst s) (16 * count s) := by
  refine ⟨_, finish_ok s _ _ _ (ofNat_srcCount s), fun x hx => Memory.byteAt_copy_inside _ _ _ _ _ hx, fun x hx => ?_⟩
  apply Memory.byteAt_voxWriteAll_outside
  rwa [Memory.voxels_length]

/-- A copied record reads as its input record. -/
theorem voxRead_copyRecords (s : State) {i : Nat} (h : i < count s) :
    Memory.voxRead s.copyRecords.mem (dst s + 16 * i) = Memory.voxRead s.mem (src s + 16 * i) := by
  have hlen : i < (Memory.voxels s.mem s.srcAt s.srcCount).length := by rwa [Memory.voxels_length]
  exact (Memory.voxRead_voxWriteAll _ _ _ _ hlen).trans (Memory.voxels_getElem _ _ _ _ hlen)

/-! ### NOISE without a positive amplitude -/

/-- A pattern with its sign bit set has no positive value. -/
theorem f32Units_nonpos_of_sign {u : Word} (h : f32Sign u = true) : f32Units u ≤ 0 := by
  rw [f32Units_eq, if_pos h]
  omega

theorem positiveAmplitude_of_nonpos {a : Word} (h : f32Units a ≤ 0) : positiveAmplitude a = false :=
  decide_eq_false h.not_gt

/-- A finite amplitude that is not positive is in NOISE's domain (60_exceptions.md R202). -/
theorem badAmplitude_of_nonpos {a : Word} (hfin : isFinite a = true) (h : f32Units a ≤ 0) :
    badAmplitude a = false := by
  simp [badAmplitude, hfin, positiveAmplitude_of_nonpos h]

/-- With such an amplitude NOISE copies its records and takes no draw (41_noise_crosstalk.md R151). -/
theorem noiseOk_of_nonpos {s : State} (h : f32Units s.param ≤ 0) : noiseOk s = s.copyRecords := by
  simp only [noiseOk, positiveAmplitude_of_nonpos h, State.copyRecords]

theorem exec_noise_of_nonpos {s : State} (hfin : isFinite s.param = true) (h : f32Units s.param ≤ 0)
    (hregions : regionError .noise s = none) : exec .noise s = .next s.copyRecords := by
  rw [exec, execNoise, badAmplitude_of_nonpos hfin h, guardRegions_ok s .noise _ hregions, noiseOk_of_nonpos h]
  rfl

/-! ### The output of XTALK -/

theorem crosstalk_of_degenerate (k : Word) {wd ht : Nat} (vs : List Voxel) (h : wd = 0 ∨ ht = 0) :
    crosstalk k wd ht vs = vs :=
  if_pos h

/-- The geometry is degenerate exactly when a geometry register is 0 (10_state.md R32, R33). -/
theorem State.degenerate_iff (s : State) : (s.width = 0 ∨ s.height = 0) ↔ (s.geomW = 0 ∨ s.geomH = 0) := by
  simp [State.width, State.height, BitVec.toNat_eq]

/-- The voxels XTALK makes of its input records (41_noise_crosstalk.md R153). -/
def State.leakedVoxels (s : State) : List Voxel :=
  crosstalk s.param s.width s.height (Memory.voxels s.mem s.srcAt s.srcCount)

theorem State.leakedVoxels_length (s : State) : s.leakedVoxels.length = count s := by
  rw [State.leakedVoxels, crosstalk_length, Memory.voxels_length, State.srcCount]

/-- XTALK past its region checks: the completion with those voxels as its output records. -/
def State.xtalkOk (s : State) : State :=
  s.finish (Memory.voxWriteAll s.mem s.dstAt s.leakedVoxels) s.srcCount .ok

theorem exec_xtalk (s : State) : exec .xtalk s = .next (s.guardRegions .xtalk s.xtalkOk) := rfl

/-- Over a degenerate geometry XTALK copies its records, with no clamp (41_noise_crosstalk.md R157). -/
theorem xtalkOk_of_degenerate {s : State} (h : s.geomW = 0 ∨ s.geomH = 0) : s.xtalkOk = s.copyRecords := by
  rw [State.xtalkOk, State.leakedVoxels, crosstalk_of_degenerate _ _ (s.degenerate_iff.2 h), State.copyRecords]

/-- XTALK's output records read as the voxels it made. -/
theorem voxRead_xtalkOk (s : State) (i : Nat) (h : i < s.leakedVoxels.length) :
    Memory.voxRead s.xtalkOk.mem (dst s + 16 * i) = s.leakedVoxels[i] :=
  Memory.voxRead_voxWriteAll _ _ _ _ h

/-- A successful XTALK passed its region checks and wrote its output. -/
theorem eq_xtalkOk_of_err_zero {s t : State} (hexec : exec .xtalk s = .next t) (herr : t.status.err = 0) :
    t = s.xtalkOk := by
  rw [exec_xtalk, Host.Outcome.next.injEq] at hexec
  subst hexec
  exact (guardRegions_of_err_zero herr).2

/-! ### The clamp -/

/-- Whatever the sum, a computed NaN included, its minimum with 1.5 is no NaN and at most 1.5 (00_scope.md R8). -/
theorem saturated_minNum_sat (x : Option Word) : Saturated (minNum x sat) := by
  have hsat : Saturated sat := ⟨by decide, le_rfl⟩
  cases x with
  | none => exact hsat
  | some a =>
    rw [minNum]
    split
    · exact hsat
    · next hnan =>
      rw [if_neg (by simp [hsat.1])]
      split
      · exact hsat
      · next hless =>
        simp only [f32Less, decide_eq_true_eq, not_lt] at hless
        exact ⟨by simpa using hnan, hless⟩

/-- Every voxel of a lattice has its intensity clamped (41_noise_crosstalk.md R153, R158). -/
theorem saturated_crosstalk_getElem (k : Word) {wd ht : Nat} (vs : List Voxel) (hlattice : ¬ (wd = 0 ∨ ht = 0))
    (i : Nat) (h : i < (crosstalk k wd ht vs).length) : Saturated (crosstalk k wd ht vs)[i].intensity := by
  simp only [crosstalk, if_neg hlattice, List.getElem_mapIdx]
  exact saturated_minNum_sat _

end Sys2Proof.Machine

namespace Sys2Proof.Proofs

open Sys2Proof.Machine Sys2Proof.Spec

/-- Settles O28: such an amplitude is in NOISE's domain and selects the record copy, and a sign bit makes the value at
most 0. -/
theorem noiseOfNonPositiveAmplitudeCopies : Obligations.NoiseOfNonPositiveAmplitudeCopies := by
  refine ⟨fun s hfin hle ⟨hsrc, hdst, hapart⟩ => ?_, fun u _ hu => ?_⟩
  · have hregions : regionError .noise s = none :=
      regionError_none_of_fits .noise s _ _ _ _ rfl rfl hsrc hdst hapart
    obtain ⟨m, hcopy, heffect⟩ := copyRecords_effect s
    exact ⟨m, (exec_noise_of_nonpos hfin hle hregions).trans (congrArg _ hcopy), heffect⟩
  · rcases hu with rfl | hsign
    · exact f32Units_nonpos_of_sign (by decide)
    · exact f32Units_nonpos_of_sign hsign

/-- Settles O30: the crosstalk of a degenerate geometry is its input, so the completion is the record copy. -/
theorem xtalkDegenerateGeometryCopies : Obligations.XtalkDegenerateGeometryCopies := by
  rintro s hgeom ⟨hsrc, hdst, hapart⟩
  have hregions : regionError .xtalk s = none :=
    regionError_none_of_fits .xtalk s _ _ _ _ rfl rfl hsrc hdst hapart
  obtain ⟨m, hcopy, heffect⟩ := copyRecords_effect s
  refine ⟨m, ?_, heffect⟩
  rw [exec_xtalk, guardRegions_ok s .xtalk _ hregions, xtalkOk_of_degenerate hgeom, hcopy]

/-- Settles O53: with a lattice every output intensity went through the clamp (`saturated_minNum_sat`); without one
every output record is its input record. -/
theorem xtalkSaturationLaw : Obligations.XtalkSaturationLaw := by
  intro s t hexec herr
  obtain rfl := eq_xtalkOk_of_err_zero hexec herr
  refine ⟨fun hgeom i hi => ?_, fun hgeom => ?_⟩
  · have hlattice : ¬ (s.width = 0 ∨ s.height = 0) := by rwa [s.degenerate_iff, not_or]
    have hlen : i < s.leakedVoxels.length := by rwa [s.leakedVoxels_length]
    rw [voxRead_xtalkOk s i hlen]
    exact saturated_crosstalk_getElem _ _ hlattice i hlen
  · rw [xtalkOk_of_degenerate hgeom]
    exact forall₂_congr fun i hi => by rw [voxRead_copyRecords s hi]

end Sys2Proof.Proofs
end

section
/-! The polarization-discard probe (42_probe.md): VOBF's completion on regions in range, the boolean it sets in terms of
the bytes it compares (R171), and which encoded bytes the probe gives back unchanged (R170, R172). -/

namespace Sys2Proof.Machine

open Sys2Proof.Spec

/-- VOBF has no destination, so its region checks pass when both sources fit (20_memory.md R67, R68). -/
theorem regionError_vobf_of_fits {s : State} (hsrc : Fits s (src s) (16 * count s))
    (hsrc2 : Fits s s.src2Addr.toNat s.src2Len.toNat) : regionError .vobf s = none := by
  rw [regionError_none_iff]
  constructor
  · simp only [allInRange, sources, destination, List.all_cons, List.all_nil, Option.all_none, Bool.and_true,
      Bool.and_eq_true, inRange_iff]
    exact ⟨hsrc, hsrc2⟩
  · rfl

/-- On regions in range VOBF changes STATUS alone (42_probe.md R171). -/
theorem exec_vobf_of_fits {s : State} (hsrc : Fits s (src s) (16 * count s))
    (hsrc2 : Fits s s.src2Addr.toNat s.src2Len.toNat) :
    exec .vobf s = .next { s with status := ⟨false, true, 0, probeDiffers s⟩ } := by
  rw [exec, execVobf, guardRegions_ok s .vobf _ (regionError_vobf_of_fits hsrc hsrc2)]
  rfl

/-- The compared sequences are the same when they have one length and agree byte for byte (42_probe.md R171). -/
theorem probeDiffers_eq_false_iff (s : State) :
    probeDiffers s = false ↔
      count s = s.src2Len.toNat ∧
        ∀ i, i < count s → decodeVoxel (Memory.voxRead s.mem (src s + 16 * i)) &&& 0xF3#8 =
          Memory.byteAt s.mem (s.src2Addr.toNat + i) := by
  simp only [probeDiffers, Bool.or_eq_false_iff, bne_eq_false_iff_eq]
  refine and_congr_right fun hlen => ?_
  have hlen : count s = s.src2Len.toNat := hlen
  simp only [List.ext_getElem_iff, List.length_map, List.getElem_map, Memory.voxels_length, Memory.read_length,
    Memory.voxels_getElem, Memory.read_getElem, probeVoxel_eq, State.srcAt, State.srcCount, State.src2At,
    State.src2Count, ← hlen]
  exact ⟨fun h i hi => h.2 i hi hi, fun h => ⟨trivial, fun i hi _ => h i hi⟩⟩

theorem probeDiffers_iff (s : State) :
    probeDiffers s = true ↔
      count s ≠ s.src2Len.toNat ∨
        ∃ i, i < count s ∧ decodeVoxel (Memory.voxRead s.mem (src s + 16 * i)) &&& 0xF3#8 ≠
          Memory.byteAt s.mem (s.src2Addr.toNat + i) := by
  rw [← Bool.not_eq_false, probeDiffers_eq_false_iff, not_and_or]
  simp only [not_forall, exists_prop]

/-- A byte loses something to the probe when its polarization bits 3:2 are not 0 (42_probe.md R170). -/
theorem discardPolarization_ne_iff : ∀ b : Byte, b &&& 0xF3#8 ≠ b ↔ b.extractLsb' 2 2 ≠ 0 := by decide

/-- On the records of its own bytes the probe sees a difference when some byte has polarization bits that are not 0
(42_probe.md R172). -/
theorem probeDiffers_of_encoded {s : State} (hlen : s.src2Len = s.srcLen)
    (hrecords : ∀ i, i < count s →
      Memory.voxRead s.mem (src s + 16 * i) = encodeByte (Memory.byteAt s.mem (s.src2Addr.toNat + i))) :
    probeDiffers s = true ↔
      ∃ i, i < count s ∧ (Memory.byteAt s.mem (s.src2Addr.toNat + i)).extractLsb' 2 2 ≠ 0 := by
  rw [probeDiffers_iff, or_iff_right (not_not_intro (congrArg BitVec.toNat hlen.symm))]
  refine exists_congr fun i => and_congr_right fun hi => ?_
  rw [hrecords i hi, decodeVoxel_encodeByte, discardPolarization_ne_iff]

end Sys2Proof.Machine

namespace Sys2Proof.Proofs

open Sys2Proof.Machine Sys2Proof.Spec

/-- Settles O54: the probe compares each byte with itself less its polarization bits (`probeDiffers_of_encoded`); of two
different pairs of bits one is not 0. -/
theorem probeLaw : Obligations.ProbeLaw := by
  intro s hsrc hsrc2 hlen hrecords
  have hresult := probeDiffers_of_encoded hlen hrecords
  refine ⟨_, exec_vobf_of_fits hsrc hsrc2, rfl, hresult, fun i j hi hj hne => hresult.2 ?_,
    fun k hk hpos hall => hresult.2 ?_⟩
  · by_cases hzero : (Memory.byteAt s.mem (s.src2Addr.toNat + i)).extractLsb' 2 2 = 0
    · exact ⟨j, hj, fun hj0 => hne (hzero.trans hj0.symm)⟩
    · exact ⟨i, hi, hzero⟩
  · exact ⟨0, hpos, by rwa [hall 0 hpos]⟩

end Sys2Proof.Proofs
end

section
/-! The erasure code's round trip (43_ecc.md R186): what ECCADD leaves on success, and what ECCREC makes of a protected
sequence. -/

namespace Sys2Proof.Machine

open Sys2Proof.Spec

/-! ### Protected sequences -/

/-- The data shards of a protected sequence are its padded input (43_ecc.md R184). -/
theorem protect_take (p : Params) (bytes : List Byte) :
    (protect p bytes).take (10 * addShardSize bytes.length) = padded bytes :=
  List.take_left' (padded_length bytes)

/-- Written with its padding, a byte sequence reads back as it is. -/
theorem byteAt_write_padded_data (m : Memory) (a x : Nat) (bytes : List Byte) (hx : x < bytes.length) :
    Memory.byteAt (Memory.write m a (padded bytes)) (a + x) = bytes[x] := by
  have hpad : x < (padded bytes).length := by
    rw [padded, List.length_append]
    omega
  rw [Memory.byteAt_write_inside m a x _ hpad]
  exact List.getElem_append_left hx

/-- Behind a byte sequence its padding reads as zeros. -/
theorem byteAt_write_padded_zero (m : Memory) (a x : Nat) (bytes : List Byte) (hx : bytes.length ≤ x)
    (hpad : x < 10 * addShardSize bytes.length) :
    Memory.byteAt (Memory.write m a (padded bytes)) (a + x) = 0 := by
  rw [← padded_length] at hpad
  rw [Memory.byteAt_write_inside m a x _ hpad]
  exact (List.getElem_append_right hx).trans (List.getElem_replicate _)

/-! ### ECCADD's success -/

/-- The bytes ECCADD protects (43_ecc.md R184). -/
def State.eccInput (s : State) : List Byte := Memory.read s.mem s.srcAt s.srcCount

@[simp] theorem State.eccInput_length (s : State) : s.eccInput.length = count s := Memory.read_length _ _ _

theorem State.eccInput_getElem (s : State) (x : Nat) (h : x < s.eccInput.length) :
    s.eccInput[x] = Memory.byteAt s.mem (src s + x) := Memory.read_getElem _ _ _ _ h

/-- ECCADD past its region checks (43_ecc.md R184). -/
def State.eccaddOk (s : State) : State :=
  s.finish (Memory.write s.mem s.dstAt (protect s.cfg s.eccInput)) (14 * addShardSize (count s)) .ok

theorem exec_eccadd (s : State) : exec .eccadd s = .next (s.guardRegions .eccadd s.eccaddOk) := rfl

/-- An ECCADD that completed with OK passed its region checks and wrote the protected sequence. -/
theorem eq_eccaddOk_of_err_zero {s t : State} (hexec : exec .eccadd s = .next t) (herr : t.status.err = 0) :
    regionError .eccadd s = none ∧ t = s.eccaddOk := by
  rw [exec_eccadd] at hexec
  cases hexec
  exact guardRegions_of_err_zero herr

/-- The destination of a command that passed its region checks is in range (20_memory.md R68). -/
theorem destination_fits {i : Instr} {s : State} {d : Region} (hregions : regionError i s = none)
    (hd : destination i s = some d) : Fits s d.start d.extent := by
  obtain ⟨hrange, _⟩ := (regionError_none_iff i s).1 hregions
  rw [allInRange, hd, Bool.and_eq_true, Option.all_some, inRange_iff] at hrange
  exact hrange.2

/-- A region of 14·S bytes in a buffer of at most 2^32 bytes is smaller than 2^32, which is no multiple of 14, so
DST_LEN holds its length (20_memory.md R60, 10_state.md R30). -/
theorem shardBytes_lt {s : State} {a size : Nat} (hbuf : s.cfg.bufBytes ≤ 2 ^ 32) (hfits : Fits s a (14 * size)) :
    14 * size < 2 ^ 32 := by
  omega

theorem eccaddOk_dstLen_toNat {s : State} (hlt : 14 * addShardSize (count s) < 2 ^ 32) :
    s.eccaddOk.dstLen.toNat = 14 * addShardSize (count s) := by
  rw [State.eccaddOk, State.finish_dstLen, BitVec.toNat_ofNat, Nat.mod_eq_of_lt hlt]

/-- ECCADD's output region reads back as the protected sequence. -/
theorem read_eccaddOk (s : State) :
    Memory.read s.eccaddOk.mem (dst s) (14 * addShardSize (count s)) = protect s.cfg s.eccInput := by
  have hread := Memory.read_write s.mem (dst s) (protect s.cfg s.eccInput)
  rwa [protect_length, State.eccInput_length] at hread

/-! ### ECCREC of a protected sequence -/

/-- On a protected sequence in range ECCREC writes the padded input and completes with OK, whatever the S bit
(43_ecc.md R185). -/
theorem exec_eccrec_of_protected {r : State} {bytes : List Byte} (surface : Bool)
    (hregions : Regions r (count r) (10 * addShardSize bytes.length))
    (hread : Memory.read r.mem (src r) (count r) = protect r.cfg bytes) :
    exec (.eccrec surface) r = .next (r.finish (Memory.write r.mem (dst r) (padded bytes))
      (10 * addShardSize bytes.length) .ok) := by
  have hcount : r.srcCount = 14 * addShardSize bytes.length := by
    have hlen := congrArg List.length hread
    rwa [Memory.read_length, protect_length] at hlen
  have hmod : r.srcCount % 14 = 0 := by omega
  have hsize : recShardSize r.srcCount = addShardSize bytes.length := by
    rw [recShardSize]
    omega
  have hdest : destination (.eccrec surface) r = some ⟨r.dstAt, 10 * addShardSize bytes.length⟩ := by
    rw [destination, if_pos hmod, hsize]
  obtain ⟨hsrc, hdst, hapart⟩ := hregions
  have hchecks := regionError_none_of_fits (.eccrec surface) r _ _ _ _ rfl hdest hsrc hdst hapart
  have hok : eccrecOk surface r = r.finish (Memory.write r.mem r.dstAt (padded bytes))
      (10 * addShardSize bytes.length) .ok := by
    have hprotected : Memory.read r.mem r.srcAt r.srcCount = protect r.cfg bytes := hread
    simp only [eccrecOk, hprotected, hsize, protect_intact, if_true, dataShards, protect_take]
  rw [exec, execEccrec, totalShards, if_neg (not_not_intro hmod), guardRegions_ok _ _ _ hchecks, hok]
  rfl

end Sys2Proof.Machine

namespace Sys2Proof.Proofs

open Sys2Proof.Machine Sys2Proof.Spec

/-- Settles O55: the output of a successful ECCADD reads back as a protected sequence (`read_eccaddOk`), from which
ECCREC writes the padded input (`exec_eccrec_of_protected`). -/
theorem eccRoundTrip : Obligations.EccRoundTrip := by
  intro s t d surface hbuf hexec herr hfits hapart
  obtain ⟨hchecks, rfl⟩ := eq_eccaddOk_of_err_zero hexec herr
  have hout : Fits s (dst s) (14 * addShardSize (count s)) := destination_fits hchecks rfl
  have hlt := shardBytes_lt hbuf hout
  have hlen := eccaddOk_dstLen_toNat hlt
  have hread : Memory.read s.eccaddOk.mem (dst s) s.eccaddOk.dstLen.toNat = protect s.cfg s.eccInput := by
    rw [hlen, read_eccaddOk]
  have hregions : Regions { s.eccaddOk with srcAddr := s.dstAddr, srcLen := s.eccaddOk.dstLen, dstAddr := d }
      s.eccaddOk.dstLen.toNat (10 * addShardSize s.eccInput.length) := by
    rw [hlen, State.eccInput_length]
    exact ⟨hout, hfits, hapart⟩
  have hrec := exec_eccrec_of_protected surface hregions hread
  refine ⟨_, hrec, rfl, ?_, fun x hx => ?_, fun x hx hpad => ?_⟩
  · rw [State.finish_dstLen, State.eccInput_length, BitVec.toNat_ofNat, Nat.mod_eq_of_lt (by omega), addShardSize]
  · rw [← s.eccInput_length] at hx
    exact (byteAt_write_padded_data _ _ _ _ hx).trans (s.eccInput_getElem x hx)
  · rw [← s.eccInput_length] at hx hpad
    exact byteAt_write_padded_zero _ _ _ _ hx hpad

end Sys2Proof.Proofs
end

section
/-! Completion codes and errors (60_exceptions.md): each command reports the first code that applies in R207's order,
ECCREC fails in two ways of its own (R204, R206), and a completion with an error
changes STATUS alone unless it surfaces data (R208). -/

namespace Sys2Proof.Machine

open Sys2Proof.Spec

/-! ### When each check fails -/

theorem isFinite_eq_false_iff (a : Word) : isFinite a = false ↔ isNaN a = true ∨ isInf a = true := by
  simp only [isFinite, isNaN, isInf, bne_eq_false_iff_eq, Bool.and_eq_true, beq_iff_eq, bne_iff_ne]
  tauto

/-- The model's amplitude check is R202's domain. -/
theorem badAmplitude_iff (a : Word) : badAmplitude a = true ↔ BadAmplitude a := by
  simp only [badAmplitude, Bool.or_eq_true, Bool.not_eq_true', isFinite_eq_false_iff, positiveAmplitude,
    Bool.and_eq_true, decide_eq_true_eq, Option.any_eq_true, wavelengthBound, f32Hundred, BadAmplitude, or_assoc]

theorem allInRange_iff (i : Instr) (s : State) : allInRange i s = true ↔ ¬ OutOfRange i s := by
  simp only [OutOfRange, not_exists, not_and, not_not, List.mem_append, Option.mem_toList, or_imp, forall_and,
    allInRange, Bool.and_eq_true, List.all_eq_true, Option.all_eq_true, inRange_iff]

theorem destinationOverlaps_iff (i : Instr) (s : State) : destinationOverlaps i s = true ↔ Overlapping i s := by
  simp only [destinationOverlaps, Option.any_eq_true, List.any_eq_true, Overlapping, ← overlaps_false_iff,
    Bool.not_eq_false]
  rfl

/-- The region checks, in R207's order: RANGE over all regions (R203), then OVERLAP (R205). -/
theorem regionError_cases (i : Instr) (s : State) :
    (OutOfRange i s ∧ regionError i s = some .range) ∨
    (¬ OutOfRange i s ∧ Overlapping i s ∧ regionError i s = some .overlap) ∨
    (¬ OutOfRange i s ∧ ¬ Overlapping i s ∧ regionError i s = none) := by
  have hrange := allInRange_iff i s
  have hover := destinationOverlaps_iff i s
  unfold regionError
  by_cases h : OutOfRange i s
  · have hall : allInRange i s = false := by simpa [h] using hrange
    exact .inl ⟨h, by simp [hall]⟩
  · simp only [hrange.2 h, h, ← hover]
    cases destinationOverlaps i s <;> simp

theorem guardRegions_error {s : State} {i : Instr} {c : Code} (ok : State) (h : regionError i s = some c) :
    s.guardRegions i ok = s.complete c := by
  rw [State.guardRegions, h]

/-! ### ECCREC -/

theorem State.eccInput_getD (s : State) {x : Nat} (h : x < count s) :
    s.eccInput.getD x 0 = Memory.byteAt s.mem (src s + x) := by
  have hlen : x < s.eccInput.length := by rwa [s.eccInput_length]
  rw [List.getD_eq_getElem _ _ hlen, s.eccInput_getElem x hlen]

/-- The model's integrity check of a whole number of columns is the parity law of the bytes in BUF (43_ecc.md R183). -/
theorem intact_eccInput_iff {s : State} (hlen : count s % 14 = 0) :
    intact s.cfg (recShardSize (count s)) s.eccInput = true ↔ Intact s.cfg s.mem (src s) (count s / 14) := by
  have hcount : count s = 14 * (count s / 14) := by omega
  rw [recShardSize, intact_iff _ _ _ (by rwa [s.eccInput_length])]
  generalize count s / 14 = size at hcount
  refine forall₂_congr fun j t => forall₂_congr fun hj ht => ?_
  have column : (columnParity s.cfg j fun i => s.eccInput.getD (i * size + t) 0) =
      paritySum s.cfg j fun i => Memory.byteAt s.mem (src s + i * size + t) := by
    refine columnParity_congr _ _ _ _ fun i hi => ?_
    rw [s.eccInput_getD (by nlinarith), Nat.add_assoc]
  rw [s.eccInput_getD (by nlinarith), column, Nat.add_assoc]

/-- The data portion that ECCREC writes where it writes at all: the first 10·S input bytes (43_ecc.md R185). -/
def State.recovered (s : State) : List Byte := s.eccInput.take (10 * recShardSize (count s))

theorem State.recovered_length (s : State) : s.recovered.length = 10 * (count s / 14) := by
  rw [State.recovered, List.length_take, s.eccInput_length, recShardSize]
  omega

theorem State.recovered_getElem (s : State) (x : Nat) (h : x < s.recovered.length) :
    s.recovered[x] = Memory.byteAt s.mem (src s + x) := by
  simp only [State.recovered, List.getElem_take, s.eccInput_getElem]

/-- A length that is no multiple of 14 is the first thing ECCREC looks at (60_exceptions.md R204). -/
theorem exec_eccrec_of_badLength {s : State} (surface : Bool) (hlen : count s % 14 ≠ 0) :
    exec (.eccrec surface) s = .next (s.complete .eccLength) :=
  congrArg _ (if_pos hlen)

theorem exec_eccrec_of_length {s : State} (surface : Bool) (hlen : count s % 14 = 0) :
    exec (.eccrec surface) s = .next (s.guardRegions (.eccrec surface) (eccrecOk surface s)) :=
  congrArg _ (if_neg (not_not_intro hlen))

theorem eccrecOk_of_intact {s : State} (surface : Bool) (hlen : count s % 14 = 0)
    (h : Intact s.cfg s.mem (src s) (count s / 14)) :
    eccrecOk surface s =
      s.finish (Memory.write s.mem (dst s) s.recovered) (10 * recShardSize (count s)) .ok :=
  if_pos ((intact_eccInput_iff hlen).2 h)

/-- A failed Verify: the S bit decides whether the data portion is written (60_exceptions.md R206). -/
theorem eccrecOk_of_not_intact {s : State} (surface : Bool) (hlen : count s % 14 = 0)
    (h : ¬ Intact s.cfg s.mem (src s) (count s / 14)) :
    eccrecOk surface s =
      if surface then
        s.finish (Memory.write s.mem (dst s) s.recovered) (10 * recShardSize (count s)) .eccIntegrity
      else s.complete .eccIntegrity :=
  if_neg ((intact_eccInput_iff hlen).not.2 h)

/-! ### The first code that applies -/

/-- R202's check applies to NOISE alone. -/
def BadParam (i : Instr) (s : State) : Prop := i = .noise ∧ BadAmplitude s.param

open Classical in
/-- The first code in R207's order that the registers alone decide. -/
noncomputable def registerCode (i : Instr) (s : State) : Option Code :=
  if BadParam i s then some .badParam
  else if BadLength i s then some .eccLength
  else if OutOfRange i s then some .range
  else if Overlapping i s then some .overlap
  else none

open Classical in
/-- The last code, the one that the buffer's contents decide (60_exceptions.md R206). -/
noncomputable def dataCode (i : Instr) (s : State) : Code := if NotIntact i s then .eccIntegrity else .ok

/-- The first code that applies to a legal command (60_exceptions.md R207). -/
noncomputable def firstCode (i : Instr) (s : State) : Code := (registerCode i s).getD (dataCode i s)

section
variable {i : Instr} {s : State}

/-- NOISE and ECCREC, the commands with checks of their own operands, are different commands. -/
theorem not_badParam_of_badLength (h : BadLength i s) : ¬ BadParam i s := by
  obtain ⟨⟨sb, rfl⟩, _⟩ := h
  exact fun hparam => nomatch hparam.1

theorem not_badParam_of_notIntact (h : NotIntact i s) : ¬ BadParam i s := by
  obtain ⟨⟨sb, rfl⟩, _⟩ := h
  exact fun hparam => nomatch hparam.1

theorem firstCode_of_badParam (h : BadParam i s) : firstCode i s = .badParam := by
  simp only [firstCode, registerCode, if_pos h, Option.getD_some]

theorem firstCode_of_badLength (h : BadLength i s) : firstCode i s = .eccLength := by
  simp only [firstCode, registerCode, if_neg (not_badParam_of_badLength h), if_pos h, Option.getD_some]

theorem dataCode_of_ne_eccrec (h : ∀ sb, i ≠ .eccrec sb) : dataCode i s = .ok :=
  if_neg fun hdata => by
    obtain ⟨⟨sb, rfl⟩, _⟩ := hdata
    exact h sb rfl

/-- Past its operand checks a command reports its region error, or what it reports past all its checks. -/
theorem guardRegions_err {ok : State} (hparam : ¬ BadParam i s) (hlen : ¬ BadLength i s)
    (hok : ok.status.err = (dataCode i s).bits) : (s.guardRegions i ok).status.err = (firstCode i s).bits := by
  simp only [firstCode, registerCode, if_neg hparam, if_neg hlen]
  rcases regionError_cases i s with ⟨hrange, h⟩ | ⟨hrange, hover, h⟩ | ⟨hrange, hover, h⟩
  · rw [guardRegions_error ok h, if_pos hrange]
    rfl
  · rw [guardRegions_error ok h, if_neg hrange, if_pos hover]
    rfl
  · rw [guardRegions_ok s i ok h, if_neg hrange, if_neg hover, hok]
    rfl

/-- The same for a command that always succeeds past its checks. -/
theorem guardRegions_err_of_ok {ok : State} (hparam : ¬ BadParam i s) (heccrec : ∀ sb, i ≠ .eccrec sb)
    (hok : ok.status.err = 0) : (s.guardRegions i ok).status.err = (firstCode i s).bits := by
  refine guardRegions_err hparam (fun hlen => ?_) ?_
  · obtain ⟨⟨sb, rfl⟩, _⟩ := hlen
    exact heccrec sb rfl
  · rw [hok, dataCode_of_ne_eccrec heccrec]
    rfl

end

theorem noiseOk_err (s : State) : (noiseOk s).status.err = 0 := by
  unfold noiseOk
  dsimp only
  split <;> rfl

theorem eccrecOk_err {s : State} (surface : Bool) (hlen : count s % 14 = 0) :
    (eccrecOk surface s).status.err = (dataCode (.eccrec surface) s).bits := by
  by_cases h : Intact s.cfg s.mem (src s) (count s / 14)
  · have hdata : dataCode (.eccrec surface) s = .ok := if_neg fun hbroken => hbroken.2 h
    rw [eccrecOk_of_intact surface hlen h, hdata]
    rfl
  · have hdata : dataCode (.eccrec surface) s = .eccIntegrity := if_pos ⟨⟨surface, rfl⟩, h⟩
    rw [eccrecOk_of_not_intact surface hlen h, hdata]
    cases surface <;> rfl

/-- Every command completes with the first code that applies to it (60_exceptions.md R207). -/
theorem exec_err {i : Instr} {s t : State} (h : exec i s = .next t) : t.status.err = (firstCode i s).bits := by
  cases i with
  | enc | dec | decn | xtalk | rdnp | vobf | eccadd =>
    cases h
    exact guardRegions_err_of_ok (fun hparam => nomatch hparam.1) nofun rfl
  | noise =>
    cases h
    by_cases hbad : BadAmplitude s.param
    · rw [if_pos ((badAmplitude_iff _).2 hbad), firstCode_of_badParam ⟨rfl, hbad⟩]
      rfl
    · rw [if_neg ((badAmplitude_iff _).not.2 hbad)]
      exact guardRegions_err_of_ok (fun hparam => hbad hparam.2) nofun (noiseOk_err s)
  | eccrec surface =>
    by_cases hlen : count s % 14 = 0
    · rw [exec_eccrec_of_length surface hlen] at h
      cases h
      exact guardRegions_err (fun hparam => nomatch hparam.1) (fun hbad => hbad.2 hlen) (eccrecOk_err surface hlen)
    · rw [exec_eccrec_of_badLength surface hlen] at h
      cases h
      rw [firstCode_of_badLength ⟨⟨surface, rfl⟩, hlen⟩]
      rfl

/-! ### The code that a completion reports -/

theorem Code.bits_eq_iff (c d : Code) : c.bits = d.bits ↔ c = d :=
  ⟨Code.bits_injective c d, congrArg _⟩

section
variable (i : Instr) (s : State)

theorem firstCode_ne_illegalCmd : firstCode i s ≠ .illegalCmd := by
  unfold firstCode registerCode dataCode
  split_ifs <;> simp

/-- When each code is the first that applies: its own check fails, every earlier one passes (60_exceptions.md R207). -/
theorem firstCode_eq_iff :
    (firstCode i s = .badParam ↔ BadParam i s) ∧
    (firstCode i s = .eccLength ↔ BadLength i s) ∧
    (firstCode i s = .range ↔ ¬ BadParam i s ∧ ¬ BadLength i s ∧ OutOfRange i s) ∧
    (firstCode i s = .overlap ↔ ¬ BadParam i s ∧ ¬ BadLength i s ∧ ¬ OutOfRange i s ∧ Overlapping i s) ∧
    (firstCode i s = .eccIntegrity ↔
      ¬ BadLength i s ∧ ¬ OutOfRange i s ∧ ¬ Overlapping i s ∧ NotIntact i s) := by
  by_cases hparam : BadParam i s
  · have hlen : ¬ BadLength i s := fun h => not_badParam_of_badLength h hparam
    have hdata : ¬ NotIntact i s := fun h => not_badParam_of_notIntact h hparam
    simp [firstCode_of_badParam hparam, hparam, hlen, hdata]
  · unfold firstCode registerCode dataCode
    split_ifs <;> simp_all

/-- Only the last check reads the buffer, so with other contents every code but OK and ECC_INTEGRITY is reported as
before (60_exceptions.md R207). -/
theorem firstCode_eq_iff_of_mem (m : Memory) {c : Code} (hok : c ≠ .ok) (hdata : c ≠ .eccIntegrity) :
    firstCode i { s with mem := m } = c ↔ firstCode i s = c := by
  have hdataCode (u : State) : dataCode i u ≠ c := by
    unfold dataCode
    split_ifs
    · exact hdata.symm
    · exact hok.symm
  have hregisters : registerCode i { s with mem := m } = registerCode i s := rfl
  simp only [firstCode, hregisters]
  cases registerCode i s with
  | none => simp only [Option.getD_none, hdataCode]
  | some d => rfl

end

theorem firstCode_takeTurn (i : Instr) (s : State) : firstCode i s.takeTurn = firstCode i s := rfl

/-- The code the pending command word completes with, ILLEGAL_CMD for a reserved word (60_exceptions.md R201, R207). -/
noncomputable def State.pendingCode (s : State) : Code :=
  match s.pending with
  | .ok i => firstCode i s
  | .error _ => .illegalCmd

/-- The block's turn on a pending word completes its command, or completes a reserved word with ILLEGAL_CMD. -/
theorem completion_cases {s t : State} (ht : s.turn = .block) (hb : s.status.busy = true) (h : step s = .next t) :
    (∃ i, s.pending = .ok i ∧ exec i s.takeTurn = .next t) ∨
    (∃ e, s.pending = .error e ∧ t = s.takeTurn.complete .illegalCmd) := by
  rcases step_cases s t h with ⟨i, _, _, hi, hexec⟩ | ⟨e, _, _, he, heq⟩ | ⟨_, hidle⟩ | ⟨_, _, hhost, _⟩
  · exact .inl ⟨i, hi, hexec⟩
  · exact .inr ⟨e, he, heq⟩
  · simp [ht, hb] at hidle
  · simp [ht] at hhost

theorem completion_err {s t : State} (ht : s.turn = .block) (hb : s.status.busy = true) (h : step s = .next t) :
    t.status.err = s.pendingCode.bits := by
  unfold State.pendingCode
  rcases completion_cases ht hb h with ⟨i, hi, hexec⟩ | ⟨e, he, rfl⟩
  · rw [hi, exec_err hexec, firstCode_takeTurn]
  · rw [he]
    rfl

theorem pendingCode_of_ok {s : State} {i : Instr} (h : decode s.cmd = .ok i) : s.pendingCode = firstCode i s := by
  have hi : s.pending = .ok i := h
  rw [State.pendingCode, hi]

theorem pendingCode_eq_illegalCmd_iff (s : State) : s.pendingCode = .illegalCmd ↔ ∀ i, decode s.cmd ≠ .ok i := by
  unfold State.pendingCode State.pending
  cases decode s.cmd with
  | ok i => simp [firstCode_ne_illegalCmd]
  | error e => simp

theorem pendingCode_eq_iff_of_mem (s : State) (m : Memory) {c : Code} (hok : c ≠ .ok) (hdata : c ≠ .eccIntegrity) :
    ({ s with mem := m } : State).pendingCode = c ↔ s.pendingCode = c := by
  have hpending : ({ s with mem := m } : State).pending = s.pending := rfl
  simp only [State.pendingCode, hpending]
  cases s.pending with
  | ok i => exact firstCode_eq_iff_of_mem i s m hok hdata
  | error e => rfl

/-! ### What a completion with an error leaves -/

/-- A command that completed with an error wrote nothing but its code, or is an ECCREC that surfaced the data of a
sequence that failed Verify (60_exceptions.md R208). -/
theorem eq_complete_of_err {i : Instr} {s t : State} (h : exec i s = .next t) (herr : t.status.err ≠ 0) :
    (∃ c, t = s.complete c) ∨ (i = .eccrec true ∧ t.status.err = 6) := by
  obtain ⟨u, hexec, hcases⟩ := exec_cases i s
  cases h.symm.trans hexec
  rcases hcases with ⟨c, _, _, heq⟩ | ⟨_, _, _, _, c, _, _, _, rfl, rfl | ⟨rfl, hi⟩⟩ | ⟨_, _, rfl⟩
  · exact .inl ⟨c, heq⟩
  · exact absurd rfl herr
  · exact .inr ⟨hi, rfl⟩
  · exact absurd rfl herr

/-- Only a word with its S bit set decodes to a surfacing ECCREC (30_encoding.md R91). -/
theorem surface_of_decode_eccrec {w : Word} {sb : Bool} (h : decode w = .ok (.eccrec sb)) : w.getLsbD 8 = sb :=
  congrArg Cmd32.surface (splitWord_eq_fields_of_decode h)

/-- A completion with an error that surfaces nothing changes STATUS alone. -/
theorem completion_eq_complete {s t : State} (ht : s.turn = .block) (hb : s.status.busy = true)
    (h : step s = .next t) (herr : t.status.err ≠ 0) (hsurface : ¬ (t.status.err = 6 ∧ s.cmd.getLsbD 8 = true)) :
    ∃ c, t = s.takeTurn.complete c := by
  rcases completion_cases ht hb h with ⟨i, hi, hexec⟩ | ⟨_, _, heq⟩
  · rcases eq_complete_of_err hexec herr with hcomplete | ⟨rfl, hsix⟩
    · exact hcomplete
    · exact absurd ⟨hsix, surface_of_decode_eccrec hi⟩ hsurface
  · exact ⟨_, heq⟩

end Sys2Proof.Machine

namespace Sys2Proof.Proofs

open Sys2Proof.Machine Sys2Proof.Spec

/-- Settles O35: the regions pass their checks, so ECCREC goes on to its S bit's case of a failed Verify
(`eccrecOk_of_not_intact`). -/
theorem eccrecIntegrityFailure : Obligations.EccrecIntegrityFailure := by
  rintro s hlen ⟨hsrc, hdst, hapart⟩ hbroken
  have hexec (surface : Bool) : exec (.eccrec surface) s = .next (eccrecOk surface s) := by
    have hdest : destination (.eccrec surface) s = some ⟨dst s, 10 * (count s / 14)⟩ := if_pos hlen
    have hchecks := regionError_none_of_fits (.eccrec surface) s _ _ _ _ rfl hdest hsrc hdst hapart
    rw [exec_eccrec_of_length surface hlen, guardRegions_ok s _ _ hchecks]
  refine ⟨?_, Memory.write s.mem (dst s) s.recovered, ?_, fun x hx => ?_, fun x hx => ?_⟩
  · rw [hexec, eccrecOk_of_not_intact false hlen hbroken]
    rfl
  · rw [hexec, eccrecOk_of_not_intact true hlen hbroken]
    rfl
  · rw [← s.recovered_length] at hx
    rw [Memory.byteAt_write_inside _ _ _ _ hx, s.recovered_getElem]
  · rw [← s.recovered_length] at hx
    exact Memory.byteAt_write_outside _ _ _ _ hx

/-- Settles O37: a completion reports `pendingCode`, `firstCode_eq_iff` says when each code is the first that applies,
and only the last check reads the buffer (`pendingCode_eq_iff_of_mem`). -/
theorem codesFollowPriority : Obligations.CodesFollowPriority := by
  intro s t ht hb hstep
  have herr := completion_err ht hb hstep
  have hiff (c : Code) : t.status.err = c.bits ↔ s.pendingCode = c := by rw [herr, Code.bits_eq_iff]
  refine ⟨(hiff .illegalCmd).trans (pendingCode_eq_illegalCmd_iff s), fun i hi => ?_, fun m t' hstep' => ?_⟩
  · rw [pendingCode_of_ok hi] at hiff
    obtain ⟨hparam, hlen, hrange, hover, hdata⟩ := firstCode_eq_iff i s
    exact ⟨(hiff .badParam).trans hparam, (hiff .eccLength).trans hlen, (hiff .range).trans hrange,
      (hiff .overlap).trans hover, (hiff .eccIntegrity).trans hdata, herr ▸ Code.bits_le _⟩
  · have herr' := completion_err (s := { s with mem := m }) ht hb hstep'
    have hsame (c : Code) (hok : c ≠ .ok) (hdata : c ≠ .eccIntegrity) :
        t'.status.err = c.bits ↔ t.status.err = c.bits := by
      rw [herr', hiff, Code.bits_eq_iff, pendingCode_eq_iff_of_mem s m hok hdata]
    simp only [List.forall_mem_cons, List.not_mem_nil, false_imp_iff, implies_true, and_true]
    exact ⟨hsame .illegalCmd (by decide) (by decide), hsame .badParam (by decide) (by decide),
      hsame .eccLength (by decide) (by decide), hsame .range (by decide) (by decide),
      hsame .overlap (by decide) (by decide)⟩

/-- Settles O38: the code reported is the first that applies (`exec_err`), and BAD_PARAM comes before every other. -/
theorem badParamOnlyFromNoise : Obligations.BadParamOnlyFromNoise := by
  intro i s t hexec
  calc t.status.err = Code.badParam.bits
    _ ↔ firstCode i s = .badParam := by rw [exec_err hexec, Code.bits_eq_iff]
    _ ↔ BadParam i s := (firstCode_eq_iff i s).1

/-- Settles O39: such a completion is `State.complete` alone (`completion_eq_complete`), and the issue left RESULT and
DST_LEN at 0. -/
theorem errorsHaveNoOtherEffect : Obligations.ErrorsHaveNoOtherEffect := by
  intro s t ht hb rules hstep herr hsurface
  obtain ⟨c, rfl⟩ := completion_eq_complete ht hb hstep herr hsurface
  obtain ⟨hresult, hlen⟩ := result_dstLen_of_busy rules hb
  calc s.takeTurn.complete c
    _ = { s with status := ⟨false, true, c.bits, s.status.result⟩, sched := s.sched.tail } := rfl
    _ = _ := by
      rw [hresult, ← hlen]
      rfl

/-- Settles O36: the length is checked before anything else (`exec_eccrec_of_badLength`). -/
theorem eccrecLengthError : Obligations.EccrecLengthError :=
  fun _ surface hlen => exec_eccrec_of_badLength surface hlen

end Sys2Proof.Proofs
end

section
/-! Decode and encode are inverse (30_encoding.md R90, R91): splitting undoes joining, every command's fields are legal
and select the command, and the host's word form adds nothing. -/

namespace Sys2Proof

/-- Where each bit of a joined word comes from (30_encoding.md R90). -/
theorem joinWord_getLsbD (c : Cmd32) (k : Nat) :
    (joinWord c).getLsbD k =
      if k < 8 then c.op.getLsbD k else if k = 8 then c.surface else c.rsv.getLsbD (k - 9) := by
  simp only [joinWord, BitVec.getLsbD_append, BitVec.getLsbD_ofBool]
  by_cases hop : k < 8
  · simp only [if_pos hop]
  · by_cases hs : k = 8
    · simp [hs]
    · rw [if_neg hop, if_neg hop, if_neg hs, if_neg (by omega), show k - 8 - 1 = k - 9 by omega]

/-- Joining fields into a word loses none of them (30_encoding.md R90). -/
theorem splitWord_joinWord (c : Cmd32) : splitWord (joinWord c) = c := by
  have hop : (joinWord c).extractLsb' 0 8 = c.op := by
    apply BitVec.eq_of_getLsbD_eq
    intro k hk
    rw [BitVec.getLsbD_extractLsb', joinWord_getLsbD, Nat.zero_add, if_pos hk, decide_eq_true hk, Bool.true_and]
  have hsurface : (joinWord c).getLsbD 8 = c.surface := joinWord_getLsbD c 8
  have hrsv : (joinWord c).extractLsb' 9 23 = c.rsv := by
    apply BitVec.eq_of_getLsbD_eq
    intro k hk
    rw [BitVec.getLsbD_extractLsb', joinWord_getLsbD, if_neg (by omega), if_neg (by omega), Nat.add_sub_cancel_left,
      decide_eq_true hk, Bool.true_and]
  rw [splitWord, hop, hsurface, hrsv]

/-- Every command's operation code and S bit select it (30_encoding.md R91). -/
theorem decodeOp_op (i : Instr) : decodeOp i.op i.surface = some i := by
  cases i <;> rfl

/-- Every command is well formed: its word's fields meet R91's three conditions. -/
theorem Instr.wellFormed (i : Instr) : i.WellFormed := by
  have hop : i.fields.opDefined = true := by cases i <;> rfl
  have hallowed : i.fields.surfaceAllowed = true := by
    cases i with
    | eccrec sb => exact (Cmd32.surfaceAllowed_iff _).2 (.inr rfl)
    | enc | dec | decn | noise | xtalk | rdnp | vobf | eccadd => rfl
  exact (Cmd32.legal_iff _).2 ⟨hop, rfl, hallowed⟩

/-- A command's word decodes to the command. -/
theorem decode_encode (i : Instr) : decode (encode i) = .ok i := by
  obtain ⟨_, hrsv, hallowed⟩ := (Cmd32.legal_iff _).1 i.wellFormed
  rw [decode_ok_iff, encode, splitWord_joinWord]
  exact ⟨hrsv, hallowed, decodeOp_op i⟩

/-- A word decodes to a command exactly when it is the command's word. -/
theorem decode_eq_ok_iff (w : Word) (i : Instr) : decode w = .ok i ↔ w = encode i := by
  constructor
  · intro h
    exact (encode_of_decode h).symm
  · rintro rfl
    exact decode_encode i

/-- A 32-bit word in the host's form decodes as the word itself. -/
theorem decodeTableWord_toNat (w : Word) (i : Instr) : decodeTableWord 32 w.toNat = some i ↔ decode w = .ok i := by
  have hbits : w.toNat % 2 ^ 32 = w.toNat := Nat.mod_eq_of_lt w.isLt
  have hword : BitVec.ofNat 32 w.toNat = w := by simp
  simp only [decodeTableWord, hbits, if_pos w.isLt, hword]
  cases decode w <;> simp

end Sys2Proof

namespace Sys2Proof.Proofs

/-- Settles O2: splitting and joining are inverse, so a word decodes to a command exactly when it is the command's word
(`decode_eq_ok_iff`), and the host's form of the word decodes alike. -/
theorem decodeEncodeAgree : Obligations.DecodeEncodeAgree := by
  have table (w : Word) (i : Instr) := (decodeTableWord_toNat w i).trans (decode_eq_ok_iff w i)
  exact ⟨fun i => ⟨i.wellFormed, decode_encode i, (table _ i).2 rfl⟩, fun _ _ => encode_of_decode, table⟩

/-- Settles O3: the legal sample words are the words of their commands, and each reserved one fails its check. -/
theorem sampleWordsDecode : Obligations.SampleWordsDecode :=
  ⟨decode_encode .enc, decode_encode .dec, decode_encode .decn, decode_encode .noise, decode_encode .xtalk,
    decode_encode .rdnp, decode_encode .vobf, decode_encode .eccadd, decode_encode (.eccrec false),
    decode_encode (.eccrec true), rfl, rfl, rfl, rfl⟩

end Sys2Proof.Proofs
end

section
/-! Steps: everything a host operation can do, once, and from it and `exec_cases` what every step keeps: the parameters,
the invariant, a pending command's operands; and that a pending command completes (10_state.md R35, R47;
20_memory.md R77; 70_reset_and_hazards.md R237). -/

namespace Sys2Proof.Machine

open Sys2Proof.Spec

/-! ### Host operations -/

/-- What a host operation does when it answers a next state, `rest` being what remains of the program. -/
inductive HostStep (rest : List HostOp) (s : State) : HostOp → State → Prop
  | regWrite (off value : Nat) :
    HostStep rest s (.write (s.cfg.regBase + off) 4 value) ((s.setProg rest).regWrite off (BitVec.ofNat 32 value))
  | bufWrite (addr width value a : Nat) (idle : s.status.busy = false) (fits : a + width ≤ s.cfg.bufBytes) :
    HostStep rest s (.write addr width value) ((s.setProg rest).setMem (Memory.writeLE s.mem a width value))
  | regRead (addr width off : Nat) : HostStep rest s (.read addr width) ((s.setProg rest).hostRegRead off)
  | bufRead (addr width value : Nat) : HostStep rest s (.read addr width) ((s.setProg rest).noteRead value)
  | wait (later : List HostOp) : HostStep rest s .wait ((s.setProg later).hostRegRead 0x04)
  | reset : HostStep rest s .reset (s.setProg rest).resetInput

theorem hostStep_of_hostOp {op : HostOp} {rest : List HostOp} {s t : State} (h : hostOp op rest s = .next t) :
    HostStep rest s op t := by
  cases op with
  | write addr width value =>
    rcases hostWrite_next addr width value _ t h with ⟨off, htarget, rfl⟩ | ⟨a, htarget, idle, _, rfl⟩
    · obtain ⟨rfl, rfl, _⟩ := targetOf_register _ _ _ _ htarget
      exact .regWrite off value
    · obtain ⟨_, _, fits⟩ := targetOf_buffer _ _ _ _ htarget
      exact .bufWrite addr width value a idle fits
  | read addr width =>
    rcases hostRead_next addr width _ t h with ⟨off, _, rfl⟩ | ⟨a, _, _, _, rfl⟩
    · exact .regRead addr width off
    · exact .bufRead addr width _
  | wait =>
    cases h
    exact .wait _
  | reset =>
    cases h
    exact .reset

/-- A state that differs in operand registers alone. -/
def State.SameButOperands (s t : State) : Prop :=
  ∃ a n b m d p w h, t =
    { s with srcAddr := a, srcLen := n, src2Addr := b, src2Len := m, dstAddr := d, param := p, geomW := w, geomH := h }

/-- An idle block's register write at any offset but CMD's touches operand registers alone (10_state.md R22). -/
theorem State.regWriteIdle_operands (s : State) {off : Nat} (v : Word) (hoff : off ≠ 0x00) :
    s.SameButOperands (s.regWriteIdle off v) := by
  unfold State.regWriteIdle
  rw [if_neg hoff]
  repeat refine iteInduction (motive := s.SameButOperands) (fun _ => ⟨_, _, _, _, _, _, _, _, rfl⟩) fun _ => ?_
  exact ⟨_, _, _, _, _, _, _, _, rfl⟩

/-- A register write is ignored by a busy block, issues at CMD's offset, and else touches operand registers alone
(10_state.md R23, R35). -/
theorem State.regWrite_cases (s : State) (off : Nat) (v : Word) :
    (s.status.busy = true ∧ s.regWrite off v = s) ∨
    (s.status.busy = false ∧ off = 0x00 ∧ s.regWrite off v = s.issue v) ∨
    (s.status.busy = false ∧ s.SameButOperands (s.regWrite off v)) := by
  cases hb : s.status.busy with
  | true => exact .inl ⟨rfl, s.regWrite_of_busy off v hb⟩
  | false =>
    by_cases hoff : off = 0x00
    · subst hoff
      exact .inr (.inl ⟨rfl, rfl, s.regWrite_cmd_of_idle v hb⟩)
    · have hidle : s.regWrite off v = s.regWriteIdle off v := if_neg (by simp [hb])
      rw [hidle]
      exact .inr (.inr ⟨rfl, s.regWriteIdle_operands v hoff⟩)

/-! ### What every step keeps -/

theorem hostStep_keeps {op : HostOp} {rest : List HostOp} {s t : State} (h : HostStep rest s op t) :
    t.cfg = s.cfg ∧ t.sched = s.sched := by
  cases h with
  | regWrite off value =>
    rcases State.regWrite_cases (s.setProg rest) off (BitVec.ofNat 32 value) with
      ⟨_, heq⟩ | ⟨_, _, heq⟩ | ⟨_, _, _, _, _, _, _, _, _, heq⟩ <;> rw [heq] <;> exact ⟨rfl, rfl⟩
  | reset => exact ⟨State.resetInput_cfg _, State.resetInput_sched _⟩
  | bufWrite | regRead | bufRead | wait => simp

/-- A step keeps the parameters and takes one turn off the schedule. -/
theorem step_keeps {s t : State} (h : step s = .next t) : t.cfg = s.cfg ∧ t.sched = s.sched.tail := by
  rcases step_cases s t h with ⟨i, _, _, _, hexec⟩ | ⟨_, _, _, _, rfl⟩ | ⟨rfl, _⟩ | ⟨op, rest, _, _, hop⟩
  · obtain ⟨hcfg, _, _, hsched, _⟩ := exec_done i _ t hexec
    exact ⟨hcfg, hsched⟩
  · exact ⟨rfl, rfl⟩
  · exact ⟨rfl, rfl⟩
  · exact hostStep_keeps (hostStep_of_hostOp hop)

/-- The block's turn on a pending word completes it (60_exceptions.md R209). -/
theorem step_completes {s : State} (ht : s.turn = .block) (hb : s.status.busy = true) :
    ∃ t, step s = .next t ∧ t.status.busy = false ∧ t.status.done = true := by
  cases hp : s.pending with
  | ok i =>
    obtain ⟨t, hexec, _⟩ := exec_cases i s.takeTurn
    obtain ⟨_, hbusy, hdone, _⟩ := exec_done i _ t hexec
    exact ⟨t, (step_block_ok s i ht hb hp).trans hexec, hbusy, hdone⟩
  | error e =>
    have hillegal : ∀ i, decode s.cmd ≠ .ok i := fun i hi => by
      cases hp.symm.trans hi
    exact ⟨_, step_block_illegal s ht hb hillegal, rfl, rfl⟩

/-! ### The invariant -/

/-- A completion keeps the rules of STATUS when an error leaves RESULT at 0, and DST_LEN too unless it is ECC_INTEGRITY
(60_exceptions.md R208). -/
theorem statusRules_completed {st : Status} {dstLen : Word} {c : Code} (hresult : c ≠ .ok → st.result = false)
    (hlen : c ≠ .ok → c ≠ .eccIntegrity → dstLen = 0) : StatusRules (st.completed c) dstLen := by
  have hok : c.bits ≠ 0#4 → c ≠ .ok := by rintro hne rfl; exact hne rfl
  have hdata : c.bits ≠ 6#4 → c ≠ .eccIntegrity := by rintro hne rfl; exact hne rfl
  exact ⟨by simp, c.bits_le, by simp, fun hne => hresult (hok hne), fun hne hsix => hlen (hok hne) (hdata hsix)⟩

/-- A completion that writes nothing but its code keeps the invariant, from a state with a pending command. -/
theorem inv_complete {s : State} (hinv : Inv s) (hb : s.status.busy = true) (c : Code) : Inv (s.complete c) := by
  obtain ⟨hwf, hbelow, hbuf, hrules, _⟩ := hinv
  obtain ⟨hresult, hlen⟩ := result_dstLen_of_busy hrules hb
  exact ⟨hwf, hbelow, hbuf, statusRules_completed (fun _ => hresult) (fun _ _ => hlen), by simp⟩

/-- A command's output lies in its destination region, which is in range, so it keeps the invariant. -/
theorem inv_commandWrote {i : Instr} {s t : State} (hinv : Inv s) (hb : s.status.busy = true)
    (h : CommandWrote i s t) : Inv t := by
  obtain ⟨hwf, hbelow, hbuf, hrules, _⟩ := hinv
  obtain ⟨hresult, _⟩ := result_dstLen_of_busy hrules hb
  obtain ⟨d, bytes, n, k, c, hregions, hd, hlen, rfl, hcode⟩ := h
  have hfits := destination_fits hregions hd
  refine ⟨Memory.write_wf _ _ _ hwf, Memory.write_below _ _ _ _ hbelow ?_, hbuf,
    statusRules_completed (fun _ => hresult) fun hok hdata => ?_, by simp⟩
  · rw [← List.length_eq_zero_iff, hlen]
    exact hfits
  · rcases hcode with rfl | ⟨rfl, _⟩
    · exact absurd rfl hok
    · exact absurd rfl hdata

theorem inv_exec {i : Instr} {s t : State} (hinv : Inv s) (hb : s.status.busy = true) (h : exec i s = .next t) :
    Inv t := by
  obtain ⟨u, hexec, hcases⟩ := exec_cases i s
  cases h.symm.trans hexec
  rcases hcases with ⟨c, _, _, rfl⟩ | hwrote | ⟨_, _, rfl⟩
  · exact inv_complete hinv hb c
  · exact inv_commandWrote hinv hb hwrote
  · obtain ⟨hwf, hbelow, hbuf, _, _⟩ := hinv
    exact ⟨hwf, hbelow, hbuf, statusRules_completed (fun h => absurd rfl h) (fun h => absurd rfl h), by simp⟩

theorem inv_hostStep {op : HostOp} {rest : List HostOp} {s t : State} (hinv : Inv s) (h : HostStep rest s op t) :
    Inv t := by
  have hinv' := hinv
  obtain ⟨hwf, hbelow, hbuf, hrules, hsync⟩ := hinv'
  cases h with
  | regWrite off value =>
    rcases State.regWrite_cases (s.setProg rest) off (BitVec.ofNat 32 value) with
      ⟨_, heq⟩ | ⟨_, _, heq⟩ | ⟨_, _, _, _, _, _, _, _, _, heq⟩ <;> rw [heq]
    · exact hinv
    · exact ⟨hwf, hbelow, hbuf, show StatusRules Status.issued 0 by decide, by simp⟩
    · exact hinv
  | bufWrite addr width value a idle fits =>
    refine ⟨Memory.writeLE_wf _ _ _ _ hwf, Memory.write_below _ _ _ _ hbelow (.inr ?_), hbuf, hrules, hsync⟩
    rwa [bytesLE_length]
  | regRead addr width off =>
    exact ⟨hwf, hbelow, hbuf, hrules, fun hb => by simp [show s.status.busy = true from hb, hsync hb]⟩
  | bufRead addr width value => exact hinv
  | wait later =>
    exact ⟨hwf, hbelow, hbuf, hrules, fun hb => by simp [show s.status.busy = true from hb, hsync hb]⟩
  | reset =>
    obtain ⟨hwf', hbelow'⟩ := forgetAbandoned_wf (s.setProg rest) hwf hbelow
    refine ⟨hwf', ?_, ?_, show StatusRules Status.idle 0 by decide, by simp⟩
    · simpa using hbelow'
    · simpa using hbuf

/-! ### A pending command -/

/-- While BUSY is 1 a host operation that leaves it 1 changes only what the host knows (10_state.md R35). -/
theorem hostStep_while_busy {op : HostOp} {rest : List HostOp} {s t : State} (hb : s.status.busy = true)
    (h : HostStep rest s op t) (hb' : t.status.busy = true) :
    ∃ prog reads unsynced, t = { s with prog := prog, reads := reads, unsynced := unsynced } := by
  cases h with
  | regWrite off value => exact ⟨_, _, _, State.regWrite_of_busy (s.setProg rest) off _ hb⟩
  | bufWrite addr width value a idle fits => simp [idle] at hb
  | regRead addr width off => exact ⟨_, _, _, rfl⟩
  | bufRead addr width value => exact ⟨_, _, _, rfl⟩
  | wait later => exact ⟨_, _, _, rfl⟩
  | reset => cases hb'

/-- A step that leaves a command pending changes only what the host knows and the schedule. -/
theorem step_while_busy {s t : State} (hb : s.status.busy = true) (h : step s = .next t)
    (hb' : t.status.busy = true) :
    ∃ sched prog reads unsynced,
      t = { s with sched := sched, prog := prog, reads := reads, unsynced := unsynced } := by
  rcases step_cases s t h with ⟨i, _, _, _, hexec⟩ | ⟨_, _, _, _, rfl⟩ | ⟨rfl, _⟩ | ⟨op, rest, _, _, hop⟩
  · obtain ⟨_, hidle, _⟩ := exec_done i _ t hexec
    simp [hidle] at hb'
  · cases hb'
  · exact ⟨_, _, _, _, rfl⟩
  · obtain ⟨prog, reads, unsynced, rfl⟩ := hostStep_while_busy (s := s.takeTurn) hb (hostStep_of_hostOp hop) hb'
    exact ⟨_, _, _, _, rfl⟩

/-- Within one step more than the schedule is long a pending command leaves BUSY, or the run stops: each step that
leaves it pending takes one turn off the schedule, and with none left the block moves. -/
theorem busy_ends {s : State} (hb : s.status.busy = true) :
    ∃ k ≤ s.sched.length + 1, ∀ t, runSteps k s = .next t → t.status.busy = false := by
  generalize hsched : s.sched = sched
  induction sched generalizing s with
  | nil =>
    obtain ⟨t, hstep, hidle, _⟩ := step_completes (by simp [State.turn, hsched, hb]) hb
    refine ⟨1, le_rfl, fun u hu => ?_⟩
    simp only [runSteps, hstep, Host.Outcome.next.injEq] at hu
    exact hu ▸ hidle
  | cons a sched ih =>
    cases hstep : step s with
    | next u =>
      cases hu : u.status.busy with
      | false =>
        refine ⟨1, by simp, fun t ht => ?_⟩
        simp only [runSteps, hstep, Host.Outcome.next.injEq] at ht
        exact ht ▸ hu
      | true =>
        have htail : u.sched = sched := by rw [(step_keeps hstep).2, hsched, List.tail_cons]
        obtain ⟨k, hk, hend⟩ := ih hu htail
        refine ⟨k + 1, by simpa using hk, fun t ht => hend t ?_⟩
        simpa only [runSteps, hstep] using ht
    | fault r => exact ⟨1, by simp, fun t ht => by simp [runSteps, hstep] at ht⟩
    | refused r => exact ⟨1, by simp, fun t ht => by simp [runSteps, hstep] at ht⟩

/-- On the block's turn one step is enough. -/
theorem completes_within {s : State} (hturn : s.turn = .block) (hb : s.status.busy = true) (n : Nat) :
    ∃ k ≤ n + 1, ∃ t : State, runSteps k s = .next t ∧ t.status.busy = false ∧ t.status.done = true := by
  obtain ⟨t, hstep, hdone⟩ := step_completes hturn hb
  exact ⟨1, by simp, t, by simp only [runSteps, hstep], hdone⟩

/-- With no host operation left it is the completion that comes: the host's turns pass without effect. -/
theorem pending_completes {s : State} (hb : s.status.busy = true) (hprog : s.prog = []) :
    ∃ k ≤ s.sched.length + 1, ∃ t : State,
      runSteps k s = .next t ∧ t.status.busy = false ∧ t.status.done = true := by
  generalize hsched : s.sched = sched
  induction sched generalizing s with
  | nil => exact completes_within (by simp [State.turn, hsched, hb]) hb _
  | cons a sched ih =>
    cases a with
    | block => exact completes_within (by simp [State.turn, hsched]) hb _
    | host =>
      have hstep : step s = .next s.takeTurn := by simp [step, State.turn, hsched, hostTurn, hprog]
      obtain ⟨k, hk, t, hrun, hdone⟩ := ih (s := s.takeTurn) hb hprog (by simp [hsched])
      exact ⟨k + 1, by simpa using hk, t, by simpa only [runSteps, hstep] using hrun, hdone⟩

end Sys2Proof.Machine

namespace Sys2Proof.Proofs

open Sys2Proof.Machine Sys2Proof.Spec

/-- Settles O6: a completion by `inv_exec` and `inv_complete`, a host operation by `inv_hostStep`; an idle turn changes
nothing the invariant speaks of. -/
theorem stepKeepsInvariant : Obligations.StepKeepsInvariant := by
  intro s t hinv hstep
  have hturn : Inv s.takeTurn := hinv
  rcases step_cases s t hstep with ⟨i, _, hb, _, hexec⟩ | ⟨_, _, hb, _, rfl⟩ | ⟨rfl, _⟩ | ⟨op, rest, _, _, hop⟩
  · exact inv_exec hturn hb hexec
  · exact inv_complete hturn hb _
  · exact hturn
  · exact inv_hostStep hturn (hostStep_of_hostOp hop)

/-- Settles O7 (`step_keeps`). -/
theorem stepKeepsParameters : Obligations.StepKeepsParameters := fun _ _ hstep => (step_keeps hstep).1

/-- Settles O8 (`step_block_ok`). -/
theorem stepRunsPendingCommand : Obligations.StepRunsPendingCommand :=
  fun s i ⟨hturn, hb, hcmd⟩ => step_block_ok s i hturn hb hcmd

/-- Settles O10: a completion is the third case; of the host's operations only a CMD write to an idle block and reset
touch STATUS or DST_LEN. -/
theorem statusChangesOnlyAtIssueCompletionReset : Obligations.StatusChangesOnlyAtIssueCompletionReset := by
  intro s t hstep
  rcases step_cases s t hstep with
    ⟨i, hturn, hb, _, hexec⟩ | ⟨_, hturn, hb, _, rfl⟩ | ⟨rfl, _⟩ | ⟨op, rest, hturn, hprog, hop⟩
  · obtain ⟨_, hidle, hdone, _⟩ := exec_done i _ t hexec
    exact .inr (.inr (.inl ⟨hturn, hb, hidle, hdone⟩))
  · exact .inr (.inr (.inl ⟨hturn, hb, rfl, rfl⟩))
  · exact .inl ⟨rfl, rfl⟩
  · cases hostStep_of_hostOp hop with
    | regWrite off value =>
      rcases State.regWrite_cases (s.takeTurn.setProg rest) off (BitVec.ofNat 32 value) with
        ⟨_, heq⟩ | ⟨hidle, rfl, heq⟩ | ⟨_, _, _, _, _, _, _, _, _, heq⟩ <;> rw [heq]
      · exact .inl ⟨rfl, rfl⟩
      · exact .inr (.inl ⟨value, rest, ⟨hturn, hprog⟩, hidle, rfl, rfl, rfl⟩)
      · exact .inl ⟨rfl, rfl⟩
    | reset => exact .inr (.inr (.inr ⟨rest, ⟨hturn, hprog⟩, rfl, rfl⟩))
    | bufWrite | regRead | bufRead | wait => exact .inl (by simp)

/-- Settles O11: such a step changes only what the host knows and the schedule (`step_while_busy`). -/
theorem operandsFixedWhilePending : Obligations.OperandsFixedWhilePending := by
  intro s t hb hstep hb'
  obtain ⟨_, _, _, _, rfl⟩ := step_while_busy hb hstep hb'
  exact ⟨rfl, rfl, rfl, rfl, rfl, rfl, rfl, rfl, rfl, rfl, rfl, rfl⟩

/-- Settles O12, both parts by induction on the schedule (`busy_ends`, `pending_completes`). -/
theorem pendingCommandCompletes : Obligations.PendingCommandCompletes :=
  fun _ hb => ⟨busy_ends hb, pending_completes hb⟩

end Sys2Proof.Proofs
end

section
/-! The host's accesses (10_state.md R22-R36; 20_memory.md R61-R66; 60_exceptions.md R213; 70_reset_and_hazards.md R230,
R235): what an access reaches, registers and buffer read back as written, and what reset leaves. -/

namespace Sys2Proof.Machine

open Sys2Proof.Spec

/-! ### What an access reaches -/

section
variable {p : Params} {addr width : Nat}

/-- Inside BUF and off the register window an access reaches the buffer (20_memory.md R61). -/
theorem targetOf_buffer_of_offWindow {a : Nat} (hw : 0 < width) (hfits : a + width ≤ p.bufBytes)
    (hoff : OffWindow p (p.bufBase + a) width) : targetOf p (p.bufBase + a) width = .buffer a := by
  rw [targetOf, if_neg (by omega), if_neg (by rw [windowBytes]; omega), if_pos (by omega), Nat.add_sub_cancel_left]

/-- On the register window only an aligned 32-bit access is well formed (20_memory.md R66). -/
theorem targetOf_badRegister (hw : 0 < width) (hon : ¬ OffWindow p addr width)
    (hbad : ¬ ∃ off, width = 4 ∧ addr = p.regBase + off ∧ off % 4 = 0) : targetOf p addr width = .badRegister := by
  have hform : ¬ (width = 4 ∧ p.regBase ≤ addr ∧ (addr - p.regBase) % 4 = 0) := fun ⟨hfour, hle, halign⟩ =>
    hbad ⟨addr - p.regBase, hfour, by omega, halign⟩
  rw [targetOf, if_neg (by omega), if_pos (by rw [windowBytes]; omega), if_neg hform]

/-- Off both windows an access reaches nothing (20_memory.md R61). -/
theorem targetOf_outside (hw : 0 < width) (hoff : OffWindow p addr width)
    (hbuf : addr < p.bufBase ∨ p.bufBase + p.bufBytes < addr + width) : targetOf p addr width = .outside := by
  rw [targetOf, if_neg (by omega), if_neg (by rw [windowBytes]; omega), if_neg (by omega)]

end

section
variable {s : State} {addr width value : Nat} {rest : List HostOp}

/-- The host's next turn accesses `width` bytes at `addr`, writing `value` or reading. -/
abbrev HostAccesses (s : State) (addr width value : Nat) (rest : List HostOp) : Prop :=
  HostDoes s (.write addr width value) rest ∨ HostDoes s (.read addr width) rest

/-- Either access is decoded by its address and width alone. -/
theorem step_access (h : HostAccesses s addr width value rest) :
    step s = hostWrite addr width value (s.takeTurn.setProg rest) ∨
      step s = hostRead addr width (s.takeTurn.setProg rest) :=
  h.imp (fun ⟨hturn, hprog⟩ => step_host s _ _ hturn hprog) fun ⟨hturn, hprog⟩ => step_host s _ _ hturn hprog

theorem step_access_bufHazard {a : Nat} (h : HostAccesses s addr width value rest)
    (htarget : targetOf s.cfg addr width = .buffer a) (hazard : s.status.busy = true ∨ s.unsynced = true) :
    step s = .fault .bufHazard := by
  rcases step_access h with heq | heq <;> rw [heq] <;> simp [hostWrite, hostRead, htarget, hazard]

theorem step_access_regAccess (h : HostAccesses s addr width value rest)
    (htarget : targetOf s.cfg addr width = .badRegister) : step s = .refused .regAccess := by
  rcases step_access h with heq | heq <;> rw [heq] <;> simp [hostWrite, hostRead, htarget]

theorem step_access_hostWindow (h : HostAccesses s addr width value rest)
    (htarget : targetOf s.cfg addr width = .outside) : step s = .refused .hostWindow := by
  rcases step_access h with heq | heq <;> rw [heq] <;> simp [hostWrite, hostRead, htarget]

end

/-! ### Registers -/

/-- An operand register of an idle block reads back the word written, and every other offset as before
(10_state.md R25-R29, R31-R33). -/
theorem State.regRead_regWriteIdle (s : State) (off : Nat) (v : Word)
    (h : off ∈ [0x08, 0x0C, 0x10, 0x14, 0x18, 0x20, 0x24, 0x28]) :
    (s.regWriteIdle off v).regRead off = v ∧
      ∀ off', off' ≠ off → (s.regWriteIdle off v).regRead off' = s.regRead off' := by
  simp only [List.mem_cons, List.not_mem_nil, or_false] at h
  rcases h with rfl | rfl | rfl | rfl | rfl | rfl | rfl | rfl <;>
    exact ⟨rfl, fun off' hne => by simp [State.regWriteIdle, State.regRead, hne]⟩

/-- STATUS, DST_LEN and the reserved offsets ignore writes, busy or idle (10_state.md R24, R30, R34). -/
theorem State.regWrite_readOnly (s : State) (off : Nat) (v : Word)
    (h : off ∈ [0x04, 0x1C, 0x2C, 0x30, 0x34, 0x38, 0x3C]) : s.regWrite off v = s := by
  apply s.regWrite_eq_self
  by_cases hpast : 0x28 < off
  · exact s.regWriteIdle_eq_self off v hpast
  · have hreg : off = 0x04 ∨ off = 0x1C := by
      simp only [List.mem_cons, List.not_mem_nil, or_false] at h
      omega
    rcases hreg with rfl | rfl <;> rfl

/-- Every register is 0 after reset (10_state.md R22). -/
theorem State.reset_regRead (off : Nat) : State.reset.regRead off = 0 := by
  unfold State.regRead
  repeat refine iteInduction (motive := (· = 0)) (fun _ => rfl) fun _ => ?_
  rfl

/-- The reset input leaves the registers of power-on (70_reset_and_hazards.md R230). -/
theorem State.resetInput_regRead (s : State) (off : Nat) : s.resetInput.regRead off = 0 := State.reset_regRead off

/-! ### The buffer -/

/-- With nothing scheduled taking a turn changes nothing. -/
theorem State.takeTurn_eq_self {s : State} (h : s.sched = []) : s.takeTurn = s := by
  rw [State.takeTurn, h, List.tail_nil, ← h]

/-- With nothing scheduled an idle block leaves the turn to the host. -/
theorem State.turn_host {s : State} (hb : s.status.busy = false) (h : s.sched = []) : s.turn = .host := by
  simp [State.turn, h, hb]

section
variable {s : State} {a width value : Nat} {rest : List HostOp} (hb : s.status.busy = false)
  (hu : s.unsynced = false) (hsched : s.sched = [])

include hb hu hsched

/-- The host's buffer write to a synchronised block is one store (20_memory.md R63). -/
theorem step_write_buffer (htarget : targetOf s.cfg (s.cfg.bufBase + a) width = .buffer a)
    (hprog : s.prog = .write (s.cfg.bufBase + a) width value :: rest) :
    step s = .next ((s.setProg rest).setMem (Memory.writeLE s.mem a width value)) := by
  rw [step_host s _ _ (State.turn_host hb hsched) hprog, State.takeTurn_eq_self hsched]
  simp [hostOp, hostWrite, htarget, hb, hu]

/-- The host's buffer read of a synchronised block is one load (20_memory.md R63). -/
theorem step_read_buffer (htarget : targetOf s.cfg (s.cfg.bufBase + a) width = .buffer a)
    (hprog : s.prog = .read (s.cfg.bufBase + a) width :: rest) :
    step s = .next ((s.setProg rest).noteRead (Memory.readLE s.mem a width)) := by
  rw [step_host s _ _ (State.turn_host hb hsched) hprog, State.takeTurn_eq_self hsched]
  simp [hostOp, hostRead, htarget, hb, hu]

end

theorem Memory.byteAt_writeLE_inside (m : Memory) (a n v j : Nat) (h : j < n) :
    Memory.byteAt (Memory.writeLE m a n v) (a + j) = BitVec.ofNat 8 (v / 2 ^ (8 * j)) := by
  have hlen : j < (bytesLE n v).length := by rwa [bytesLE_length]
  rw [Memory.writeLE, Memory.byteAt_write_inside _ _ _ _ hlen, bytesLE_getElem]

theorem Memory.sameOutside_writeLE (m : Memory) (a n v : Nat) : SameOutside m (Memory.writeLE m a n v) a n := by
  intro x hx
  apply Memory.byteAt_write_outside
  rwa [bytesLE_length]

/-! ### The abandoned destination -/

/-- Only a pending command with a destination region is abandoned with loss (70_reset_and_hazards.md R230). -/
theorem State.abandoned_cases (s : State) :
    s.abandoned = none ∨
    ∃ i d, s.status.busy = true ∧ decode s.cmd = .ok i ∧ destination i s = some d ∧ s.abandoned = some d := by
  unfold State.abandoned State.pending
  cases hb : s.status.busy with
  | false => exact .inl rfl
  | true =>
    cases hd : decode s.cmd with
    | error e => exact .inl rfl
    | ok i =>
      cases hr : destination i s with
      | none => exact .inl hr
      | some d => exact .inr ⟨i, d, rfl, rfl, hr, hr⟩

/-- Forgetting frees bytes of the abandoned region alone. -/
theorem sameOutside_forgetAbandoned {s : State} {d : Region} (h : s.abandoned = none ∨ s.abandoned = some d) :
    SameOutside s.mem s.forgetAbandoned.mem d.start d.extent := by
  rcases forgetAbandoned_cases s with ⟨_, heq⟩ | ⟨r, hr, bytes, hlen, heq⟩
  · rw [heq]
    exact fun _ _ => rfl
  · obtain rfl : r = d := by simpa [hr] using h
    intro x hx
    rw [heq]
    apply Memory.byteAt_write_outside
    rw [hlen, Region.bytesInBuf]
    omega

theorem forgetAbandoned_of_none {s : State} (h : s.abandoned = none) : s.forgetAbandoned = s := by
  rw [State.forgetAbandoned, h]

/-! ### The default polynomial -/

theorem gfSquares_succ_eq {poly : BitVec 9} {k : Nat} {v w : Byte} (h : gfSquares poly k = v)
    (hw : gfMul poly v v = w) : gfSquares poly (k + 1) = w := by
  rw [gfSquares, h, hw]

/-- x^(2^k) for the default GF_POLY, by squaring. -/
theorem gfSquares_default :
    gfSquares Config.defaultGfPoly 0 = 0x02 ∧ gfSquares Config.defaultGfPoly 1 = 0x04 ∧
    gfSquares Config.defaultGfPoly 2 = 0x10 ∧ gfSquares Config.defaultGfPoly 3 = 0x1D ∧
    gfSquares Config.defaultGfPoly 4 = 0x4C ∧ gfSquares Config.defaultGfPoly 5 = 0x9D ∧
    gfSquares Config.defaultGfPoly 6 = 0x5F ∧ gfSquares Config.defaultGfPoly 7 = 0x85 := by
  have h0 : gfSquares Config.defaultGfPoly 0 = 0x02 := rfl
  have h1 := gfSquares_succ_eq h0 (w := 0x04) (by decide)
  have h2 := gfSquares_succ_eq h1 (w := 0x10) (by decide)
  have h3 := gfSquares_succ_eq h2 (w := 0x1D) (by decide)
  have h4 := gfSquares_succ_eq h3 (w := 0x4C) (by decide)
  have h5 := gfSquares_succ_eq h4 (w := 0x9D) (by decide)
  have h6 := gfSquares_succ_eq h5 (w := 0x5F) (by decide)
  exact ⟨h0, h1, h2, h3, h4, h5, h6, gfSquares_succ_eq h6 (by decide)⟩

/-- The default GF_POLY is primitive: x has order 255 (43_ecc.md R180). -/
theorem primitivePoly_default : primitivePoly Config.defaultGfPoly = true := by
  obtain ⟨h0, h1, h2, h3, h4, h5, h6, h7⟩ := gfSquares_default
  simp only [primitivePoly, gfSquaresProduct, List.foldl_cons, List.foldl_nil, h0, h1, h2, h3,
    h4, h5, h6, h7]
  decide +kernel

end Sys2Proof.Machine

namespace Sys2Proof.Proofs

open Sys2Proof.Machine Sys2Proof.Spec

/-- Settles O4. -/
theorem resetRegistersReadZero : Obligations.ResetRegistersReadZero :=
  ⟨fun k _ => State.reset_regRead (4 * k), rfl, fun _ => rfl⟩

/-- Settles O5: nothing is listed, STATUS is idle, and x has order 255 modulo the default polynomial. -/
theorem resetMeetsInvariant : Obligations.ResetMeetsInvariant := by
  exact ⟨⟨List.Pairwise.nil, by simp [State.reset], le_rfl, by decide, by decide⟩, le_rfl, primitivePoly_default⟩

/-- Settles O13 (`step_issue`). -/
theorem cmdWriteIssues : Obligations.CmdWriteIssues := fun s v rest h hb => step_issue s v rest h hb

/-- Settles O15 (`step_read_register`). -/
theorem registerReadsHaveNoSideEffects : Obligations.RegisterReadsHaveNoSideEffects :=
  fun s off rest hoff halign h => (step_read_register s off rest hoff halign h).trans rfl

/-- Settles O16: the write is one register write of an idle block (`State.regRead_regWriteIdle`), which touches operand
registers alone. -/
theorem operandRegistersHoldWrites : Obligations.OperandRegistersHoldWrites := by
  intro s off v rest hoff hb h
  have hrange : off < 64 ∧ off % 4 = 0 ∧ off ≠ 0x00 := by
    simp only [List.mem_cons, List.not_mem_nil, or_false] at hoff
    omega
  obtain ⟨hlt, halign, hcmd⟩ := hrange
  have hstep := step_write_register s off v.toNat rest hlt halign h
  rw [BitVec.ofNat_toNat, BitVec.setWidth_eq,
    show (s.takeTurn.setProg rest).regWrite off v = (s.takeTurn.setProg rest).regWriteIdle off v from
      if_neg (by simp [hb])] at hstep
  obtain ⟨hsame, hother⟩ := State.regRead_regWriteIdle (s.takeTurn.setProg rest) off v hoff
  refine ⟨_, hstep, hsame, hother, ?_⟩
  obtain ⟨_, _, _, _, _, _, _, _, heq⟩ := State.regWriteIdle_operands (s.takeTurn.setProg rest) v hcmd
  rw [heq]
  exact ⟨rfl, rfl, rfl⟩

/-- Settles O17 (`State.regWrite_readOnly`). -/
theorem readOnlyRegistersIgnoreWrites : Obligations.ReadOnlyRegistersIgnoreWrites := by
  intro s off v rest hoff h
  have hrange : off < 64 ∧ off % 4 = 0 := by
    simp only [List.mem_cons, List.not_mem_nil, or_false] at hoff
    omega
  rw [step_write_register s off v rest hrange.1 hrange.2 h, State.regWrite_readOnly _ off _ hoff]
  rfl

/-- Settles O19: the access reaches the buffer, where the hazard faults it. -/
theorem bufferAccessHazardFaults : Obligations.BufferAccessHazardFaults :=
  fun _ _ _ _ _ hw hfits hoff hazard h => step_access_bufHazard h (targetOf_buffer_of_offWindow hw hfits hoff) hazard

/-- Settles O20: the access reaches the register window in a bad form, or nothing. -/
theorem otherAccessesRefused : Obligations.OtherAccessesRefused :=
  fun _ _ _ _ _ hw h => ⟨fun hon hbad => step_access_regAccess h (targetOf_badRegister hw hon hbad),
    fun hoff hbuf => step_access_hostWindow h (targetOf_outside hw hoff hbuf)⟩

/-- Settles O21: one store and one load of the same bytes (`step_write_buffer`, `step_read_buffer`). -/
theorem hostBufferWriteThenReadReturnsValue : Obligations.HostBufferWriteThenReadReturnsValue := by
  intro s a width value rest hw hfits hoff hb hu hsched hprog
  have hpow (n : Nat) : 2 ^ (8 * n) = 256 ^ n := pow_mul 2 8 n
  have htarget := targetOf_buffer_of_offWindow hw hfits hoff
  have hwrite := step_write_buffer hb hu hsched htarget hprog
  have hread := step_read_buffer
    (s := (s.setProg (.read (s.cfg.bufBase + a) width :: rest)).setMem (Memory.writeLE s.mem a width value))
    hb hu hsched htarget rfl
  refine ⟨Memory.writeLE s.mem a width value, ?_, fun j hj => ?_, Memory.sameOutside_writeLE _ _ _ _⟩
  · rw [State.setMem_mem, Memory.readLE_writeLE, hpow] at hread
    simp only [runSteps, hwrite, hread]
    rfl
  · rw [Memory.byteAt_writeLE_inside _ _ _ _ _ hj, hpow]

/-- Settles O22: the registers are those of power-on, and only bytes of the abandoned region are forgotten
(`sameOutside_forgetAbandoned`). -/
theorem resetInputEffect : Obligations.ResetInputEffect := by
  intro s rest ⟨hturn, hprog⟩
  have hnone (h : s.abandoned = none) : (s.takeTurn.setProg rest).resetInput.mem = s.mem := by
    rw [State.resetInput_mem, forgetAbandoned_of_none (s := s.takeTurn.setProg rest) h]
    rfl
  have hcases := s.abandoned_cases
  refine ⟨(s.takeTurn.setProg rest).resetInput, step_host s _ _ hturn hprog, State.resetInput_regRead _, rfl,
    State.resetInput_cfg _, State.resetInput_noiseDraws _, State.resetInput_prog _, rfl, fun hb => hnone ?_,
    fun e he => hnone ?_, fun i hi hd => hnone ?_, fun i d hi hd => ?_⟩
  · simpa [hb] using hcases
  · simpa [he] using hcases
  · simpa [hi, hd] using hcases
  · refine sameOutside_forgetAbandoned (s := s.takeTurn.setProg rest) (d := d) ?_
    have hsame : (s.takeTurn.setProg rest).abandoned = s.abandoned := rfl
    rw [hsame]
    rcases hcases with h | ⟨j, r, _, hj, hr, h⟩
    · exact .inl h
    · cases hi.symm.trans hj
      cases hd.symm.trans hr
      exact .inr h

end Sys2Proof.Proofs
end

section
/-! Rounding to nearest, ties to even, and the special values (00_scope.md R8): the magnitude grid, the neighbours of a
rounded magnitude on it, and signs. -/

namespace Sys2Proof.Machine

open Sys2Proof.Spec

/-! ### The magnitude grid -/

/-- The value of a magnitude pattern, in units of 2^-149. -/
def gridValue (p : Nat) : Nat := f32Mag (f32OfParts false p)

theorem f32Mag_ofNat (p : Nat) : f32Mag (BitVec.ofNat 32 p) = gridValue p := by
  simp [gridValue, f32OfParts]

/-- The value does not depend on the sign. -/
theorem f32Mag_ofParts_eq (neg : Bool) {p : Nat} (hp : p < 2 ^ 31) : f32Mag (f32OfParts neg p) = gridValue p := by
  simp only [gridValue, f32Mag, f32Exp_ofParts _ hp, f32Frac_ofParts _ hp]

/-- q steps of 2^e, where q has at most 24 bits, or is 2^24, and fills them unless e is 0. -/
theorem gridValue_steps {e q : Nat} (hq : q ≤ 2 ^ 24) (he : e = 0 ∨ 2 ^ 23 ≤ q) (hp : e * 2 ^ 23 + q < 2 ^ 31) :
    gridValue (e * 2 ^ 23 + q) = q * 2 ^ e :=
  f32Mag_ofParts false e q hq he hp

/-- Every magnitude pattern is a number of steps of some size. -/
theorem exists_steps (p : Nat) : ∃ e q, p = e * 2 ^ 23 + q ∧ q < 2 ^ 24 ∧ (e = 0 ∨ 2 ^ 23 ≤ q) := by
  by_cases hsub : p < 2 ^ 23
  · exact ⟨0, p, by omega, by omega, .inl rfl⟩
  · exact ⟨p / 2 ^ 23 - 1, 2 ^ 23 + p % 2 ^ 23, by omega, by omega, by omega⟩

theorem gridValue_lt_succ {p : Nat} (hp : p + 1 < 2 ^ 31) : gridValue p < gridValue (p + 1) := by
  obtain ⟨e, q, rfl, hq, he⟩ := exists_steps p
  rw [Nat.add_assoc] at hp ⊢
  rw [gridValue_steps (by omega) he (by omega), gridValue_steps (by omega) (by omega) hp]
  exact Nat.mul_lt_mul_of_pos_right (by omega) (by positivity)

/-- A larger magnitude pattern has a larger value. -/
theorem gridValue_lt {p w : Nat} (hw : w < 2 ^ 31) (h : p < w) : gridValue p < gridValue w := by
  induction w, h using Nat.le_induction with
  | base => exact gridValue_lt_succ hw
  | succ w _ ih => exact (ih (by omega)).trans (gridValue_lt_succ hw)

theorem gridValue_le {p w : Nat} (hw : w < 2 ^ 31) (h : p ≤ w) : gridValue p ≤ gridValue w := by
  rcases h.eq_or_lt with rfl | hlt
  · exact le_rfl
  · exact (gridValue_lt hw hlt).le

theorem gridValue_zero : gridValue 0 = 0 := by
  simpa using gridValue_steps (e := 0) (q := 0) (by decide) (.inl rfl) (by decide)

/-- Where the other values lie: at least a step above, at least a step below, or closer below a value that opens its
binade. -/
theorem gridValue_apart {e q w : Nat} (hq : q ≤ 2 ^ 24) (he : e = 0 ∨ 2 ^ 23 ≤ q) (hp : e * 2 ^ 23 + q < 0x7F800000)
    (hw : w < 0x7F800000) (hne : w ≠ e * 2 ^ 23 + q) :
    (q + 1) * 2 ^ e ≤ gridValue w ∨ gridValue w + 2 ^ e ≤ q * 2 ^ e ∨
      (gridValue w < q * 2 ^ e ∧ q = 2 ^ 23 ∧ e ≠ 0) := by
  rcases Nat.lt_or_gt_of_ne hne with hbelow | habove
  · by_cases hopens : q = 2 ^ 23 ∧ e ≠ 0
    · obtain ⟨hq23, he0⟩ := hopens
      refine .inr (.inr ⟨?_, hq23, he0⟩)
      rw [← gridValue_steps hq he (by omega)]
      exact gridValue_lt (by omega) hbelow
    · obtain ⟨q, rfl⟩ : ∃ n, q = n + 1 := ⟨q - 1, by omega⟩
      refine .inr (.inl ?_)
      have hprev : gridValue w ≤ gridValue (e * 2 ^ 23 + q) := gridValue_le (by omega) (by omega)
      rw [gridValue_steps (by omega) (by omega) (by omega)] at hprev
      linarith [Nat.succ_mul q (2 ^ e)]
  · refine .inl ?_
    by_cases hfull : q = 2 ^ 24
    · have hle : (e + 1) * 2 ^ 23 + (2 ^ 23 + 1) ≤ w := by omega
      have hnext := gridValue_le (by omega) hle
      rw [gridValue_steps (by decide) (.inr (Nat.le_succ _)) (hle.trans_lt (by omega))] at hnext
      refine le_trans ?_ hnext
      have hpos : 0 < 2 ^ e := by positivity
      rw [hfull]
      omega
    · rw [← gridValue_steps (by omega) (by omega) (by omega)]
      exact gridValue_le (by omega) (by omega)

/-! ### The rounded magnitude -/

section
variable {num den : Nat}

/-- Halfway between two quotients the even one is taken. -/
theorem roundQuotient_even_of_tie (hden : 0 < den)
    (htie : 2 * |(roundQuotient num den : Int) * (den * 2 ^ roundShift num den : Nat) - num| =
      (den * 2 ^ roundShift num den : Nat)) : roundQuotient num den % 2 = 0 := by
  have hstep : 0 < den * 2 ^ roundShift num den := by positivity
  have hq : roundQuotient num den =
      if den * 2 ^ roundShift num den < 2 * (num % (den * 2 ^ roundShift num den)) ||
        (den * 2 ^ roundShift num den == 2 * (num % (den * 2 ^ roundShift num den)) &&
          num / (den * 2 ^ roundShift num den) % 2 == 1) then num / (den * 2 ^ roundShift num den) + 1
      else num / (den * 2 ^ roundShift num den) := rfl
  generalize den * 2 ^ roundShift num den = step at *
  have hdiv : (num : Int) = step * (num / step : Nat) + (num % step : Nat) := by
    exact_mod_cast (Nat.div_add_mod num step).symm
  have hr := Nat.mod_lt num hstep
  rw [hq] at htie ⊢
  split
  case isTrue hup =>
    rw [if_pos hup, show ((num / step + 1 : Nat) : Int) * step - num = step - (num % step : Nat) by
      push_cast at *; linear_combination -hdiv, abs_of_nonneg (by omega)] at htie
    simp only [Bool.or_eq_true, Bool.and_eq_true, decide_eq_true_eq, beq_iff_eq] at hup
    omega
  case isFalse hdown =>
    rw [if_neg hdown, show ((num / step : Nat) : Int) * step - num = -(num % step : Nat) by
      linear_combination -hdiv, abs_neg, abs_of_nonneg (by omega)] at htie
    simp only [Bool.or_eq_true, Bool.and_eq_true, decide_eq_true_eq, beq_iff_eq] at hdown
    omega

/-- With steps of two units the 24-bit quotient is full from half a step below on, the tie going to the even one. -/
theorem quotient_full_iff {q unit : Nat} (hunit : 0 < unit) (hq : q ≤ 2 ^ 24)
    (herr : 2 * |(q : Int) * (2 * unit : Nat) - num| ≤ (2 * unit : Nat))
    (htie : 2 * |(q : Int) * (2 * unit : Nat) - num| = (2 * unit : Nat) → q % 2 = 0) :
    q = 2 ^ 24 ↔ (2 ^ 25 - 1) * unit ≤ num := by
  push_cast at herr htie
  constructor
  · rintro rfl
    rw [abs_eq_max_neg] at herr
    omega
  · intro hover
    by_contra hfull
    rw [abs_eq_max_neg] at herr htie
    rcases Nat.lt_or_ge q (2 ^ 24 - 1) with hfar | hnear
    · have hle : (q : Int) * (2 * unit) ≤ (2 ^ 24 - 2) * (2 * unit) := by gcongr; omega
      omega
    · obtain rfl : q = 2 ^ 24 - 1 := by omega
      omega

theorem roundMagnitude_le : roundMagnitude num den ≤ 0x7F800000 := Nat.min_le_right _ _

theorem roundMagnitude_zero : roundMagnitude 0 den = 0 := by
  have hshift : roundShift 0 den = 0 := by simp [roundShift]
  simp [roundMagnitude, roundQuotient, hshift]

/-- The rounding overflows from half a step above the largest finite value on (00_scope.md R8). -/
theorem roundMagnitude_eq_inf_iff (hden : 0 < den) :
    roundMagnitude num den = 0x7F800000 ↔ (2 ^ 25 - 1) * 2 ^ 252 * den ≤ num := by
  obtain ⟨hq, he⟩ := roundQuotient_bounds num den hden
  obtain ⟨_, _, herr⟩ := roundQuotient_spec num den hden
  obtain ⟨hlt, hge⟩ := roundShift_spec num den
  have htie := roundQuotient_even_of_tie (num := num) hden
  have hmin : roundMagnitude num den = 0x7F800000 ↔
      254 ≤ roundShift num den ∨ (roundShift num den = 253 ∧ roundQuotient num den = 2 ^ 24) := by
    unfold roundMagnitude
    omega
  rw [hmin]
  rcases Nat.lt_trichotomy (roundShift num den) 253 with hsmall | h253 | hlarge
  · refine iff_of_false (by omega) fun hover => ?_
    have hquot : (2 ^ 25 - 1) * 2 ^ 252 ≤ num / den := (Nat.le_div_iff_mul_le hden).2 hover
    have hpow : 2 ^ (roundShift num den + 24) ≤ 2 ^ 24 * 2 ^ 252 := by
      rw [pow_add, Nat.mul_comm]
      exact Nat.mul_le_mul_left _ (Nat.pow_le_pow_right (by decide) (by omega))
    have hunit : 0 < 2 ^ 252 := by positivity
    generalize 2 ^ 252 = unit at *
    omega
  · rw [h253, show den * 2 ^ 253 = 2 * (2 ^ 252 * den) by ring] at herr htie
    have hfull := quotient_full_iff (by positivity) hq herr htie
    rw [← Nat.mul_assoc] at hfull
    rw [← hfull, h253]
    omega
  · refine iff_of_true (by omega) ?_
    have hpow : 2 ^ 25 * 2 ^ 252 ≤ 2 ^ (roundShift num den + 23) := by
      rw [show roundShift num den + 23 = (roundShift num den - 229) + 252 by omega, pow_add]
      exact Nat.mul_le_mul_right _ (Nat.pow_le_pow_right (by decide) (by omega))
    have hquot : 2 ^ 25 * 2 ^ 252 ≤ num / den := hpow.trans (hge.resolve_left (by omega))
    rw [Nat.le_div_iff_mul_le hden, Nat.mul_assoc] at hquot
    rw [Nat.mul_assoc]
    omega

/-- With num within half a step of q steps, a value a step away from them on either side, or below them where num is
not, is no nearer; it is as near only at a tie. -/
theorem nearest_of_apart {q g unit : Nat} (hden : 0 < den) (hunit : 0 < unit)
    (herr : 2 * |(q : Int) * (den * unit : Nat) - num| ≤ (den * unit : Nat))
    (htie : 2 * |(q : Int) * (den * unit : Nat) - num| = (den * unit : Nat) → q % 2 = 0)
    (hapart : (q + 1) * unit ≤ g ∨ g + unit ≤ q * unit ∨ (g < q * unit ∧ q * unit * den ≤ num)) :
    |(num : Int) - (q * unit : Nat) * den| < |(num : Int) - g * den| ∨
      (|(num : Int) - (q * unit : Nat) * den| = |(num : Int) - g * den| ∧ q % 2 = 0) := by
  have hsame : (q : Int) * (den * unit : Nat) = (q * unit * den : Nat) := by push_cast; ring
  have hscaled : q * unit * den + den * unit ≤ g * den ∨ g * den + den * unit ≤ q * unit * den ∨
      (g * den < q * unit * den ∧ q * unit * den ≤ num) := by
    rcases hapart with h | h | ⟨h, h'⟩
    · exact .inl (by nlinarith)
    · exact .inr (.inl (by nlinarith))
    · exact .inr (.inr ⟨Nat.mul_lt_mul_of_pos_right h hden, h'⟩)
  rw [hsame] at herr htie
  rw [← Nat.cast_mul, ← Nat.cast_mul]
  generalize q * unit * den = x at *
  generalize g * den = y at *
  have hstep : 0 < den * unit := by positivity
  generalize den * unit = step at *
  rw [abs_eq_max_neg] at herr htie ⊢
  rw [abs_eq_max_neg]
  omega

/-- No other pattern is nearer than the rounded one, and one as near leaves it the even fraction (00_scope.md R8). -/
theorem roundMagnitude_nearest (hden : 0 < den) (hfin : roundMagnitude num den < 0x7F800000) {w : Nat}
    (hw : w < 0x7F800000) (hne : w ≠ roundMagnitude num den) :
    |(num : Int) - gridValue (roundMagnitude num den) * den| < |(num : Int) - gridValue w * den| ∨
      (|(num : Int) - gridValue (roundMagnitude num den) * den| = |(num : Int) - gridValue w * den| ∧
        roundMagnitude num den % 2 = 0) := by
  obtain ⟨hq, he⟩ := roundQuotient_bounds num den hden
  obtain ⟨_, _, herr⟩ := roundQuotient_spec num den hden
  have htie := roundQuotient_even_of_tie (num := num) hden
  have hfloor := (roundShift_spec num den).2
  have hmag : roundMagnitude num den = roundShift num den * 2 ^ 23 + roundQuotient num den := by
    unfold roundMagnitude at hfin ⊢
    omega
  rw [hmag] at hfin hne ⊢
  have hapart := gridValue_apart hq he hfin hw hne
  rw [gridValue_steps hq he (by omega)]
  have heven : (roundShift num den * 2 ^ 23 + roundQuotient num den) % 2 = roundQuotient num den % 2 := by omega
  have hpow : 0 < 2 ^ roundShift num den := by positivity
  rw [heven]
  have hopens : gridValue w < roundQuotient num den * 2 ^ roundShift num den → roundQuotient num den = 2 ^ 23 →
      roundShift num den ≠ 0 → (roundQuotient num den * 2 ^ roundShift num den) * den ≤ num := by
    intro _ hq23 he0
    rw [hq23, ← pow_add, Nat.add_comm 23, ← Nat.le_div_iff_mul_le hden]
    exact hfloor.resolve_left he0
  exact nearest_of_apart hden hpow herr htie (hapart.imp_right (.imp_right fun ⟨h, h', h''⟩ => ⟨h, hopens h h' h''⟩))

/-- A magnitude that does not round to 0 is at least as near to its rounding as to 0. -/
theorem roundMagnitude_nearest_zero (hden : 0 < den) (hfin : roundMagnitude num den < 0x7F800000)
    (hne : roundMagnitude num den ≠ 0) :
    |(num : Int) - gridValue (roundMagnitude num den) * den| < num ∨
      (|(num : Int) - gridValue (roundMagnitude num den) * den| = num ∧ roundMagnitude num den % 2 = 0) := by
  have hnear := roundMagnitude_nearest hden hfin (w := 0) (by omega) hne.symm
  rwa [gridValue_zero, Nat.cast_zero, zero_mul, sub_zero, Nat.abs_cast] at hnear

end

/-! ### Signs -/

/-- A pattern is its sign and its magnitude. -/
theorem f32OfParts_eq (u : Word) : f32OfParts (f32Sign u) (u.toNat % 2 ^ 31) = u := by
  apply BitVec.eq_of_toNat_eq
  have hlt := u.isLt
  rw [f32OfParts_toNat _ (Nat.mod_lt _ (by decide)), f32Sign, BitVec.getLsbD, Nat.testBit_eq_decide_div_mod_eq]
  simp only [decide_eq_true_eq]
  split <;> omega

theorem f32Mag_eq_gridValue (u : Word) : f32Mag u = gridValue (u.toNat % 2 ^ 31) := by
  rw [← f32Mag_ofParts_eq (f32Sign u) (Nat.mod_lt _ (by decide)), f32OfParts_eq]

theorem isFinite_iff (u : Word) : isFinite u = true ↔ u.toNat % 2 ^ 31 < 0x7F800000 := by
  simp only [isFinite, f32Exp, bne_iff_ne]
  omega

theorem isInf_iff (u : Word) : isInf u = true ↔ u.toNat % 2 ^ 31 = 0x7F800000 := by
  simp only [isInf, f32Exp, f32Frac, Bool.and_eq_true, beq_iff_eq]
  omega

theorem isNaN_eq_false_iff (u : Word) : isNaN u = false ↔ u.toNat % 2 ^ 31 ≤ 0x7F800000 := by
  simp only [isNaN, f32Exp, f32Frac, Bool.and_eq_false_iff, bne_eq_false_iff_eq, beq_eq_false_iff_ne]
  omega

theorem fl_magnitude (neg : Bool) (num den : Nat) : (fl neg num den).toNat % 2 ^ 31 = roundMagnitude num den := by
  have hle := roundMagnitude_le (num := num) (den := den)
  rw [fl, f32OfParts_toNat neg (by omega)]
  split <;> omega

theorem f32Sign_fl (neg : Bool) (num den : Nat) : f32Sign (fl neg num den) = neg := by
  have hle := roundMagnitude_le (num := num) (den := den)
  exact f32Sign_ofParts neg (by omega)

/-- A number with a sign. -/
abbrev signed (neg : Bool) (n : Nat) : Int := if neg then -(n : Int) else n

theorem f32Units_eq_signed (u : Word) : f32Units u = signed (f32Sign u) (gridValue (u.toNat % 2 ^ 31)) := by
  rw [f32Units_eq, f32Mag_eq_gridValue]

theorem f32Units_fl (neg : Bool) (num den : Nat) :
    f32Units (fl neg num den) = signed neg (gridValue (roundMagnitude num den)) := by
  rw [f32Units_eq_signed, f32Sign_fl, fl_magnitude]

/-- Distances between numbers of one sign are those of their magnitudes. -/
theorem abs_signed_sub (neg : Bool) (n a d : Nat) : |signed neg n - signed neg a * d| = |(n : Int) - a * d| := by
  cases neg with
  | false => rfl
  | true =>
    rw [← abs_neg]
    congr 1
    simp only [signed, if_true]
    ring

/-- A number of the other sign is no nearer than 0. -/
theorem abs_signed_sub_of_ne {neg sgn : Bool} (h : sgn ≠ neg) (n a d : Nat) :
    |signed neg n - signed sgn a * d| = n + a * d := by
  have hnonneg : (0 : Int) ≤ a * d := by positivity
  cases neg <;> cases sgn <;> simp only [signed, if_true, Bool.false_eq_true, if_false, ne_eq, not_true_eq_false] at h ⊢
  · rw [abs_of_nonneg] <;> linarith
  · rw [abs_of_nonpos] <;> linarith

/-- A rounding with its sign is to nearest, ties to even, among all finite values (00_scope.md R8). -/
theorem rounded_fl (neg : Bool) (num : Nat) {den : Nat} (hden : 0 < den) :
    Rounded (signed neg num) den (fl neg num den) := by
  have hmag := fl_magnitude neg num den
  have hnat : (signed neg num).natAbs = num := by
    unfold signed
    split <;> simp
  refine ⟨?_, ?_, fun hne => ?_, fun hfin w hw hne => ?_⟩
  · rw [isNaN_eq_false_iff, hmag]
    exact roundMagnitude_le
  · rw [isInf_iff, hmag, hnat, roundMagnitude_eq_inf_iff hden]
  · have hnum : num ≠ 0 := by
      rintro rfl
      rw [f32Units_fl, roundMagnitude_zero, gridValue_zero] at hne
      simp [signed] at hne
    rw [f32Sign_fl]
    cases neg with
    | false => simp [signed]
    | true => simpa [signed] using Nat.pos_of_ne_zero hnum
  · rw [isFinite_iff, hmag] at hfin
    rw [isFinite_iff] at hw
    have heven : (fl neg num den).toNat % 2 = roundMagnitude num den % 2 := by rw [← hmag]; omega
    rw [f32Units_fl, f32Units_eq_signed w] at hne
    rw [heven, f32Units_fl, f32Units_eq_signed w, abs_signed_sub]
    by_cases hsign : f32Sign w = neg
    · rw [hsign] at hne ⊢
      rw [abs_signed_sub]
      exact roundMagnitude_nearest hden hfin hw fun heq => hne (by rw [heq])
    · have hnonneg : (0 : Int) ≤ gridValue (w.toNat % 2 ^ 31) * den := by positivity
      rw [abs_signed_sub_of_ne hsign]
      by_cases hzero : roundMagnitude num den = 0
      · have hvalue : gridValue (w.toNat % 2 ^ 31) ≠ 0 := fun h => hne (by
          rw [h, hzero, gridValue_zero]
          simp [signed])
        have hpos : (0 : Int) < gridValue (w.toNat % 2 ^ 31) * den := by positivity
        rw [hzero, gridValue_zero, Nat.cast_zero, zero_mul, sub_zero, Nat.abs_cast]
        exact .inl (lt_add_of_pos_right _ hpos)
      · rcases roundMagnitude_nearest_zero hden hfin hzero with hlt | ⟨heq, hev⟩
        · exact .inl (by linarith)
        · rw [heq]
          exact hnonneg.eq_or_lt.symm.imp (by intro h; linarith) fun h => ⟨by linarith, hev⟩

/-! ### Sums and products of finite values -/

section
variable {x y : Word} (hx : isFinite x = true) (hy : isFinite y = true)

include hx hy

/-- The product of two finite values is their rounded exact product (00_scope.md R8). -/
theorem fmul_of_finite :
    fmul x y = some (fl (f32Sign x != f32Sign y) (f32Mag x * f32Mag y) (2 ^ 149)) := by
  simp [fmul, isNaN_of_isFinite, isInf_of_isFinite, hx, hy]

theorem fadd_rounded : ∃ r, fadd x y = some r ∧ Rounded (f32Units x + f32Units y) 1 r := by
  refine ⟨_, fadd_of_finite hx hy, ?_⟩
  have hrounded := rounded_fl (decide (f32Units x + f32Units y < 0)) (f32Units x + f32Units y).natAbs (den := 1)
    (by decide)
  have hvalue (t : Int) : signed (decide (t < 0)) t.natAbs = t := by
    simp only [signed, decide_eq_true_eq]
    omega
  rwa [hvalue] at hrounded

theorem fmul_rounded :
    ∃ r, fmul x y = some r ∧ Rounded (f32Units x * f32Units y) (2 ^ 149) r ∧
      f32Sign r = (f32Sign x != f32Sign y) := by
  refine ⟨_, fmul_of_finite hx hy, ?_, f32Sign_fl _ _ _⟩
  have hrounded := rounded_fl (f32Sign x != f32Sign y) (f32Mag x * f32Mag y) (den := 2 ^ 149) (by positivity)
  have hvalue : signed (f32Sign x != f32Sign y) (f32Mag x * f32Mag y) = f32Units x * f32Units y := by
    rw [f32Units_eq, f32Units_eq]
    cases f32Sign x <;> cases f32Sign y <;> simp [signed]
  rwa [hvalue] at hrounded

end

/-! ### Special values -/

section
variable {x y : Word}

theorem isNaN_of_isInf (h : isInf x = true) : isNaN x = false := by
  simp only [isInf, Bool.and_eq_true, beq_iff_eq] at h
  simp [isNaN, h.2]

theorem isFinite_of_isInf (h : isInf x = true) : isFinite x = false := by
  rw [isFinite_eq_false_iff]
  exact .inr h

/-- A NaN operand gives a NaN (00_scope.md R8). -/
theorem arith_of_isNaN (h : isNaN x = true) :
    fadd x y = none ∧ fadd y x = none ∧ fmul x y = none ∧ fmul y x = none := by
  simp [fadd, fmul, h]

theorem fadd_inf_finite (hx : isInf x = true) (hy : isFinite y = true) : fadd x y = some x ∧ fadd y x = some x := by
  simp [fadd, hx, isNaN_of_isInf hx, isNaN_of_isFinite hy, isInf_of_isFinite hy]

theorem fadd_inf_inf (hx : isInf x = true) (hy : isInf y = true) :
    fadd x y = if f32Sign x = f32Sign y then some x else none := by
  simp [fadd, hx, hy, isNaN_of_isInf hx, isNaN_of_isInf hy]

/-- A magnitude is 0 exactly when the value is. -/
theorem f32Mag_eq_zero_iff (u : Word) : f32Mag u = 0 ↔ f32Units u = 0 := by
  rw [f32Units_eq]
  split <;> omega

theorem fmul_inf_zero (hx : isInf x = true) (hy : isFinite y = true) (hzero : f32Units y = 0) :
    fmul x y = none ∧ fmul y x = none := by
  simp [fmul, hx, isNaN_of_isInf hx, isNaN_of_isFinite hy, hy, (f32Mag_eq_zero_iff y).2 hzero]

/-- The infinity with a sign. -/
theorem infinity_spec (neg : Bool) :
    isInf (f32OfParts neg 0x7F800000) = true ∧ f32Sign (f32OfParts neg 0x7F800000) = neg := by
  cases neg <;> exact ⟨by decide, by decide⟩

theorem fmul_inf_nonzero (hx : isInf x = true) (hy : isNaN y = false) (hne : f32Units y ≠ 0) :
    ∃ r, fmul x y = some r ∧ fmul y x = some r ∧ isInf r = true ∧ f32Sign r = (f32Sign x != f32Sign y) := by
  refine ⟨f32OfParts (f32Sign x != f32Sign y) 0x7F800000, ?_, ?_, infinity_spec _⟩
  · simp [fmul, hx, hy, isNaN_of_isInf hx, isFinite_of_isInf hx, f32Mag_eq_zero_iff, hne]
  · simp [fmul, hx, hy, isNaN_of_isInf hx, isFinite_of_isInf hx, f32Mag_eq_zero_iff, hne, bne_comm]

theorem fadd_exact_zero (hx : isFinite x = true) (hy : isFinite y = true) (h : f32Units x + f32Units y = 0) :
    fadd x y = some 0 := by
  rw [fadd_of_finite hx hy, h]
  decide

/-- `minNum` of two values that are not NaN is one of them, the lesser (00_scope.md R8). -/
theorem minNum_of_not_nan (hx : isNaN x = false) (hy : isNaN y = false) :
    minNum (some x) y = if f32Units y < f32Units x then y else x := by
  simp [minNum, f32Less, hx, hy]

theorem minNum_laws :
    minNum none y = y ∧ (isNaN x = true → minNum (some x) y = y) ∧
      (isNaN x = false → isNaN y = true → minNum (some x) y = x) ∧
      (isNaN x = false → isNaN y = false →
        (minNum (some x) y = x ∨ minNum (some x) y = y) ∧
        f32Units (minNum (some x) y) = min (f32Units x) (f32Units y)) := by
  refine ⟨rfl, fun hx => by simp [minNum, hx], fun hx hy => by simp [minNum, hx, hy], fun hx hy => ?_⟩
  rw [minNum_of_not_nan hx hy]
  split
  · exact ⟨.inr rfl, by omega⟩
  · exact ⟨.inl rfl, by omega⟩

end

end Sys2Proof.Machine

namespace Sys2Proof.Proofs

open Sys2Proof.Machine Sys2Proof.Spec

/-- Settles O59: the rounded magnitude is the nearest point of the grid (`roundMagnitude_nearest`), signs add no nearer
one (`rounded_fl`), and sums and products are roundings. -/
theorem roundingIsNearestTiesToEven : Obligations.RoundingIsNearestTiesToEven := by
  refine ⟨fun num den hden => ⟨roundMagnitude_le, roundMagnitude_eq_inf_iff hden, fun hfin w hw hne => ?_⟩,
    fun neg num den hden => ⟨f32Sign_fl neg num den, fl_magnitude neg num den, rounded_fl neg num hden⟩,
    fun x y hx hy => ⟨fadd_rounded hx hy, fmul_rounded hx hy⟩⟩
  rw [f32Mag_ofNat, f32Mag_ofNat]
  exact roundMagnitude_nearest hden hfin hw hne

/-- Settles O60, a special case each. -/
theorem specialValueArithmetic : Obligations.SpecialValueArithmetic :=
  fun _ _ => ⟨arith_of_isNaN, fadd_inf_finite, fun hx hy hne => (fadd_inf_inf hx hy).trans (if_neg hne),
    fun hx hy heq => (fadd_inf_inf hx hy).trans (if_pos heq), fmul_inf_zero, fmul_inf_nonzero, fadd_exact_zero,
    ⟨rfl, rfl, rfl⟩, minNum_laws⟩

end Sys2Proof.Proofs
end

section
/-! The commands' successful completions (40_codec.md R129-R131, 41_noise_crosstalk.md R150-R156, 42_probe.md R170,
R171, 43_ecc.md R184, R185): what the output region holds, and that nothing else changes. -/

namespace Sys2Proof.Machine

open Sys2Proof.Spec

/-! ### Output regions -/

/-- Written bytes read back, and the bytes outside them stay. -/
theorem write_effect (m : Memory) (a : Nat) {bytes : List Byte} {n : Nat} (hlen : bytes.length = n) :
    (∀ i (h : i < n), Memory.byteAt (Memory.write m a bytes) (a + i) = bytes[i]) ∧
      SameOutside m (Memory.write m a bytes) a n := by
  subst hlen
  exact ⟨fun i h => Memory.byteAt_write_inside m a i bytes h, fun x hx => Memory.byteAt_write_outside m a x bytes hx⟩

/-- Written records read back, and the bytes outside them stay. -/
theorem voxWriteAll_effect (m : Memory) (a : Nat) {vs : List Voxel} {n : Nat} (hlen : vs.length = n) :
    (∀ i (h : i < n), Memory.voxRead (Memory.voxWriteAll m a vs) (a + 16 * i) = vs[i]) ∧
      SameOutside m (Memory.voxWriteAll m a vs) a (16 * n) := by
  subst hlen
  exact ⟨fun i h => Memory.voxRead_voxWriteAll m a i vs h,
    fun x hx => Memory.byteAt_voxWriteAll_outside m a x vs hx⟩

/-- A command with one input and one output, in range and apart, goes on past its region checks. -/
theorem guardRegions_of_regions {i : Instr} {s : State} {inBytes outBytes : Nat} (ok : State)
    (hs : sources i s = [⟨src s, inBytes⟩]) (hd : destination i s = some ⟨dst s, outBytes⟩)
    (h : Regions s inBytes outBytes) : s.guardRegions i ok = ok := by
  obtain ⟨hsrc, hdst, hapart⟩ := h
  exact guardRegions_ok s i ok (regionError_none_of_fits i s _ _ _ _ hs hd hsrc hdst hapart)

/-- The records a command reads. -/
abbrev inputRecords (s : State) : List Voxel := Memory.voxels s.mem (src s) (count s)

/-! ### The codec -/

/-- ENC past its region checks (40_codec.md R129). -/
def State.encOk (s : State) : State :=
  s.finish (Memory.voxWriteAll s.mem s.dstAt ((Memory.read s.mem s.srcAt s.srcCount).map encodeByte)) s.srcCount .ok

theorem exec_enc (s : State) : exec .enc s = .next (s.guardRegions .enc s.encOk) := rfl

/-- ENC's output records encode its input bytes, and no other byte changes. -/
theorem encOk_effect (s : State) :
    (∀ i, i < count s →
      Memory.voxRead s.encOk.mem (dst s + 16 * i) = encodeByte (Memory.byteAt s.mem (src s + i))) ∧
    SameOutside s.mem s.encOk.mem (dst s) (16 * count s) := by
  obtain ⟨hrecords, hframe⟩ := voxWriteAll_effect s.mem (dst s) (n := count s)
    (vs := (Memory.read s.mem (src s) (count s)).map encodeByte) (by simp)
  refine ⟨fun i hi => (hrecords i hi).trans ?_, hframe⟩
  rw [List.getElem_map, Memory.read_getElem]

/-- DEC past its region checks (40_codec.md R130). -/
def State.decOk (s : State) : State :=
  s.finish (Memory.write s.mem s.dstAt ((Memory.voxels s.mem s.srcAt s.srcCount).map decodeVoxel)) s.srcCount .ok

/-- On regions in range and apart DEC decodes its records. -/
theorem exec_dec_of_regions {s : State} (h : Regions s (16 * count s) (count s)) : exec .dec s = .next s.decOk :=
  congrArg _ (guardRegions_of_regions s.decOk rfl rfl h)

/-- DEC's output bytes decode its input records, and no other byte changes. -/
theorem decOk_effect (s : State) :
    (∀ i, i < count s →
      Memory.byteAt s.decOk.mem (dst s + i) = decodeVoxel (Memory.voxRead s.mem (src s + 16 * i))) ∧
    SameOutside s.mem s.decOk.mem (dst s) (count s) := by
  obtain ⟨hbytes, hframe⟩ := write_effect s.mem (dst s) (n := count s)
    (bytes := (inputRecords s).map decodeVoxel) (by simp)
  refine ⟨fun i hi => (hbytes i hi).trans ?_, hframe⟩
  rw [List.getElem_map, Memory.voxels_getElem]

/-! ### Perturbed records -/

/-- A model voxel perturbed within bounds that are not negative is one the spec allows (10_state.md R45). -/
theorem noisyVoxel_allowed {bs : Bounds} (hi : 0 ≤ f32Units bs.intensity) (hp : 0 ≤ f32Units bs.polarization)
    (hh : 0 ≤ f32Units bs.phase) (hw : 0 ≤ f32Units bs.wavelength) (k : Nat) (v : Voxel) :
    NoisyVoxel bs v (noisyVoxel bs k v) :=
  ⟨noisySum_noisyField _ _ _ hi, noisySum_noisyField _ _ _ hp, noisySum_noisyField _ _ _ hh,
    noisySum_noisyField _ _ _ hw⟩

/-- A positive value has no sign. -/
theorem f32Sign_of_pos {u : Word} (h : 0 < f32Units u) : f32Sign u = false := by
  by_contra hsign
  have hle := f32Units_nonpos_of_sign (Bool.eq_true_of_not_eq_false hsign)
  omega

/-- The wavelength bound of a positive amplitude is not negative (41_noise_crosstalk.md R150). -/
theorem wavelengthBound_nonneg {a bw : Word} (hfin : isFinite a = true) (hpos : 0 < f32Units a)
    (hbw : wavelengthBound a = some bw) : 0 ≤ f32Units bw := by
  have hsign : (f32Sign f32Hundred != f32Sign a) = false := by
    rw [f32Sign_of_pos hpos]
    decide
  rw [wavelengthBound, fmul_of_finite (by decide) hfin, hsign, Option.some.injEq] at hbw
  exact hbw ▸ fl_units_nonneg _ _

/-- NOISE past its checks, with a positive amplitude (41_noise_crosstalk.md R150). -/
theorem noiseOk_of_pos {s : State} {bw : Word} (hpos : 0 < f32Units s.param)
    (hbw : wavelengthBound s.param = some bw) :
    noiseOk s = (s.takeDraws (4 * count s)).finish (Memory.voxWriteAll s.mem (dst s)
      (noisyVoxels (amplitudeBounds s.param bw) s.noiseDraws (inputRecords s))) (count s) .ok := by
  have hamp : positiveAmplitude s.param = true := decide_eq_true hpos
  simp only [noiseOk, hamp, hbw]
  rfl

/-- A finite amplitude whose wavelength bound is finite is in NOISE's domain (60_exceptions.md R202). -/
theorem badAmplitude_eq_false {a bw : Word} (hfin : isFinite a = true) (hbw : wavelengthBound a = some bw)
    (hinf : isInf bw = false) : badAmplitude a = false := by
  simp [badAmplitude, hfin, hbw, hinf]

/-! ### Crosstalk -/

/-- Within a sequence of records the intensity of cell j is that of record j. -/
theorem intensityAt_voxels (m : Memory) (a : Nat) {n j : Nat} (hj : j < n) :
    intensityAt (Memory.voxels m a n) j = (Memory.voxRead m (a + 16 * j)).intensity := by
  simp [intensityAt, Memory.voxels, hj]

/-- The leak sums the neighbours' original intensities, read from BUF (41_noise_crosstalk.md R153). -/
theorem leakInto_voxels (k : Word) (wd ht : Nat) (m : Memory) (a n i : Nat) :
    leakInto k wd ht (Memory.voxels m a n) i =
      (neighbours wd ht n i).foldl
        (fun leak j => faddResult leak (fmul k (Memory.voxRead m (a + 16 * j)).intensity)) (some 0) := by
  rw [leakInto, Memory.voxels_length]
  refine foldl_congr_mem _ _ _ _ fun leak j hj => ?_
  rw [intensityAt_voxels m a (neighbours_lt wd ht n i j hj)]

theorem crosstalk_getElem (k : Word) {wd ht : Nat} (vs : List Voxel) (hlattice : ¬ (wd = 0 ∨ ht = 0)) (i : Nat)
    (h : i < (crosstalk k wd ht vs).length) (h' : i < vs.length) :
    (crosstalk k wd ht vs)[i] = leakedVoxel k wd ht vs i vs[i] := by
  simp only [crosstalk, if_neg hlattice, List.getElem_mapIdx]

/-! ### Erasure coding -/

/-- The integrity check of 14·S bytes read from BUF is the parity law of those bytes (43_ecc.md R183). -/
theorem intact_read_iff (p : Params) (m : Memory) (a size : Nat) :
    intact p size (Memory.read m a (14 * size)) = true ↔ Intact p m a size := by
  have hget (x : Nat) (hx : x < 14 * size) : (Memory.read m a (14 * size)).getD x 0 = Memory.byteAt m (a + x) := by
    have hlen : x < (Memory.read m a (14 * size)).length := by rwa [Memory.read_length]
    rw [List.getD_eq_getElem _ _ hlen, Memory.read_getElem]
  rw [intact_iff _ _ _ (Memory.read_length _ _ _)]
  refine forall₂_congr fun j t => forall₂_congr fun hj ht => ?_
  have column : (columnParity p j fun i => (Memory.read m a (14 * size)).getD (i * size + t) 0) =
      paritySum p j fun i => Memory.byteAt m (a + i * size + t) := by
    refine columnParity_congr _ _ _ _ fun i hi => ?_
    rw [hget _ (by nlinarith), Nat.add_assoc]
  rw [hget _ (by nlinarith), column, Nat.add_assoc]

/-- Behind the input the padded data is zero (43_ecc.md R184). -/
theorem protect_getElem (p : Params) (bytes : List Byte) (x : Nat) (h : x < (protect p bytes).length)
    (hx : x < 10 * addShardSize bytes.length) : (protect p bytes)[x] = bytes.getD x 0 := by
  rw [← protect_data p bytes x hx, List.getD_eq_getElem _ _ h]

/-! ### Tables -/

theorem getElem?_romRow (e0 e1 e2 e3 : Word) : ∀ k : BitVec 2,
    some (romRow e0 e1 e2 e3 k) = [e0, e1, e2, e3][k.toNat]? := by
  rw [forall_level]
  exact ⟨rfl, rfl, rfl, rfl⟩

theorem extractLsb'_two_toNat (b : Byte) (n : Nat) : (b.extractLsb' n 2).toNat = b.toNat / 2 ^ n % 4 := by
  rw [BitVec.extractLsb'_toNat, Nat.shiftRight_eq_div_pow]

end Sys2Proof.Machine

namespace Sys2Proof.Proofs

open Sys2Proof.Machine Sys2Proof.Spec

/-- Settles O24 (`encOk_effect`). -/
theorem encWritesEncodedRecords : Obligations.EncWritesEncodedRecords := by
  intro s h
  have hexec : exec .enc s = .next s.encOk := congrArg _ (guardRegions_of_regions s.encOk rfl rfl h)
  exact ⟨_, hexec.trans (congrArg _ (finish_ok s _ _ _ (ofNat_srcCount s))), encOk_effect s⟩

/-- Settles O25 (`decOk_effect`). -/
theorem decWritesDecodedBytes : Obligations.DecWritesDecodedBytes :=
  fun s h => ⟨_, (exec_dec_of_regions h).trans (congrArg _ (finish_ok s _ _ _ (ofNat_srcCount s))), decOk_effect s⟩

/-- Settles O26: the voxel decoded is the model's perturbed one, which the spec allows (`noisyVoxel_decodeBounds`). -/
theorem decnDecodesPerturbedRecords : Obligations.DecnDecodesPerturbedRecords := by
  intro s h
  obtain ⟨hbytes, hframe⟩ := write_effect s.mem (dst s) (n := count s)
    (bytes := (noisyVoxels decodeBounds s.noiseDraws (inputRecords s)).map decodeVoxel) (by simp)
  refine ⟨_, congrArg _ ((guardRegions_of_regions _ rfl rfl h).trans
    (finish_ok (s.takeDraws (4 * count s)) _ _ _ (ofNat_srcCount s))), fun i hi => ?_, hframe⟩
  refine ⟨_, noisyVoxel_decodeBounds (s.noiseDraws + 4 * i) _, (hbytes i hi).trans ?_⟩
  rw [List.getElem_map, noisyVoxels_getElem _ _ _ _ _ (by simpa using hi), Memory.voxels_getElem]

/-- Settles O27: the amplitude passes its check, and each output voxel is the model's perturbed one, within bounds that
are not negative (`noisyVoxel_allowed`). -/
theorem noiseWritesPerturbedRecords : Obligations.NoiseWritesPerturbedRecords := by
  intro s bw hfin hpos hbw hinf h
  have hparam : 0 ≤ f32Units s.param := hpos.le
  have hbound := wavelengthBound_nonneg hfin hpos hbw
  obtain ⟨hrecords, hframe⟩ := voxWriteAll_effect s.mem (dst s) (n := count s)
    (vs := noisyVoxels (amplitudeBounds s.param bw) s.noiseDraws (inputRecords s)) (by simp)
  have hexec : exec .noise s = .next (noiseOk s) := by
    rw [exec, execNoise, badAmplitude_eq_false hfin hbw hinf, guardRegions_of_regions (i := .noise) _ rfl rfl h]
    rfl
  refine ⟨_, ?_, fun i hi => ?_, hframe⟩
  · rw [hexec, noiseOk_of_pos hpos hbw]
    exact congrArg _ (finish_ok (s.takeDraws (4 * count s)) _ _ _ (ofNat_srcCount s))
  · rw [hrecords i hi, noisyVoxels_getElem _ _ _ _ _ (by simpa using hi), Memory.voxels_getElem]
    exact noisyVoxel_allowed (bs := amplitudeBounds s.param bw) hparam hparam hparam hbound _ _

/-- Settles O29: with a lattice every output voxel is the leaked one, and its leak reads the original intensities
(`leakInto_voxels`). -/
theorem xtalkLeaksIntensity : Obligations.XtalkLeaksIntensity := by
  intro s hw hh h
  have hlattice : ¬ (s.width = 0 ∨ s.height = 0) := by
    rw [s.degenerate_iff]
    exact not_or.2 ⟨hw, hh⟩
  obtain ⟨hrecords, hframe⟩ := voxWriteAll_effect s.mem (dst s) s.leakedVoxels_length
  have hexec : exec .xtalk s = .next s.xtalkOk := by rw [exec_xtalk, guardRegions_of_regions _ rfl rfl h]
  refine ⟨_, hexec.trans (congrArg _ (finish_ok s _ _ _ (ofNat_srcCount s))), fun i hi => ?_, hframe⟩
  have hi' : i < (inputRecords s).length := by simpa using hi
  calc Memory.voxRead (Memory.voxWriteAll s.mem (dst s) s.leakedVoxels) (dst s + 16 * i)
    _ = leakedVoxel s.param s.width s.height (inputRecords s) i (inputRecords s)[i] := by
      rw [hrecords i hi]
      exact crosstalk_getElem _ _ hlattice _ _ hi'
    _ = _ := by
      rw [leakedVoxel, leakInto_voxels, Memory.voxels_getElem]
      rfl

/-- Settles O31: the probe's byte is the decoded byte without its polarization bits (`probeVoxel_eq`). -/
theorem rdnpDiscardsPolarization : Obligations.RdnpDiscardsPolarization := by
  intro s h
  obtain ⟨hbytes, hframe⟩ := write_effect s.mem (dst s) (n := count s)
    (bytes := (inputRecords s).map probeVoxel) (by simp)
  refine ⟨_, congrArg _ ((guardRegions_of_regions _ rfl rfl h).trans (finish_ok s _ _ _ (ofNat_srcCount s))),
    fun i hi => ?_, hframe⟩
  refine (hbytes i hi).trans ?_
  rw [List.getElem_map, Memory.voxels_getElem, probeVoxel_eq]

/-- Settles O32 (`exec_vobf_of_fits`, `probeDiffers_iff`). -/
theorem vobfSetsResult : Obligations.VobfSetsResult :=
  fun s hsrc hsrc2 => ⟨probeDiffers s, exec_vobf_of_fits hsrc hsrc2, probeDiffers_iff s⟩

/-- Settles O33: the output reads back as the protected sequence, which is the padded data (`protect_getElem`) and
passes the integrity check (`protect_intact`). -/
theorem eccaddWritesSystematicCode : Obligations.EccaddWritesSystematicCode := by
  intro s h
  have hlen : (protect s.cfg s.eccInput).length = 14 * addShardSize (count s) := by
    rw [protect_length, s.eccInput_length]
  obtain ⟨hbytes, hframe⟩ := write_effect s.mem (dst s) hlen
  have hdata (x : Nat) (hx : x < 10 * addShardSize (count s)) :
      Memory.byteAt (Memory.write s.mem (dst s) (protect s.cfg s.eccInput)) (dst s + x) = s.eccInput.getD x 0 := by
    rw [hbytes x (by omega), protect_getElem _ _ _ _ (by rwa [s.eccInput_length])]
  have hexec : exec .eccadd s = .next s.eccaddOk := by rw [exec_eccadd, guardRegions_of_regions _ rfl rfl h]
  refine ⟨_, hexec.trans (congrArg _ (finish_ok s _ _ _ rfl)), fun x hx => ?_, fun x hx hpad => ?_, ?_, hframe⟩
  · rw [← s.eccInput_getD hx]
    exact hdata x (by unfold addShardSize; omega)
  · refine (hdata x hpad).trans (List.getD_eq_default _ _ ?_)
    rwa [s.eccInput_length]
  · have hintact := protect_intact s.cfg s.eccInput
    rw [s.eccInput_length, ← read_eccaddOk s, intact_read_iff] at hintact
    exact hintact

/-- Settles O34: past its checks ECCREC writes the data portion (`eccrecOk_of_intact`). -/
theorem eccrecAcceptsIntactSequence : Obligations.EccrecAcceptsIntactSequence := by
  intro s surface hlen h hintact
  obtain ⟨hbytes, hframe⟩ := write_effect s.mem (dst s) s.recovered_length
  have hexec : exec (.eccrec surface) s = .next (eccrecOk surface s) := by
    rw [exec_eccrec_of_length surface hlen, guardRegions_of_regions (i := .eccrec surface) _ rfl (if_pos hlen) h]
  rw [eccrecOk_of_intact surface hlen hintact] at hexec
  refine ⟨_, hexec.trans (congrArg _ (finish_ok s _ _ _ rfl)), fun x hx => ?_, hframe⟩
  rw [hbytes x hx, s.recovered_getElem]

/-- Settles O43: each field is the entry of its row that the field's two bits select (`getElem?_romRow`). -/
theorem encodeByteFollowsTables : Obligations.EncodeByteFollowsTables := by
  intro b
  have hb : b.toNat / 2 ^ 6 % 4 = b.toNat / 64 := by omega
  refine ⟨?_, ?_, ?_, ?_⟩ <;> refine (getElem?_romRow _ _ _ _ _).trans ?_ <;> rw [extractLsb'_two_toNat]
  · rw [pow_zero, Nat.div_one]
    rfl
  · rfl
  · rfl
  · rw [hb]
    rfl

/-- Settles O50: ENC left encoded records (`encOk_effect`), which DEC decodes to the bytes they encode
(`decodeVoxel_encodeByte`). -/
theorem encThenDecReturnsInput : Obligations.EncThenDecReturnsInput := by
  intro s t d hexec herr hfits hapart
  rw [exec_enc, Host.Outcome.next.injEq] at hexec
  subst hexec
  obtain ⟨hchecks, hdone⟩ := guardRegions_of_err_zero herr
  rw [hdone] at hfits ⊢
  have hlen : s.encOk.dstLen = s.srcLen := ofNat_srcCount s
  have hcount : s.encOk.dstLen.toNat = count s := by rw [hlen]
  obtain ⟨hrecords, _⟩ := encOk_effect s
  obtain ⟨hbytes, _⟩ := decOk_effect { s.encOk with srcAddr := s.dstAddr, srcLen := s.encOk.dstLen, dstAddr := d }
  refine ⟨_, exec_dec_of_regions ?_, rfl, (ofNat_srcCount _).trans hlen, fun i hi => ?_⟩
  · rw [show count { s.encOk with srcAddr := s.dstAddr, srcLen := s.encOk.dstLen, dstAddr := d } = count s from hcount]
    exact ⟨destination_fits hchecks rfl, hfits, hapart⟩
  · refine (hbytes i (hi.trans_eq hcount.symm)).trans ((congrArg decodeVoxel (hrecords i hi)).trans ?_)
    exact decodeVoxel_encodeByte _

end Sys2Proof.Proofs
end

section
/-! What a command reads and writes (20_memory.md R62, R70, 60_exceptions.md R209): it changes its destination region
and a few registers, takes draws only on success, and depends on no byte outside its source regions. -/

namespace Sys2Proof.Machine

open Sys2Proof.Spec

/-! ### The frame -/

/-- A completion leaves everything but BUF, STATUS, DST_LEN and the draws as it was. -/
def KeepsRest (s t : State) : Prop :=
  t = { s with mem := t.mem, status := t.status, dstLen := t.dstLen, noiseDraws := t.noiseDraws }

/-- What a completion writes lies in the destination region. -/
def WritesDestination (i : Instr) (s t : State) : Prop :=
  (destination i s = none → t.mem = s.mem) ∧
    ∀ d, destination i s = some d → SameOutside s.mem t.mem d.start d.extent

theorem writesDestination_of_mem_eq {i : Instr} {s t : State} (h : t.mem = s.mem) : WritesDestination i s t :=
  ⟨fun _ => h, fun _ _ _ _ => by rw [h]⟩

theorem exec_frame {i : Instr} {s t : State} (h : exec i s = .next t) : KeepsRest s t ∧ WritesDestination i s t := by
  obtain ⟨u, hexec, hcases⟩ := exec_cases i s
  cases h.symm.trans hexec
  rcases hcases with ⟨c, _, _, rfl⟩ | ⟨d, bytes, n, k, c, _, hd, hlen, rfl, _⟩ | ⟨_, _, rfl⟩
  · exact ⟨rfl, writesDestination_of_mem_eq rfl⟩
  · refine ⟨rfl, fun hnone => by simp [hd] at hnone, fun d' hd' => ?_⟩
    obtain rfl : d = d' := Option.some.inj (hd.symm.trans hd')
    exact (write_effect s.mem d.start hlen).2
  · exact ⟨rfl, writesDestination_of_mem_eq rfl⟩

/-- A guarded command that does not reach its end takes no draw. -/
theorem guardRegions_draws (s : State) (i : Instr) (ok : State) :
    (s.guardRegions i ok).noiseDraws = s.noiseDraws ∨ s.guardRegions i ok = ok := by
  rcases guardRegions_cases s i ok with ⟨_, heq⟩ | ⟨c, _, _, heq⟩
  · exact .inr heq
  · exact .inl (by rw [heq, State.complete_noiseDraws])

/-- The draws of a completion: none, or DECN's and NOISE's 4·n on success (40_codec.md R131,
41_noise_crosstalk.md R150). -/
def TakesDraws (i : Instr) (s t : State) : Prop :=
  t.noiseDraws = s.noiseDraws ∨
    ((i = .decn ∨ i = .noise) ∧ t.status.err = 0 ∧ t.noiseDraws = s.noiseDraws + 4 * count s)

/-- A guarded command takes the draws of its success. -/
theorem takesDraws_guardRegions {i : Instr} {s ok : State} (h : TakesDraws i s ok) :
    TakesDraws i s (s.guardRegions i ok) := by
  rcases guardRegions_draws s i ok with hsame | heq
  · exact .inl hsame
  · rwa [heq]

theorem takesDraws_noiseOk (s : State) : TakesDraws .noise s (noiseOk s) := by
  unfold noiseOk
  dsimp only
  split
  · exact .inr ⟨.inr rfl, rfl, rfl⟩
  · exact .inl rfl

theorem exec_draws {i : Instr} {s t : State} (h : exec i s = .next t) : TakesDraws i s t := by
  cases i with
  | enc | dec | xtalk | rdnp | vobf | eccadd =>
    cases h
    exact takesDraws_guardRegions (.inl rfl)
  | decn =>
    cases h
    exact takesDraws_guardRegions (.inr ⟨.inl rfl, rfl, rfl⟩)
  | noise =>
    cases h
    split
    · exact .inl rfl
    · exact takesDraws_guardRegions (takesDraws_noiseOk s)
  | eccrec surface =>
    cases h
    split
    · exact .inl rfl
    · refine takesDraws_guardRegions (.inl ?_)
      unfold eccrecOk
      dsimp only
      split_ifs <;> rfl

/-! ### Noninterference -/

/-- The buffer m agrees with the state's on the command's sources. -/
def AgreesOnSources (i : Instr) (s : State) (m : Memory) : Prop :=
  ∀ r ∈ sources i s, ∀ x, r.start ≤ x → x < r.start + r.extent → Memory.byteAt m x = Memory.byteAt s.mem x

section
variable {i : Instr} {s : State} {m : Memory} {a n : Nat}

theorem read_of_agrees (h : AgreesOnSources i s m) (hr : ⟨a, n⟩ ∈ sources i s) :
    Memory.read m a n = Memory.read s.mem a n :=
  Memory.read_congr _ _ _ _ fun x hx => h _ hr _ (Nat.le_add_right a x) (Nat.add_lt_add_left hx a)

theorem voxels_of_agrees (h : AgreesOnSources i s m) (hr : ⟨a, 16 * n⟩ ∈ sources i s) :
    Memory.voxels m a n = Memory.voxels s.mem a n :=
  Memory.voxels_congr _ _ _ _ fun x hx => h _ hr _ (Nat.le_add_right a x) (Nat.add_lt_add_left hx a)

end

/-- Two completions of one command give the same STATUS, DST_LEN and draws, and the same output bytes where the command
writes. -/
def SameResult (i : Instr) (s t t' : State) : Prop :=
  t'.status = t.status ∧ t'.dstLen = t.dstLen ∧ t'.noiseDraws = t.noiseDraws ∧
    ∀ d, destination i s = some d → t.status.err = 0 ∨ (t.status.err = 6 ∧ i = .eccrec true) →
      ∀ x, d.start ≤ x → x < d.start + d.extent → Memory.byteAt t'.mem x = Memory.byteAt t.mem x

section
variable {i : Instr} {s : State} {m : Memory}

/-- Completions with one error that writes nothing. -/
theorem sameResult_complete {c : Code} (hok : c ≠ .ok) (hsurface : ¬ (c = .eccIntegrity ∧ i = .eccrec true)) :
    SameResult i s (s.complete c) ((s.setMem m).complete c) := by
  refine ⟨rfl, rfl, rfl, fun d _ hwrites => ?_⟩
  rcases hwrites with hzero | ⟨hsix, hi⟩
  · exact absurd (Code.bits_injective c .ok hzero) hok
  · exact absurd ⟨Code.bits_injective c .eccIntegrity hsix, hi⟩ hsurface

/-- The region checks do not look at BUF. -/
theorem sameResult_guardRegions {ok ok' : State} (h : SameResult i s ok ok') :
    SameResult i s (s.guardRegions i ok) ((s.setMem m).guardRegions i ok') := by
  have hsame : regionError i (s.setMem m) = regionError i s := by cases i <;> rfl
  rcases guardRegions_cases s i ok with ⟨hnone, heq⟩ | ⟨c, hc, hsome, heq⟩
  · rwa [heq, guardRegions_ok _ _ _ (hsame.trans hnone)]
  · rw [heq, guardRegions_error _ (hsame.trans hsome)]
    exact sameResult_complete (by rcases hc with rfl | rfl <;> decide) (by rcases hc with rfl | rfl <;> simp)

/-- Completions that fill the destination region with the same bytes. -/
theorem sameResult_bytes {u u' : State} {bytes bytes' : List Byte} {a e n : Nat} {c : Code}
    (hstatus : u'.status = u.status) (hdraws : u'.noiseDraws = u.noiseDraws) (hd : destination i s = some ⟨a, e⟩)
    (heq : bytes' = bytes) (hlen : bytes.length = e) :
    SameResult i s (u.finish (Memory.write s.mem a bytes) n c) (u'.finish (Memory.write m a bytes') n c) := by
  subst heq
  refine ⟨by simp [hstatus], rfl, hdraws, fun d hd' _ x hlow hhigh => ?_⟩
  obtain rfl : (⟨a, e⟩ : Region) = d := Option.some.inj (hd.symm.trans hd')
  obtain ⟨x, rfl⟩ := Nat.exists_eq_add_of_le hlow
  have hx : x < e := Nat.lt_of_add_lt_add_left hhigh
  exact ((write_effect m a hlen).1 x hx).trans ((write_effect s.mem a hlen).1 x hx).symm

/-- Completions that fill the destination region with the same records. -/
theorem sameResult_records {u u' : State} {vs vs' : List Voxel} {a e n : Nat} {c : Code}
    (hstatus : u'.status = u.status) (hdraws : u'.noiseDraws = u.noiseDraws) (hd : destination i s = some ⟨a, e⟩)
    (heq : vs' = vs) (hlen : 16 * vs.length = e) :
    SameResult i s (u.finish (Memory.voxWriteAll s.mem a vs) n c) (u'.finish (Memory.voxWriteAll m a vs') n c) := by
  rw [Memory.voxWriteAll_eq, Memory.voxWriteAll_eq]
  exact sameResult_bytes hstatus hdraws hd (by rw [heq]) (by rw [Voxel.flatMap_bytes_length, hlen])

end

/-- NOISE past its checks: the amplitude decides between a copy and a perturbation of the same records. -/
theorem sameResult_noiseOk {s : State} {m : Memory}
    (hread : Memory.voxels m s.srcAt s.srcCount = Memory.voxels s.mem s.srcAt s.srcCount) :
    SameResult .noise s (noiseOk s) (noiseOk (s.setMem m)) := by
  have copy : SameResult .noise s s.copyRecords (s.setMem m).copyRecords :=
    sameResult_records rfl rfl rfl hread (by simp)
  cases hpos : positiveAmplitude s.param with
  | false =>
    simp only [noiseOk, State.setMem_param, hpos]
    exact copy
  | true =>
    cases hbw : wavelengthBound s.param with
    | none =>
      simp only [noiseOk, State.setMem_param, hpos, hbw]
      exact copy
    | some bw =>
      simp only [noiseOk, State.setMem_param, hpos, hbw]
      exact sameResult_records rfl rfl rfl
        (congrArg (noisyVoxels (amplitudeBounds s.param bw) s.noiseDraws) hread) (by simp)

/-- ECCREC past its checks, in one equation (43_ecc.md R185, 60_exceptions.md R206). -/
theorem eccrecOk_eq (surface : Bool) (s : State) :
    eccrecOk surface s =
      if intact s.cfg (recShardSize (count s)) s.eccInput = true then
        s.finish (Memory.write s.mem (dst s) s.recovered) (10 * recShardSize (count s)) .ok
      else if surface = true then
        s.finish (Memory.write s.mem (dst s) s.recovered) (10 * recShardSize (count s)) .eccIntegrity
      else s.complete .eccIntegrity := rfl

/-- ECCREC past its checks, on a length that is a multiple of 14: Verify sees the same bytes. -/
theorem sameResult_eccrecOk {s : State} {m : Memory} (surface : Bool) (hlen : count s % 14 = 0)
    (hread : Memory.read m s.srcAt s.srcCount = s.eccInput) :
    SameResult (.eccrec surface) s (eccrecOk surface s) (eccrecOk surface (s.setMem m)) := by
  have hinput : (s.setMem m).eccInput = s.eccInput := hread
  have hd : destination (.eccrec surface) s = some ⟨dst s, 10 * (count s / 14)⟩ := if_pos hlen
  have output (n : Nat) (c : Code) :
      SameResult (.eccrec surface) s (s.finish (Memory.write s.mem (dst s) s.recovered) n c)
        ((s.setMem m).finish (Memory.write m (dst s) (s.setMem m).recovered) n c) :=
    sameResult_bytes rfl rfl hd (by rw [State.recovered, State.recovered, hinput]; rfl) s.recovered_length
  have hverify : intact (s.setMem m).cfg (recShardSize (count (s.setMem m))) (s.setMem m).eccInput =
      intact s.cfg (recShardSize (count s)) s.eccInput := by rw [hinput]; rfl
  rw [eccrecOk_eq, eccrecOk_eq, hverify]
  split_ifs with hintact hsurface
  · exact output _ _
  · exact output _ _
  · exact sameResult_complete (by decide) (by simp [hsurface])

theorem exec_sameResult {i : Instr} {s t t' : State} {m : Memory} (hagree : AgreesOnSources i s m)
    (h : exec i s = .next t) (h' : exec i (s.setMem m) = .next t') : SameResult i s t t' := by
  cases i with
  | enc =>
    have hread := read_of_agrees (a := s.srcAt) (n := s.srcCount) hagree (by simp [sources])
    cases h
    cases h'
    exact sameResult_guardRegions (sameResult_records rfl rfl rfl (congrArg (List.map encodeByte) hread) (by simp))
  | dec =>
    have hread := voxels_of_agrees (a := s.srcAt) (n := s.srcCount) hagree (by simp [sources])
    cases h
    cases h'
    exact sameResult_guardRegions (sameResult_bytes rfl rfl rfl (congrArg (List.map decodeVoxel) hread) (by simp))
  | decn =>
    have hread := voxels_of_agrees (a := s.srcAt) (n := s.srcCount) hagree (by simp [sources])
    cases h
    cases h'
    exact sameResult_guardRegions (sameResult_bytes rfl rfl rfl
      (congrArg (fun vs => (noisyVoxels decodeBounds s.noiseDraws vs).map decodeVoxel) hread) (by simp))
  | noise =>
    have hread := voxels_of_agrees (a := s.srcAt) (n := s.srcCount) hagree (by simp [sources])
    cases h
    cases h'
    by_cases hbad : badAmplitude s.param = true
    · rw [State.setMem_param, if_pos hbad, if_pos hbad]
      exact sameResult_complete (by decide) (by simp)
    · rw [State.setMem_param, if_neg hbad, if_neg hbad]
      exact sameResult_guardRegions (sameResult_noiseOk hread)
  | xtalk =>
    have hread := voxels_of_agrees (a := s.srcAt) (n := s.srcCount) hagree (by simp [sources])
    cases h
    cases h'
    exact sameResult_guardRegions (sameResult_records rfl rfl rfl
      (congrArg (crosstalk s.param s.width s.height) hread) (by simp))
  | rdnp =>
    have hread := voxels_of_agrees (a := s.srcAt) (n := s.srcCount) hagree (by simp [sources])
    cases h
    cases h'
    exact sameResult_guardRegions (sameResult_bytes rfl rfl rfl (congrArg (List.map probeVoxel) hread) (by simp))
  | vobf =>
    have hvoxels := voxels_of_agrees (a := s.srcAt) (n := s.srcCount) hagree (by simp [sources])
    have hbytes := read_of_agrees (a := s.src2At) (n := s.src2Count) hagree (by simp [sources])
    have hdiffers : probeDiffers (s.setMem m) = probeDiffers s :=
      congrArg₂ (fun (vs : List Voxel) (bs : List Byte) => s.srcCount != s.src2Count || vs.map probeVoxel != bs)
        hvoxels hbytes
    cases h
    cases h'
    refine sameResult_guardRegions ⟨?_, rfl, rfl, fun d hd => nomatch hd⟩
    rw [hdiffers]
    rfl
  | eccadd =>
    have hread := read_of_agrees (a := s.srcAt) (n := s.srcCount) hagree (by simp [sources])
    cases h
    cases h'
    exact sameResult_guardRegions (sameResult_bytes rfl rfl rfl (congrArg (protect s.cfg) hread)
      (by rw [protect_length, Memory.read_length]))
  | eccrec surface =>
    have hread := read_of_agrees (a := s.srcAt) (n := s.srcCount) hagree (by simp [sources])
    by_cases hlen : count s % 14 = 0
    · rw [exec_eccrec_of_length surface hlen] at h
      rw [exec_eccrec_of_length (s := s.setMem m) surface hlen] at h'
      cases h
      cases h'
      exact sameResult_guardRegions (sameResult_eccrecOk surface hlen hread)
    · rw [exec_eccrec_of_badLength surface hlen] at h
      rw [exec_eccrec_of_badLength (s := s.setMem m) surface hlen] at h'
      cases h
      cases h'
      exact sameResult_complete (by decide) (by simp)

end Sys2Proof.Machine

namespace Sys2Proof.Proofs

open Sys2Proof.Machine Sys2Proof.Spec

/-- Settles O40 (`exec_done`, `exec_frame`, `exec_draws`). -/
theorem commandFrame : Obligations.CommandFrame := by
  intro i s
  obtain ⟨t, hexec, _⟩ := exec_cases i s
  obtain ⟨_, hbusy, hdone, _⟩ := exec_done i s t hexec
  obtain ⟨hrest, hnone, hsome⟩ := exec_frame hexec
  exact ⟨t, hexec, hrest, hbusy, hdone, hnone, hsome, exec_draws hexec⟩

/-- Settles O41 (`exec_sameResult`). -/
theorem commandReadsOnlySources : Obligations.CommandReadsOnlySources :=
  fun _ _ _ _ _ hagree hexec hexec' => exec_sameResult hagree hexec hexec'

end Sys2Proof.Proofs
end

section
/-! The assembler's lines (30_encoding.md R96, R97): the operand writes, the CMD write, the completion and the WAIT, one
step each. -/

namespace Sys2Proof.Machine

open Sys2Proof.Spec

theorem runSteps_succ {s t : State} (h : step s = .next t) (k : Nat) : runSteps (k + 1) s = runSteps k t := by
  simp only [runSteps, h]

/-! ### WAIT -/

theorem step_wait {s : State} {rest : List HostOp} (h : HostDoes s .wait rest) :
    step s = .next ((s.takeTurn.setProg (if s.status.busy then .wait :: rest else rest)).hostRegRead 0x04) :=
  step_host s _ _ h.1 h.2

/-- A WAIT that reads BUSY = 1 stays in the program (30_encoding.md R96). -/
theorem step_wait_of_busy {s : State} {rest : List HostOp} (h : HostDoes s .wait rest) (hb : s.status.busy = true) :
    step s = .next { s with sched := s.sched.tail, reads := s.status.word.toNat :: s.reads } := by
  rw [step_wait h, if_pos hb, ← h.2, State.hostRegRead_of_busy (s.takeTurn.setProg s.prog) _ hb]
  rfl

/-- A STATUS read of an idle block synchronises the host (10_state.md R36). -/
theorem State.hostRegRead_status_of_idle (s : State) (hb : s.status.busy = false) :
    s.hostRegRead 0x04 = { s.noteRead s.status.word.toNat with unsynced := false } := by
  rw [State.hostRegRead, hb]
  exact congrArg (fun b => { s.noteRead s.status.word.toNat with unsynced := b }) (Bool.and_false _)

/-- A WAIT that reads BUSY = 0 ends and synchronises (30_encoding.md R96, 70_reset_and_hazards.md R235). -/
theorem step_wait_of_idle {s : State} {rest : List HostOp} (h : HostDoes s .wait rest) (hb : s.status.busy = false) :
    step s = .next { s with
      sched := s.sched.tail, prog := rest, reads := s.status.word.toNat :: s.reads, unsynced := false } := by
  have hnot : ¬ s.status.busy = true := by rw [hb]; decide
  rw [step_wait h, if_neg hnot, State.hostRegRead_status_of_idle (s.takeTurn.setProg rest) hb]
  rfl

/-! ### Operand writes -/

/-- The state after an idle block's register writes. -/
def State.afterWrites (s : State) (ws : List (Reg × Word)) : State :=
  ws.foldl (fun u w => u.regWriteIdle w.1.offset w.2) s

/-- No write goes to CMD. -/
abbrev OperandsOnly (ws : List (Reg × Word)) : Prop := ws.all (fun w => w.1 != .CMD) = true

theorem State.regWriteIdle_setProg (s : State) (ops : List HostOp) (off : Nat) (v : Word) :
    (s.setProg ops).regWriteIdle off v = (s.regWriteIdle off v).setProg ops := by
  simp only [State.regWriteIdle, apply_ite (fun u : State => u.setProg ops)]
  rfl

theorem State.afterWrites_setProg (s : State) (ops : List HostOp) (ws : List (Reg × Word)) :
    (s.setProg ops).afterWrites ws = (s.afterWrites ws).setProg ops := by
  induction ws generalizing s with
  | nil => rfl
  | cons w ws ih => exact (congrArg (State.afterWrites · ws) (s.regWriteIdle_setProg ops _ _)).trans (ih _)

theorem Reg.offset_eq_zero_iff (r : Reg) : r.offset = 0x00 ↔ r = .CMD := by
  cases r <;> decide

/-- Writes to any register but CMD leave the block idle, the schedule and the parameters. -/
theorem State.afterWrites_keeps (s : State) (ws : List (Reg × Word)) (hops : OperandsOnly ws) :
    (s.afterWrites ws).status = s.status ∧ (s.afterWrites ws).sched = s.sched ∧ (s.afterWrites ws).cfg = s.cfg := by
  induction ws generalizing s with
  | nil => exact ⟨rfl, rfl, rfl⟩
  | cons w ws ih =>
    rw [OperandsOnly, List.all_cons, Bool.and_eq_true, bne_iff_ne] at hops
    have hoff : w.1.offset ≠ 0x00 := (Reg.offset_eq_zero_iff _).not.2 hops.1
    obtain ⟨_, _, _, _, _, _, _, _, heq⟩ := s.regWriteIdle_operands w.2 hoff
    obtain ⟨hstatus, hsched, hcfg⟩ := ih (s.regWriteIdle w.1.offset w.2) hops.2
    refine ⟨hstatus.trans ?_, hsched.trans ?_, hcfg.trans ?_⟩ <;> rw [heq]

/-- Each of an idle block's register writes is one step. -/
theorem runSteps_writes (ws : List (Reg × Word)) {s : State} {tail : List HostOp} (hops : OperandsOnly ws)
    (hb : s.status.busy = false) (hsched : s.sched = [])
    (hprog : s.prog = (ws.map fun w => writeReg s.cfg w.1 w.2) ++ tail) (k : Nat) :
    runSteps (k + ws.length) s = runSteps k ((s.afterWrites ws).setProg tail) := by
  induction ws generalizing s with
  | nil =>
    have hself : s.setProg tail = s := by
      rw [State.setProg, ← show s.prog = tail from hprog]
    rw [State.afterWrites, List.foldl_nil, hself, List.length_nil, Nat.add_zero]
  | cons w ws ih =>
    rw [OperandsOnly, List.all_cons, Bool.and_eq_true] at hops
    obtain ⟨hw, hrest⟩ := hops
    have hstep := step_writeReg s _ w.1 w.2 _ hb hsched hprog (s.regWriteIdle_setProg _ _ _)
    obtain ⟨hstatus, hsched', hcfg⟩ := s.afterWrites_keeps [w] (by simpa using hw)
    rw [List.length_cons, ← Nat.add_assoc, runSteps_succ hstep, ih hrest]
    · rw [State.afterWrites_setProg]
      rfl
    · exact (congrArg Status.busy hstatus).trans hb
    · exact hsched'.trans hsched
    · exact (congrArg (fun p => (ws.map fun w => writeReg p w.1 w.2) ++ tail) hcfg).symm

/-! ### Lines -/

/-- The CMD write, the completion and the WAIT of an idle block run the command in three steps (30_encoding.md R97). -/
theorem lineRuns_run {s : State} {i : Instr} {rest : List HostOp} (hb : s.status.busy = false) (hsched : s.sched = [])
    (hprog : s.prog = run s.cfg i ++ rest) : LineRuns s s i 3 rest := by
  have hissue := step_writeReg s ((s.setProg (.wait :: rest)).issue (encode i)) .CMD (encode i) (.wait :: rest) hb
    hsched hprog rfl
  obtain ⟨t, hexec, _⟩ := exec_cases i ((s.setProg (.wait :: rest)).issue (encode i))
  obtain ⟨_, hidle, _, hsched', hprog'⟩ := exec_done i _ t hexec
  have hcomplete : step ((s.setProg (.wait :: rest)).issue (encode i)) = .next t := by
    have hturn : ((s.setProg (.wait :: rest)).issue (encode i)).turn = .block := by simp [State.turn, hsched]
    have hself : ((s.setProg (.wait :: rest)).issue (encode i)).takeTurn = _ := State.takeTurn_eq_self hsched
    rw [step_block_ok _ i hturn rfl (decode_encode i), hself, hexec]
  have hsched'' : t.sched = [] := hsched'.trans hsched
  have hwait := step_wait_of_idle (s := t) ⟨State.turn_host hidle hsched'', hprog'⟩ hidle
  refine ⟨t, hexec, ?_⟩
  rw [runSteps_succ hissue, runSteps_succ hcomplete, runSteps_succ hwait, hsched'']
  rfl

/-- A line is its operand writes and the run of its command (30_encoding.md R97). -/
theorem lineRuns_of_writes (ws : List (Reg × Word)) {s ready : State} {i : Instr} {rest : List HostOp}
    (hops : OperandsOnly ws) (hb : s.status.busy = false) (hsched : s.sched = [])
    (hprog : s.prog = (ws.map fun w => writeReg s.cfg w.1 w.2) ++ (run s.cfg i ++ rest))
    (hready : s.afterWrites ws = ready) : LineRuns s ready i (3 + ws.length) rest := by
  subst hready
  obtain ⟨hstatus, hsched', hcfg⟩ := s.afterWrites_keeps ws hops
  obtain ⟨t, hexec, hrun⟩ := lineRuns_run (s := (s.afterWrites ws).setProg (run s.cfg i ++ rest)) (i := i)
    (rest := rest) ((congrArg Status.busy hstatus).trans hb) (hsched'.trans hsched)
    (by rw [State.setProg_prog, State.setProg_cfg, hcfg])
  exact ⟨t, hexec, (runSteps_writes ws hops hb hsched hprog 3).trans hrun⟩

end Sys2Proof.Machine

namespace Sys2Proof.Proofs

open Sys2Proof.Machine Sys2Proof.Spec

/-- Settles O23: each line's expansion is a list of operand writes and the run of its command (`lineRuns_of_writes`);
a WAIT is one step (`step_wait_of_busy`, `step_wait_of_idle`). -/
theorem assembledLineRunsItsCommand : Obligations.AssembledLineRunsItsCommand := by
  refine ⟨fun s d a n l i rest hmem hb hsched hprog => ?_, fun s d a n p rest hb hsched hprog => ?_,
    fun s d a n w h k rest hb hsched hprog => ?_, fun s a n b m rest hb hsched hprog => ?_,
    fun s rest h => ⟨step_wait_of_busy h, step_wait_of_idle h⟩⟩
  · refine lineRuns_of_writes [(.SRC_ADDR, a), (.SRC_LEN, n), (.DST_ADDR, d)] rfl hb hsched ?_ rfl
    simp only [List.mem_cons, List.not_mem_nil, or_false, Prod.mk.injEq] at hmem
    rcases hmem with ⟨rfl, rfl⟩ | ⟨rfl, rfl⟩ | ⟨rfl, rfl⟩ | ⟨rfl, rfl⟩ | ⟨rfl, rfl⟩ | ⟨rfl, rfl⟩ | ⟨rfl, rfl⟩ <;>
      exact hprog
  · exact lineRuns_of_writes [(.SRC_ADDR, a), (.SRC_LEN, n), (.DST_ADDR, d), (.PARAM, p)] rfl hb hsched hprog rfl
  · exact lineRuns_of_writes
      [(.SRC_ADDR, a), (.SRC_LEN, n), (.DST_ADDR, d), (.GEOM_W, w), (.GEOM_H, h), (.PARAM, k)] rfl hb hsched
      hprog rfl
  · exact lineRuns_of_writes [(.SRC_ADDR, a), (.SRC_LEN, n), (.SRC2_ADDR, b), (.SRC2_LEN, m)] rfl hb hsched
      hprog rfl

end Sys2Proof.Proofs
end

section
/-! The neighbours of a lattice cell in flat terms (41_noise_crosstalk.md R154, R155): a cell exists when its
coordinates are inside the lattice and its index is below the length, and a step in one coordinate moves the index by
a constant. -/

namespace Sys2Proof.Machine

/-- What is kept of a list, as one list of at most one entry for each element. -/
theorem map_filter_eq_flatMap {α β : Type} (f : α → β) (p : α → Bool) (l : List α) :
    (l.filter p).map f = l.flatMap fun c => if p c = true then [f c] else [] := by
  induction l with
  | nil => rfl
  | cons c l ih =>
    rw [List.filter_cons, List.flatMap_cons, ← ih]
    split <;> rfl

section
variable {wd ht n : Nat} (hwd : 0 < wd) (hht : 0 < ht)

include hwd hht in
/-- A plane that starts below the length is within the depth (41_noise_crosstalk.md R154). -/
theorem lt_latticeDepth {z : Nat} (h : wd * ht * z < n) : z < latticeDepth wd ht n := by
  have hplane : 0 < wd * ht := Nat.mul_pos hwd hht
  rw [latticeDepth, Nat.lt_iff_add_one_le, Nat.le_div_iff_mul_le hplane, Nat.add_one_mul, Nat.mul_comm z]
  omega

include hwd hht in
/-- The depth adds nothing to the condition on the index. -/
theorem cellExists_iff (x y z : Int) :
    cellExists wd ht n ⟨x, y, z⟩ = true ↔
      (0 ≤ x ∧ x < wd) ∧ (0 ≤ y ∧ y < ht) ∧ 0 ≤ z ∧ cellIndex wd ht ⟨x, y, z⟩ < n := by
  simp only [cellExists, Bool.and_eq_true, decide_eq_true_eq]
  constructor
  · rintro ⟨⟨⟨⟨⟨⟨h1, h2⟩, h3⟩, h4⟩, h5⟩, _⟩, h7⟩
    exact ⟨⟨h1, h2⟩, ⟨h3, h4⟩, h5, h7⟩
  · rintro ⟨⟨h1, h2⟩, ⟨h3, h4⟩, h5, h7⟩
    refine ⟨⟨⟨⟨⟨⟨h1, h2⟩, h3⟩, h4⟩, h5⟩, ?_⟩, h7⟩
    obtain ⟨k, rfl⟩ := Int.eq_ofNat_of_zero_le h5
    have hrow : (0 : Int) ≤ wd * y := by positivity
    have hplane : (wd * ht * k : Int) < n := by
      rw [cellIndex] at h7
      dsimp only at h7
      omega
    exact_mod_cast lt_latticeDepth hwd hht (by exact_mod_cast hplane)

/-- The cell's index in flat terms. -/
theorem cellIndex_cellOf (i : Nat) : cellIndex wd ht (cellOf wd ht i) = i := by
  have hflat : i % wd + wd * (i / wd % ht) + wd * ht * (i / (wd * ht)) = i := by
    have hrow := Nat.mod_add_div i wd
    have hplane := Nat.mod_add_div (i / wd) ht
    rw [Nat.div_div_eq_div_mul] at hplane
    calc i % wd + wd * (i / wd % ht) + wd * ht * (i / (wd * ht))
      _ = i % wd + wd * (i / wd % ht + ht * (i / (wd * ht))) := by ring
      _ = i := by rw [hplane, hrow]
  rw [cellIndex, cellOf]
  dsimp only
  exact_mod_cast hflat

include hwd hht in
/-- One of the six cells, kept where it exists: its index k as j, and its existence as P. -/
theorem keptCell_eq {x y z k : Int} {j : Nat} {P : Prop} [Decidable P] (hindex : cellIndex wd ht ⟨x, y, z⟩ = k)
    (hj : k.toNat = j) (hP : ((0 ≤ x ∧ x < wd) ∧ (0 ≤ y ∧ y < ht) ∧ 0 ≤ z ∧ k < n) ↔ P) :
    (if cellExists wd ht n ⟨x, y, z⟩ = true then [(cellIndex wd ht ⟨x, y, z⟩).toNat] else []) =
      if P then [j] else [] := by
  have hexists := cellExists_iff (n := n) hwd hht x y z
  rw [hindex, hP] at hexists
  simp only [hindex, hj, hexists]

end

end Sys2Proof.Machine

namespace Sys2Proof.Proofs

open Sys2Proof.Machine Sys2Proof.Spec

/-- Settles O52: a step of a coordinate moves the index by 1, wd or wd·ht, and the cell reached exists when it crosses
no edge and stays below the length (`keptCell_eq`). -/
theorem neighboursInOrder : Obligations.NeighboursInOrder := by
  intro wd ht n i hwd hht hi
  have hx := Nat.mod_lt i hwd
  have hy := Nat.mod_lt (i / wd) hht
  have hz : 0 < i / (wd * ht) ↔ wd * ht ≤ i := by
    rw [Nat.div_pos_iff]
    exact and_iff_right (Nat.mul_pos hwd hht)
  have hindex : ((i % wd : Nat) : Int) + wd * (i / wd % ht : Nat) + wd * ht * (i / (wd * ht) : Nat) = i :=
    cellIndex_cellOf i
  simp only [neighbours, map_filter_eq_flatMap, sixAround, cellOf, List.flatMap_cons, List.flatMap_nil,
    List.append_nil, ← List.append_assoc]
  generalize i % wd = x at *
  generalize i / wd % ht = y at *
  generalize i / (wd * ht) = z at *
  have west := keptCell_eq (n := n) hwd hht (x := x - 1) (y := y) (z := z) (k := i - 1) (j := i - 1) (P := 0 < x)
    (by rw [cellIndex]; linear_combination hindex) (by omega) (by omega)
  have east := keptCell_eq (n := n) hwd hht (x := x + 1) (y := y) (z := z) (k := i + 1) (j := i + 1)
    (P := x + 1 < wd ∧ i + 1 < n)
    (by rw [cellIndex]; linear_combination hindex) (by omega) (by omega)
  have south := keptCell_eq (n := n) hwd hht (x := x) (y := y - 1) (z := z) (k := i - wd) (j := i - wd) (P := 0 < y)
    (by rw [cellIndex]; linear_combination hindex) (by omega) (by omega)
  have north := keptCell_eq (n := n) hwd hht (x := x) (y := y + 1) (z := z) (k := i + wd) (j := i + wd)
    (P := y + 1 < ht ∧ i + wd < n)
    (by rw [cellIndex]; linear_combination hindex) (by omega) (by omega)
  have below := keptCell_eq (n := n) hwd hht (x := x) (y := y) (z := z - 1) (k := i - wd * ht)
    (j := i - wd * ht) (P := wd * ht ≤ i)
    (by rw [cellIndex]; linear_combination hindex) (by omega) (by omega)
  have above := keptCell_eq (n := n) hwd hht (x := x) (y := y) (z := z + 1) (k := i + wd * ht)
    (j := i + wd * ht) (P := i + wd * ht < n)
    (by rw [cellIndex]; linear_combination hindex) (by omega) (by omega)
  rw [west, east, south, north, below, above]

end Sys2Proof.Proofs
end

section
/-! The ring GF(2)[x]/(GF_POLY) (43_ecc.md R180): sums by exclusive or, maps that respect them, and ⊗ as the sum of the
multiples of one factor by the powers of x that the other one holds; the ring laws follow from that. -/

namespace Sys2Proof.Machine

/-! ### Sums by exclusive or -/

/-- The exclusive or of a family over a list. -/
def xorSum {w : Nat} (l : List Nat) (f : Nat → BitVec w) : BitVec w := l.foldl (fun acc i => acc ^^^ f i) 0#w

section
variable {w v : Nat} (l : List Nat) (f g : Nat → BitVec w)

theorem foldl_xor (a : BitVec w) : l.foldl (fun acc i => acc ^^^ f i) a = a ^^^ xorSum l f := by
  induction l generalizing a with
  | nil => simp [xorSum]
  | cons i l ih => rw [xorSum, List.foldl_cons, List.foldl_cons, ih, ih, BitVec.zero_xor, BitVec.xor_assoc]

@[simp] theorem xorSum_nil : xorSum [] f = 0#w := rfl

@[simp] theorem xorSum_cons (i : Nat) : xorSum (i :: l) f = f i ^^^ xorSum l f := by
  rw [xorSum, List.foldl_cons, foldl_xor, BitVec.zero_xor]

/-- A sum of sums is the sum of the sums of the terms. -/
theorem xorSum_xor : xorSum l (fun i => f i ^^^ g i) = xorSum l f ^^^ xorSum l g := by
  induction l with
  | nil => simp
  | cons i l ih =>
    simp only [xorSum_cons, ih]
    ac_rfl

theorem xorSum_congr {l : List Nat} {f g : Nat → BitVec w} (h : ∀ i ∈ l, f i = g i) : xorSum l f = xorSum l g :=
  foldl_congr_mem _ _ _ _ fun _ i hi => by rw [h i hi]

/-- A map that respects exclusive or. -/
def XorLinear (L : BitVec w → BitVec v) : Prop := ∀ a b, L (a ^^^ b) = L a ^^^ L b

end

section
variable {w v u : Nat} {L : BitVec w → BitVec v} {K : BitVec v → BitVec u}

theorem XorLinear.map_zero (h : XorLinear L) : L 0#w = 0#v := by
  have hzero := h 0#w 0#w
  rwa [BitVec.xor_self, BitVec.xor_self] at hzero

theorem XorLinear.map_ite (h : XorLinear L) (c : Bool) (a : BitVec w) :
    L (if c = true then a else 0#_) = if c = true then L a else 0#_ := by
  split
  · rfl
  · exact h.map_zero

theorem XorLinear.map_xorSum (h : XorLinear L) (l : List Nat) (f : Nat → BitVec w) :
    L (xorSum l f) = xorSum l fun i => L (f i) := by
  induction l with
  | nil => exact h.map_zero
  | cons i l ih => rw [xorSum_cons, xorSum_cons, h, ih]

theorem XorLinear.comp (hK : XorLinear K) (hL : XorLinear L) : XorLinear fun a => K (L a) := fun a b => by
  dsimp only
  rw [hL, hK]

theorem XorLinear.iterate {L : BitVec w → BitVec w} (h : XorLinear L) (n : Nat) : XorLinear L^[n] := by
  induction n with
  | zero => exact fun _ _ => rfl
  | succ n ih =>
    intro a b
    rw [Function.iterate_succ_apply', Function.iterate_succ_apply', Function.iterate_succ_apply', ih, h]

/-- Choosing a value by the exclusive or of two bits is the exclusive or of the two choices. -/
theorem ite_xor (c d : Bool) (a : BitVec w) :
    (if (c ^^ d) = true then a else 0#_) = (if c = true then a else 0#_) ^^^ (if d = true then a else 0#_) := by
  cases c <;> cases d <;> simp

end

/-! ### Reduction -/

section
variable (poly : BitVec 9)

theorem gfReduceStep_eq (p : BitVec 16) (i : Nat) :
    gfReduceStep poly p i = p ^^^ (if p.getLsbD (8 + i) = true then poly.zeroExtend 16 <<< i else 0#_) := by
  unfold gfReduceStep
  split <;> simp

theorem gfReduceStep_linear (i : Nat) : XorLinear fun p => gfReduceStep poly p i := fun a b => by
  simp only [gfReduceStep_eq, BitVec.getLsbD_xor, ite_xor]
  ac_rfl

theorem foldl_gfReduceStep_linear (js : List Nat) : XorLinear fun p => js.foldl (gfReduceStep poly) p := by
  induction js with
  | nil => exact fun _ _ => rfl
  | cons j js ih => exact ih.comp (gfReduceStep_linear poly j)

theorem truncate_linear : XorLinear fun p : BitVec 16 => p.truncate 8 := fun _ _ => BitVec.setWidth_xor

theorem gfReduce_linear : XorLinear (gfReduce poly) :=
  truncate_linear.comp (foldl_gfReduceStep_linear poly [7, 6, 5, 4, 3, 2, 1, 0])

/-- Nothing is left to reduce below x^8. -/
theorem gfReduce_of_low {p : BitVec 16} (h : ∀ k, 8 ≤ k → p.getLsbD k = false) :
    gfReduce poly p = p.truncate 8 := by
  have hstep (i : Nat) : gfReduceStep poly p i = p := by
    rw [gfReduceStep, h (8 + i) (by omega)]
    rfl
  simp only [gfReduce, List.foldl_cons, List.foldl_nil, hstep]

/-- Reducing one degree higher commutes with the multiplication by x. -/
theorem gfReduceStep_shift {p : BitVec 16} {i : Nat} (hi : i < 7) :
    gfReduceStep poly (p <<< 1) (i + 1) = gfReduceStep poly p i <<< 1 := by
  have hbit : (p <<< 1).getLsbD (8 + (i + 1)) = p.getLsbD (8 + i) := by
    rw [BitVec.getLsbD_shiftLeft]
    simp [show 8 + (i + 1) < 16 by omega, show 8 + (i + 1) - 1 = 8 + i by omega]
  rw [gfReduceStep_eq, gfReduceStep_eq, hbit, BitVec.shiftLeft_xor_distrib]
  split
  · rw [← BitVec.shiftLeft_add]
  · simp

theorem foldl_gfReduceStep_shift {p : BitVec 16} {js : List Nat} (hjs : ∀ j ∈ js, j < 7) :
    (js.map (· + 1)).foldl (gfReduceStep poly) (p <<< 1) = js.foldl (gfReduceStep poly) p <<< 1 := by
  induction js generalizing p with
  | nil => rfl
  | cons j js ih =>
    rw [List.map_cons, List.foldl_cons, List.foldl_cons, gfReduceStep_shift poly (hjs j (by simp))]
    exact ih fun i hi => hjs i (by simp [hi])

/-- The multiplication by x (43_ecc.md R180). -/
def timesX (a : Byte) : Byte := (a <<< 1) ^^^ (if a.getLsbD 7 = true then poly.truncate 8 else 0#_)

theorem timesX_linear : XorLinear (timesX poly) := fun a b => by
  simp only [timesX, BitVec.getLsbD_xor, ite_xor, BitVec.shiftLeft_xor_distrib]
  ac_rfl

/-- The last reduction step of a polynomial moved up by one degree is the multiplication by x. -/
theorem truncate_gfReduceStep_zero (r : BitVec 16) :
    (gfReduceStep poly (r <<< 1) 0).truncate 8 = timesX poly (r.truncate 8) := by
  have hbit : (r <<< 1).getLsbD (8 + 0) = r.getLsbD 7 := by simp
  have hbit' : (r.truncate 8).getLsbD 7 = r.getLsbD 7 := by simp [BitVec.truncate]
  rw [gfReduceStep_eq, timesX, hbit, hbit']
  apply BitVec.eq_of_getLsbD_eq
  intro k hk
  split <;> simp [BitVec.truncate, hk]

/-- Below x^15 a polynomial times x reduces to its remainder times x. -/
theorem gfReduce_shift {p : BitVec 16} (h : p.getLsbD 15 = false) :
    gfReduce poly (p <<< 1) = timesX poly (gfReduce poly p) := by
  have htop : gfReduceStep poly p 7 = p := by
    rw [gfReduceStep, h]
    rfl
  have hreduce : gfReduce poly p = ([6, 5, 4, 3, 2, 1, 0].foldl (gfReduceStep poly) p).truncate 8 := by
    rw [gfReduce, List.foldl_cons, htop]
  have hshift := foldl_gfReduceStep_shift poly (p := p) (js := [6, 5, 4, 3, 2, 1, 0]) (by decide)
  calc gfReduce poly (p <<< 1)
    _ = (gfReduceStep poly ([6, 5, 4, 3, 2, 1, 0].foldl (gfReduceStep poly) p <<< 1) 0).truncate 8 := by
      rw [← hshift]
      rfl
    _ = timesX poly (gfReduce poly p) := by rw [truncate_gfReduceStep_zero, hreduce]

/-- A byte times x^i, i below 8, reduces to i multiplications by x. -/
theorem gfReduce_zeroExtend_shift (a : Byte) {i : Nat} (hi : i < 8) :
    gfReduce poly (a.zeroExtend 16 <<< i) = (timesX poly)^[i] a := by
  induction i with
  | zero =>
    rw [BitVec.shiftLeft_zero, gfReduce_of_low]
    · simp [BitVec.truncate, BitVec.zeroExtend]
    · intro k hk
      simp [BitVec.zeroExtend, BitVec.getLsbD_of_ge a k hk]
  | succ i ih =>
    rw [BitVec.shiftLeft_add, gfReduce_shift, ih (by omega), Function.iterate_succ_apply']
    simp only [BitVec.getLsbD_shiftLeft, BitVec.zeroExtend, BitVec.getLsbD_setWidth]
    rw [BitVec.getLsbD_of_ge a _ (by omega)]
    simp

/-! ### Multiplication -/

/-- The carry-less product as a sum. -/
theorem clmul_eq (a b : Byte) :
    clmul a b = xorSum (List.range 8) fun i => if b.getLsbD i = true then a.zeroExtend 16 <<< i else 0#_ := by
  refine foldl_congr_mem _ _ _ _ fun acc i _ => ?_
  dsimp only
  cases b.getLsbD i <;> simp

/-- a ⊗ b is the sum of a · x^i over the bits i of b. -/
theorem gfMul_eq (a b : Byte) :
    gfMul poly a b = xorSum (List.range 8) fun i => if b.getLsbD i = true then (timesX poly)^[i] a else 0#_ := by
  rw [gfMul, clmul_eq, (gfReduce_linear poly).map_xorSum]
  refine xorSum_congr fun i hi => ?_
  rw [(gfReduce_linear poly).map_ite, gfReduce_zeroExtend_shift poly a (List.mem_range.1 hi)]

theorem gfMul_linear_left (b : Byte) : XorLinear fun a => gfMul poly a b := fun a a' => by
  simp only [gfMul_eq, ← xorSum_xor]
  refine xorSum_congr fun i _ => ?_
  split
  · exact (timesX_linear poly).iterate i a a'
  · simp

theorem gfMul_linear_right (a : Byte) : XorLinear (gfMul poly a) := fun b b' => by
  simp only [gfMul_eq, ← xorSum_xor, BitVec.getLsbD_xor, ite_xor]

theorem gfMul_iterate_left (a b : Byte) (n : Nat) :
    gfMul poly ((timesX poly)^[n] a) b = (timesX poly)^[n] (gfMul poly a b) := by
  rw [gfMul_eq, gfMul_eq, ((timesX_linear poly).iterate n).map_xorSum]
  refine xorSum_congr fun i _ => ?_
  rw [((timesX_linear poly).iterate n).map_ite, ← Function.iterate_add_apply, ← Function.iterate_add_apply,
    Nat.add_comm]

/-- The powers of x below x^8 are bytes with one bit. -/
theorem timesX_iterate_one {i : Nat} (hi : i < 8) : (timesX poly)^[i] 1 = 1 <<< i := by
  rw [← gfReduce_zeroExtend_shift poly 1 hi, gfReduce_of_low]
  · interval_cases i <;> rfl
  · intro k hk
    simp only [BitVec.getLsbD_shiftLeft, BitVec.zeroExtend, BitVec.getLsbD_setWidth]
    simp [BitVec.getLsbD_one, show k - i ≠ 0 by omega]

/-- A byte is the sum of the powers of x it holds. -/
theorem xorSum_bits : ∀ a : Byte, (xorSum (List.range 8) fun i => if a.getLsbD i = true then 1 <<< i else 0#_) = a := by
  decide

theorem gfMul_one_left (a : Byte) : gfMul poly 1 a = a := by
  rw [gfMul_eq]
  refine Eq.trans (xorSum_congr fun i hi => ?_) (xorSum_bits a)
  rw [timesX_iterate_one poly (List.mem_range.1 hi)]

/-- Summing the multiples of b by the powers of x that a holds gives a ⊗ b too. -/
theorem gfMul_comm (a b : Byte) : gfMul poly a b = gfMul poly b a := by
  have hpowers : a = xorSum (List.range 8) fun i => if a.getLsbD i = true then (timesX poly)^[i] 1 else 0#_ := by
    rw [← gfMul_eq, gfMul_one_left]
  calc gfMul poly a b
    _ = xorSum (List.range 8) fun i => if a.getLsbD i = true then gfMul poly ((timesX poly)^[i] 1) b else 0#_ := by
      conv_lhs => rw [hpowers]
      rw [(gfMul_linear_left poly b).map_xorSum]
      exact xorSum_congr fun i _ => (gfMul_linear_left poly b).map_ite _ _
    _ = gfMul poly b a := by
      simp only [gfMul_iterate_left, gfMul_one_left, ← gfMul_eq]

theorem gfMul_assoc (a b c : Byte) : gfMul poly (gfMul poly a b) c = gfMul poly a (gfMul poly b c) := by
  rw [gfMul_eq poly (gfMul poly a b) c, gfMul_eq poly b c, (gfMul_linear_right poly a).map_xorSum]
  refine xorSum_congr fun i _ => ?_
  rw [(gfMul_linear_right poly a).map_ite, gfMul_comm poly a ((timesX poly)^[i] b), gfMul_iterate_left,
    gfMul_comm poly b a]

theorem gfMul_two (a : Byte) : gfMul poly 2 a = timesX poly a := by
  rw [gfMul_comm, gfMul_eq]
  simp [xorSum, List.range_succ]

end

end Sys2Proof.Machine

namespace Sys2Proof.Proofs

open Sys2Proof.Machine Sys2Proof.Spec

/-- Settles O57: ⊗ is a sum of multiples by powers of x (`gfMul_eq`), from which the ring laws follow. -/
theorem gfMultiplication : Obligations.GfMultiplication := by
  refine ⟨fun poly a b c _ => ⟨gfMul_linear_left poly c a b, gfMul_linear_right poly a b c, gfMul_comm poly a b,
    gfMul_assoc poly a b c, gfMul_one_left poly a, gfMul_two poly a⟩, ?_⟩
  decide

end Sys2Proof.Proofs
end

section
/-! The default code (43_ecc.md section 3): a byte column of an intact sequence satisfies four equations whose
coefficients are the powers of 14 different points, so a column that is not zero has at least five bytes that are not
zero (R187). Beside it, the finite check of the Vandermonde construction of RS_PARITY (R181). -/

namespace Sys2Proof.Machine

open Sys2Proof.Spec

/-! ### Sums over ranges -/

section
variable {w : Nat} (f : Nat → BitVec w)

theorem xorSum_append (l k : List Nat) : xorSum (l ++ k) f = xorSum l f ^^^ xorSum k f := by
  rw [xorSum, List.foldl_append, foldl_xor]
  rfl

theorem xorSum_map (l : List Nat) (e : Nat → Nat) : xorSum (l.map e) f = xorSum l fun i => f (e i) := by
  rw [xorSum, List.foldl_map, xorSum]

theorem xorSum_range_succ (n : Nat) : xorSum (List.range (n + 1)) f = xorSum (List.range n) f ^^^ f n := by
  rw [List.range_succ, xorSum_append, xorSum_cons, xorSum_nil, BitVec.xor_zero]

theorem xorSum_eq_zero {l : List Nat} {f : Nat → BitVec w} (h : ∀ i ∈ l, f i = 0#w) : xorSum l f = 0#w := by
  induction l with
  | nil => rfl
  | cons i l ih => rw [xorSum_cons, h i (by simp), ih fun k hk => h k (by simp [hk]), BitVec.xor_self]

/-- Two sums may be taken in either order. -/
theorem xorSum_comm (l k : List Nat) (g : Nat → Nat → BitVec w) :
    (xorSum l fun i => xorSum k (g i)) = xorSum k fun j => xorSum l fun i => g i j := by
  induction l with
  | nil => exact (xorSum_eq_zero fun _ _ => rfl).symm
  | cons i l ih => simp only [xorSum_cons, xorSum_xor, ih]

/-- A sum with one term that is not zero. -/
theorem xorSum_range_single {f : Nat → BitVec w} {n p : Nat} (hp : p < n) (h : ∀ i < n, i ≠ p → f i = 0#w) :
    xorSum (List.range n) f = f p := by
  induction n with
  | zero => omega
  | succ n ih =>
    rw [xorSum_range_succ]
    by_cases hpn : p = n
    · subst hpn
      rw [xorSum_eq_zero fun i hi => h i (by simp at hi; omega) (by simp at hi; omega), BitVec.zero_xor]
    · rw [ih (by omega) fun i hi => h i (by omega), h n (by omega) (Ne.symm hpn), BitVec.xor_zero]

end

/-! ### Factors that can be cancelled -/

section
variable {poly : BitVec 9}

theorem gfMul_commute (a b : Byte) : Function.Commute (gfMul poly a) (gfMul poly b) := fun c => by
  rw [← gfMul_assoc, ← gfMul_assoc, gfMul_comm poly a b]

theorem gfMul_iterate_assoc (a b c : Byte) (m : Nat) :
    (gfMul poly a)^[m] (gfMul poly b c) = gfMul poly ((gfMul poly a)^[m] b) c := by
  induction m with
  | zero => rfl
  | succ m ih => rw [Function.iterate_succ_apply', Function.iterate_succ_apply', ih, gfMul_assoc]

/-- A factor with an inverse can be cancelled. -/
theorem eq_zero_of_gfMul_eq_zero {a b v : Byte} (hab : gfMul poly b a = 1) (h : gfMul poly a v = 0#8) : v = 0#8 := by
  rw [← gfMul_one_left poly v, ← hab, gfMul_assoc, h, (gfMul_linear_right poly b).map_zero]

end

/-! ### Power sums over different points -/

/-- The point of shard i (43_ecc.md R181). -/
def point (i : Nat) : Byte := BitVec.ofNat 8 i

/-- The sum of the first n values of f, each times the m-th power of its point. -/
def powerSum (poly : BitVec 9) (n m : Nat) (f : Nat → Byte) : Byte :=
  xorSum (List.range n) fun i => (gfMul poly (point i))^[m] (f i)

/-- Where the first n values of f are not zero. -/
def nonzeros (n : Nat) (f : Nat → Byte) : Finset Nat := {i ∈ Finset.range n | f i ≠ 0#8}

/-- The differences of the first n points can be cancelled. -/
def PointsDiffer (poly : BitVec 9) (n : Nat) : Prop :=
  ∀ i < n, ∀ j < n, i ≠ j → ∀ v, gfMul poly (point i ^^^ point j) v = 0#8 → v = 0#8

section
variable {poly : BitVec 9} {n k p : Nat} {f : Nat → Byte}

theorem mem_nonzeros {i : Nat} : i ∈ nonzeros n f ↔ i < n ∧ f i ≠ 0#8 := by
  simp [nonzeros]

/-- Multiplying each value by the difference of its point and a fixed one combines two power sums. -/
theorem powerSum_difference (m : Nat) :
    powerSum poly n m (fun i => gfMul poly (point i ^^^ point p) (f i)) =
      powerSum poly n (m + 1) f ^^^ gfMul poly (point p) (powerSum poly n m f) := by
  unfold powerSum
  rw [(gfMul_linear_right poly (point p)).map_xorSum, ← xorSum_xor]
  refine xorSum_congr fun i _ => ?_
  rw [gfMul_linear_left poly (f i), ((gfMul_linear_right poly (point i)).iterate m),
    (gfMul_commute (point i) (point p)).iterate_left m (f i), Function.iterate_succ_apply]

/-- That multiplication makes the value at the fixed point zero. -/
theorem nonzeros_difference :
    nonzeros n (fun i => gfMul poly (point i ^^^ point p) (f i)) ⊆ (nonzeros n f).erase p := by
  intro i hi
  obtain ⟨hin, hvalue⟩ := mem_nonzeros.1 hi
  refine Finset.mem_erase.2 ⟨?_, mem_nonzeros.2 ⟨hin, ?_⟩⟩
  · rintro rfl
    rw [BitVec.xor_self] at hvalue
    exact hvalue (gfMul_linear_left poly (f i)).map_zero
  · intro hzero
    rw [hzero] at hvalue
    exact hvalue (gfMul_linear_right poly _).map_zero

/-- k power sums that are zero leave no way for at most k values to differ from zero: the Vandermonde determinant,
by induction on k. -/
theorem eq_zero_of_powerSum (hpoints : PointsDiffer poly n) (hcard : (nonzeros n f).card ≤ k)
    (hsum : ∀ m < k, powerSum poly n m f = 0#8) : ∀ i < n, f i = 0#8 := by
  induction k generalizing f with
  | zero =>
    intro i hi
    by_contra hne
    have hmem := mem_nonzeros.2 ⟨hi, hne⟩
    rw [Finset.card_eq_zero.1 (Nat.le_zero.1 hcard)] at hmem
    exact Finset.notMem_empty i hmem
  | succ k ih =>
    intro p hp
    by_contra hne
    have hcard' : (nonzeros n fun i => gfMul poly (point i ^^^ point p) (f i)).card ≤ k := by
      have hle := Finset.card_le_card (nonzeros_difference (poly := poly) (n := n) (p := p) (f := f))
      rw [Finset.card_erase_of_mem (mem_nonzeros.2 ⟨hp, hne⟩)] at hle
      omega
    have hdifference := ih hcard' fun m hm => by
      rw [powerSum_difference, hsum m (by omega), hsum (m + 1) (by omega),
        (gfMul_linear_right poly _).map_zero, BitVec.xor_self]
    have hothers (i : Nat) (hi : i < n) (hip : i ≠ p) : f i = 0#8 := hpoints i hi p hp hip _ (hdifference i hi)
    exact hne ((xorSum_range_single hp hothers).symm.trans (hsum 0 (by omega)))

end

/-! ### The check equations of the default code -/

/-- The inverses of 1 .. 15 under the default GF_POLY; the first entry stands for 0, which has none. -/
def pointInverses : List Byte :=
  [0x00, 0x01, 0x8E, 0xF4, 0x47, 0xA7, 0x7A, 0xBA, 0xAD, 0x9D, 0xDD, 0x98, 0x3D, 0xAA, 0x5D, 0x96]

/-- The factor of each shard that turns the default code's equations into power sums: the inverse of the product of
its point's differences to the 13 others. -/
def columnFactors : List Byte :=
  [0x65, 0x65, 0x95, 0x95, 0x7F, 0x7F, 0x8F, 0x8F, 0xEA, 0xEA, 0x1A, 0x1A, 0xF0, 0xF0]

/-- The inverses of `columnFactors`. -/
def columnFactorInverses : List Byte :=
  [0xC4, 0xC4, 0xBC, 0xBC, 0xFC, 0xFC, 0xF5, 0xF5, 0xF3, 0xF3, 0x55, 0x55, 0xE3, 0xE3]

/-- The coefficient of shard i in check equation m. -/
def checkCoefficient (m i : Nat) : Byte := (gfMul 0x11D (point i))^[m] (columnFactors.getD i 0)

theorem gfMul_pointInverses : ∀ d < 16, d ≠ 0 → gfMul 0x11D (pointInverses.getD d 0) (point d) = 1 := by
  decide +kernel

theorem gfMul_columnFactorInverses :
    ∀ i < 14, gfMul 0x11D (columnFactorInverses.getD i 0) (columnFactors.getD i 0) = 1 := by
  decide +kernel

/-- The check equations hold for the columns of the default RS_PARITY. -/
theorem checkCoefficient_eq :
    ∀ m < 4, ∀ i < 10, (xorSum (List.range 4) fun j =>
      gfMul 0x11D (checkCoefficient m (10 + j)) (rsEntry Config.defaultParams j i)) = checkCoefficient m i := by
  decide +kernel

theorem pointsDiffer_default : PointsDiffer 0x11D 14 := by
  intro i hi j hj hij v hv
  have hlt : i ^^^ j < 2 ^ 4 := Nat.xor_lt_two_pow (by omega) (by omega)
  have hne : i ^^^ j ≠ 0 := fun h => hij (Nat.xor_eq_zero_iff.1 h)
  have hpoint : point i ^^^ point j = point (i ^^^ j) := by
    simp only [point, BitVec.ofNat_xor]
  rw [hpoint] at hv
  exact eq_zero_of_gfMul_eq_zero (gfMul_pointInverses _ hlt hne) hv

/-- The parity equations of a byte column, under the default code. -/
def Codeword (column : Nat → Byte) : Prop :=
  ∀ j < 4, column (10 + j) = columnParity Config.defaultParams j column

section
variable {c c' : Nat → Byte}

theorem columnParity_xor (p : Params) (j : Nat) :
    columnParity p j (fun i => c i ^^^ c' i) = columnParity p j c ^^^ columnParity p j c' := by
  refine Eq.trans (xorSum_congr fun i _ => ?_) (xorSum_xor (List.range 10) _ _)
  exact gfMul_linear_right p.gfPoly (rsEntry p j i) (c i) (c' i)

theorem Codeword.xor (hc : Codeword c) (hc' : Codeword c') : Codeword fun i => c i ^^^ c' i := fun j hj => by
  rw [columnParity_xor, ← hc j hj, ← hc' j hj]

/-- The parity bytes contribute to a check equation what the data bytes do. -/
theorem xorSum_checkCoefficient_parity (hc : Codeword c) {m : Nat} (hm : m < 4) :
    (xorSum (List.range 4) fun j => gfMul 0x11D (checkCoefficient m (10 + j)) (c (10 + j))) =
      xorSum (List.range 10) fun i => gfMul 0x11D (checkCoefficient m i) (c i) :=
  calc (xorSum (List.range 4) fun j => gfMul 0x11D (checkCoefficient m (10 + j)) (c (10 + j)))
    _ = xorSum (List.range 4) fun j => xorSum (List.range 10) fun i =>
          gfMul 0x11D (gfMul 0x11D (checkCoefficient m (10 + j)) (rsEntry Config.defaultParams j i)) (c i) := by
      refine xorSum_congr fun j hj => ?_
      rw [hc j (List.mem_range.1 hj)]
      refine ((gfMul_linear_right 0x11D _).map_xorSum (List.range 10) _).trans (xorSum_congr fun i _ => ?_)
      exact (gfMul_assoc 0x11D _ _ _).symm
    _ = xorSum (List.range 10) fun i => gfMul 0x11D (checkCoefficient m i) (c i) := by
      rw [xorSum_comm]
      refine xorSum_congr fun i hi => ?_
      rw [← (gfMul_linear_left 0x11D (c i)).map_xorSum, checkCoefficient_eq m hm i (List.mem_range.1 hi)]

/-- A column that meets the parity equations meets the check equations. -/
theorem powerSum_of_codeword (hc : Codeword c) {m : Nat} (hm : m < 4) :
    powerSum 0x11D 14 m (fun i => gfMul 0x11D (columnFactors.getD i 0) (c i)) = 0#8 := by
  have hterm (i : Nat) : (gfMul 0x11D (point i))^[m] (gfMul 0x11D (columnFactors.getD i 0) (c i)) =
      gfMul 0x11D (checkCoefficient m i) (c i) := gfMul_iterate_assoc _ _ _ m
  simp only [powerSum, hterm]
  rw [List.range_add (n := 10) (m := 4), xorSum_append, xorSum_map, xorSum_checkCoefficient_parity hc hm,
    BitVec.xor_self]

/-- The default code's distance: a column that meets the parity equations is zero or has five bytes that are not. -/
theorem Codeword.eq_zero (hc : Codeword c) (hcard : (nonzeros 14 c).card ≤ 4) : ∀ i < 14, c i = 0#8 := by
  intro i hi
  refine eq_zero_of_gfMul_eq_zero (gfMul_columnFactorInverses i hi) ?_
  refine eq_zero_of_powerSum pointsDiffer_default ?_ (fun m hm => powerSum_of_codeword hc hm) i hi
  refine (Finset.card_le_card fun k hk => ?_).trans hcard
  obtain ⟨hk, hvalue⟩ := mem_nonzeros.1 hk
  refine mem_nonzeros.2 ⟨hk, fun hzero => hvalue ?_⟩
  rw [hzero, (gfMul_linear_right 0x11D _).map_zero]

end

/-! ### Changes of one byte column -/

/-- Byte column t of a protected sequence with shards of S bytes. -/
def byteColumn (size t : Nat) (bytes : List Byte) (i : Nat) : Byte := bytes.getD (i * size + t) 0

/-- The positions where two protected sequences with shards of S bytes differ. -/
def changes (size : Nat) (bytes bytes' : List Byte) : List Nat :=
  (List.range (14 * size)).filter fun x => bytes.getD x 0 != bytes'.getD x 0

section
variable {p : Params} {size t : Nat} {bytes bytes' : List Byte}

theorem columnParity_default (hpoly : p.gfPoly = Config.defaultGfPoly) (hparity : p.rsParity = Config.defaultRsParity)
    (j : Nat) (c : Nat → Byte) : columnParity p j c = columnParity Config.defaultParams j c := by
  unfold columnParity rsEntry
  rw [hpoly, hparity]
  rfl

theorem codeword_of_intact (hpoly : p.gfPoly = Config.defaultGfPoly) (hparity : p.rsParity = Config.defaultRsParity)
    (hlength : bytes.length = 14 * size) (hintact : intact p size bytes = true) (ht : t < size) :
    Codeword (byteColumn size t bytes) := fun j hj => by
  rw [← columnParity_default hpoly hparity]
  exact (intact_iff p size bytes hlength).1 hintact j t hj ht

theorem mem_changes {x : Nat} : x ∈ changes size bytes bytes' ↔ x < 14 * size ∧ bytes.getD x 0 ≠ bytes'.getD x 0 := by
  simp [changes]

/-- A column has at most as many bytes that differ as the whole sequence. -/
theorem card_nonzeros_le_changes (ht : t < size) :
    (nonzeros 14 fun i => byteColumn size t bytes i ^^^ byteColumn size t bytes' i).card ≤
      (changes size bytes bytes').length := by
  refine le_trans (Finset.card_le_card_of_injOn (fun i => i * size + t) (t := (changes size bytes bytes').toFinset)
    ?_ ?_) (List.toFinset_card_le _)
  · intro i hi
    obtain ⟨hi, hne⟩ := mem_nonzeros.1 hi
    refine List.mem_toFinset.2 (mem_changes.2 ⟨?_, fun heq => hne ?_⟩)
    · have hmul : (i + 1) * size ≤ 14 * size := Nat.mul_le_mul_right size hi
      rw [Nat.succ_mul] at hmul
      dsimp only
      omega
    · rw [byteColumn, byteColumn, heq, BitVec.xor_self]
  · intro i _ k _ heq
    exact Nat.eq_of_mul_eq_mul_right (by omega) (Nat.add_right_cancel heq)

end

end Sys2Proof.Machine

namespace Sys2Proof.Proofs

open Sys2Proof.Machine Sys2Proof.Spec

/-- Settles O56: the difference of two intact sequences meets the parity equations in every byte column, and
a column that meets them with at most four bytes that are not zero is zero (`Codeword.eq_zero`). -/
theorem defaultCodeDetectsFourErrors : Obligations.DefaultCodeDetectsFourErrors := by
  intro p size column bytes bytes' hpoly hparity hcolumn hlength hlength' hintact honly hsome hfour
  rw [Bool.eq_false_iff]
  intro hintact'
  have hdifference := (codeword_of_intact hpoly hparity hlength hintact hcolumn).xor
    (codeword_of_intact hpoly hparity hlength' hintact' hcolumn)
  have hzero := hdifference.eq_zero ((card_nonzeros_le_changes hcolumn).trans hfour)
  obtain ⟨x, hx⟩ := List.exists_mem_of_length_pos hsome
  obtain ⟨hlt, hne⟩ := mem_changes.1 hx
  have hposition : x / size * size + column = x := by
    rw [← honly x hne]
    exact Nat.div_add_mod' x size
  have hequal := hzero (x / size) (Nat.div_lt_of_lt_mul (by rwa [Nat.mul_comm]))
  rw [byteColumn, byteColumn, hposition] at hequal
  exact hne (BitVec.xor_eq_zero_iff.1 hequal)

/-- Settles O58: a finite check, entry by entry, of the four rows and ten columns. -/
theorem defaultParityFromVandermonde : Obligations.DefaultParityFromVandermonde := by
  unfold Obligations.DefaultParityFromVandermonde
  decide +kernel

end Sys2Proof.Proofs
end
